-- ==== Sys2Proof/Word.lean ====
section
/-! DEFINITION. The words the VMC handles (spec/00_scope.md R8: bit 0 is the least significant bit, all values unsigned). -/

namespace Sys2Proof

/-- A 32-bit word: a header or operand word, a held word, a response's result. -/
abbrev Word := BitVec 32

/-- A 16-bit value: a Region element, a 16-bit register word, a coordinate. -/
abbrev Half := BitVec 16

/-- An 8-bit value: a byte of memory, the OPC field, a colour channel operand. -/
abbrev Byte := BitVec 8

end Sys2Proof
end

