-- ==== Sys2Proof/Syntax.lean ====
section
/-! DEFINITION. Commands as data: the 24 rows of the opcode map (spec/30_encoding.md R95) with their decoded operands. -/

namespace Sys2Proof

/-- A constructed Video Mode: Mode3, Mode4 or Mode5 (R29). `MODE = NONE` is `none` of an Option. -/
inductive VideoMode where
  | m3
  | m4
  | m5
deriving DecidableEq, Repr

/-- The 96-bit command the host presents: header word H, operand words A and B (R91). -/
structure Command where
  h : Word
  a : Word
  b : Word
deriving DecidableEq, Repr

/-- One constructor per row of the opcode map (R95), operands by the formats of R92 and R93. `slot` is SLOT, `i` and
`sh` are SH, `bit` is ARG[0]. `hi` is the part of a used operand word that must be 0 (B[31:16] of XYC and IC, A[31:24]
of RGB): it is kept, because a command whose `hi` is not 0 decodes and then traps BAD_VALUE with the whole operand
word as info (R93). Ignored operand words are not part of an instruction. -/
inductive Instr where
  | regRead (slot : Fin 16)
  | regWrite (slot : Fin 16)
  | regZero (slot : Fin 16)
  | regSet (slot : Fin 16) (v : Word)
  | regAnd (slot : Fin 16) (m : Word)
  | regOr (slot : Fin 16) (m : Word)
  | regClear (slot : Fin 16) (m : Word)
  | regGetb (slot : Fin 16) (i : Fin 32)
  | regSetb (slot : Fin 16) (i : Fin 32) (bit : Bool)
  | regGetm (slot : Fin 16) (sh : Fin 32) (m : Word)
  | regSetm (slot : Fin 16) (sh : Fin 32) (m : Word) (v : Word)
  | vmConstruct (m : VideoMode)
  | vmEnable
  | vmSet (x y c hi : Half)
  | vmGet (x y : Half)
  | vmSwap
  | vmClear
  | vmBounds
  | vmSetpal (i : Word) (c hi : Half)
  | vmGetpal (i : Word)
  | vmVsync
  | vmSwapv
  | gfxSwitch (m : VideoMode)
  | colRgb (r g b hi : Byte)
deriving DecidableEq, Repr

end Sys2Proof
end

