-- ==== Sys2Proof/Decode.lean ====
section
/-! DEFINITION. The decoder, total on all header words (spec/30_encoding.md R92 to R97), and the encoder. -/

namespace Sys2Proof

/-- The rows of the opcode map, R95. -/
inductive Op where
  | regRead | regWrite | regZero | regSet | regAnd | regOr | regClear | regGetb | regSetb | regGetm | regSetm
  | vmConstruct | vmEnable | vmSet | vmGet | vmSwap | vmClear | vmBounds | vmSetpal | vmGetpal | vmVsync | vmSwapv
  | gfxSwitch | colRgb
deriving DecidableEq, Repr

/-- Every row, in the table's order. -/
def Op.all : List Op :=
  [.regRead, .regWrite, .regZero, .regSet, .regAnd, .regOr, .regClear, .regGetb, .regSetb, .regGetm, .regSetm] ++
  [.vmConstruct, .vmEnable, .vmSet, .vmGet, .vmSwap, .vmClear, .vmBounds, .vmSetpal, .vmGetpal, .vmVsync, .vmSwapv] ++
  [.gfxSwitch, .colRgb]

/-- Column `match` of R95. -/
def Op.matchBits : Op → Word
  | .regRead => 0x10000000
  | .regWrite => 0x11000000
  | .regZero => 0x12000000
  | .regSet => 0x13000000
  | .regAnd => 0x14000000
  | .regOr => 0x15000000
  | .regClear => 0x16000000
  | .regGetb => 0x17000000
  | .regSetb => 0x18000000
  | .regGetm => 0x19000000
  | .regSetm => 0x1A000000
  | .vmConstruct => 0x20000000
  | .vmEnable => 0x21000000
  | .vmSet => 0x22000000
  | .vmGet => 0x23000000
  | .vmSwap => 0x24000000
  | .vmClear => 0x25000000
  | .vmBounds => 0x26000000
  | .vmSetpal => 0x27000000
  | .vmGetpal => 0x28000000
  | .vmVsync => 0x29000000
  | .vmSwapv => 0x2A000000
  | .gfxSwitch => 0x30000000
  | .colRgb => 0x40000000

/-- Column `mask` of R95. -/
def Op.maskBits : Op → Word
  | .regRead | .regWrite | .regZero | .regSet | .regAnd | .regOr | .regClear => 0xFF0FFFFF
  | .regGetb | .regGetm | .regSetm => 0xFF0FE0FF
  | .regSetb => 0xFF0FE0FE
  | .vmConstruct | .gfxSwitch => 0xFFFFFFF8
  | .vmEnable | .vmSet | .vmGet | .vmSwap | .vmClear | .vmBounds | .vmSetpal | .vmGetpal | .vmVsync | .vmSwapv
  | .colRgb => 0xFFFFFFFF

/-! ### Fields (R92, R93) -/

/-- OPC, bits 31:24 of H. -/
def opcField (h : Word) : Byte := h.extractLsb' 24 8

/-- SLOT, bits 23:20 of H. -/
def slotField (h : Word) : Fin 16 := (h.extractLsb' 20 4).toFin

/-- SH, bits 12:8 of H. -/
def shField (h : Word) : Fin 32 := (h.extractLsb' 8 5).toFin

/-- ARG[0], bit 0 of H. -/
def argBit (h : Word) : Bool := h.getLsbD 0

/-- ARG[2:0], bits 2:0 of H. -/
def argMode (h : Word) : BitVec 3 := h.extractLsb' 0 3

/-- Bits 15:0 of an operand word. -/
def lowHalf (w : Word) : Half := w.extractLsb' 0 16

/-- Bits 31:16 of an operand word. -/
def highHalf (w : Word) : Half := w.extractLsb' 16 16

/-- Byte k of an operand word, bits 8k+7:8k. -/
def byteField (w : Word) (k : Nat) : Byte := w.extractLsb' (8 * k) 8

/-- The OPC of a row, its `match` bits 31:24. -/
def Op.opc (o : Op) : Byte := opcField o.matchBits

/-- The mode-number constraint of R95: only 3, 4 and 5 name a mode. -/
def modeOfNumber (n : BitVec 3) : Option VideoMode :=
  if n = 3 then some .m3 else if n = 4 then some .m4 else if n = 5 then some .m5 else none

/-- The mode number of ARG[2:0]. -/
def VideoMode.number : VideoMode → BitVec 3
  | .m3 => 3
  | .m4 => 4
  | .m5 => 5

/-- Why a header word is an illegal command (R97). -/
inductive DecodeError where
  /-- no row of the opcode map matches H -/
  | noMatchingRow
  /-- the row is VM.CONSTRUCT or GFX.SWITCH and ARG[2:0] is not 3, 4 or 5 -/
  | badModeNumber
deriving DecidableEq, Repr

/-- R94: the row whose `(H & mask) = match`. -/
def rowOf (h : Word) : Option Op := Op.all.find? fun o => h &&& o.maskBits == o.matchBits

/-- The instruction of a matching row: its operands taken from the fields of H, A and B (R92, R93). -/
def instrOf (o : Op) (c : Command) : Except DecodeError Instr :=
  let s := slotField c.h
  let sh := shField c.h
  match o with
  | .regRead => .ok (.regRead s)
  | .regWrite => .ok (.regWrite s)
  | .regZero => .ok (.regZero s)
  | .regSet => .ok (.regSet s c.a)
  | .regAnd => .ok (.regAnd s c.a)
  | .regOr => .ok (.regOr s c.a)
  | .regClear => .ok (.regClear s c.a)
  | .regGetb => .ok (.regGetb s sh)
  | .regSetb => .ok (.regSetb s sh (argBit c.h))
  | .regGetm => .ok (.regGetm s sh c.a)
  | .regSetm => .ok (.regSetm s sh c.a c.b)
  | .vmConstruct =>
    match modeOfNumber (argMode c.h) with
    | some m => .ok (.vmConstruct m)
    | none => .error .badModeNumber
  | .vmEnable => .ok .vmEnable
  | .vmSet => .ok (.vmSet (lowHalf c.a) (highHalf c.a) (lowHalf c.b) (highHalf c.b))
  | .vmGet => .ok (.vmGet (lowHalf c.a) (highHalf c.a))
  | .vmSwap => .ok .vmSwap
  | .vmClear => .ok .vmClear
  | .vmBounds => .ok .vmBounds
  | .vmSetpal => .ok (.vmSetpal c.a (lowHalf c.b) (highHalf c.b))
  | .vmGetpal => .ok (.vmGetpal c.a)
  | .vmVsync => .ok .vmVsync
  | .vmSwapv => .ok .vmSwapv
  | .gfxSwitch =>
    match modeOfNumber (argMode c.h) with
    | some m => .ok (.gfxSwitch m)
    | none => .error .badModeNumber
  | .colRgb => .ok (.colRgb (byteField c.a 0) (byteField c.a 1) (byteField c.a 2) (byteField c.a 3))

/-- R94, R97: the decoder. It looks only at H to identify the command, and never at the state or the configuration. -/
def decode (c : Command) : Except DecodeError Instr :=
  match rowOf c.h with
  | some o => instrOf o c
  | none => .error .noMatchingRow

/-! ### Encoder -/

/-- A header word from its fields (R92); RSV is 0. -/
def header (o : Op) (slot : Fin 16) (sh : Fin 32) (arg : Byte) : Word :=
  o.opc ++ BitVec.ofFin (w := 4) slot ++ (0 : BitVec 7) ++ BitVec.ofFin (w := 5) sh ++ arg

/-- A command of a row that uses no header field. -/
def plainCommand (o : Op) (a b : Word) : Command := ⟨header o 0 0 0, a, b⟩

/-- A command of a row whose one operand is a mode number in ARG[2:0] (R92). -/
def modeCommand (o : Op) (number : BitVec 3) : Command := ⟨header o 0 0 ((0 : BitVec 5) ++ number), 0, 0⟩

/-- R95, R92, R93: the words of an instruction; an ignored word is written 0 (R99). -/
def encode : Instr → Command
  | .regRead s => ⟨header .regRead s 0 0, 0, 0⟩
  | .regWrite s => ⟨header .regWrite s 0 0, 0, 0⟩
  | .regZero s => ⟨header .regZero s 0 0, 0, 0⟩
  | .regSet s v => ⟨header .regSet s 0 0, v, 0⟩
  | .regAnd s m => ⟨header .regAnd s 0 0, m, 0⟩
  | .regOr s m => ⟨header .regOr s 0 0, m, 0⟩
  | .regClear s m => ⟨header .regClear s 0 0, m, 0⟩
  | .regGetb s i => ⟨header .regGetb s i 0, 0, 0⟩
  | .regSetb s i bit => ⟨header .regSetb s i (if bit then 1 else 0), 0, 0⟩
  | .regGetm s sh m => ⟨header .regGetm s sh 0, m, 0⟩
  | .regSetm s sh m v => ⟨header .regSetm s sh 0, m, v⟩
  | .vmConstruct m => modeCommand .vmConstruct m.number
  | .vmEnable => plainCommand .vmEnable 0 0
  | .vmSet x y c hi => plainCommand .vmSet (y ++ x) (hi ++ c)
  | .vmGet x y => plainCommand .vmGet (y ++ x) 0
  | .vmSwap => plainCommand .vmSwap 0 0
  | .vmClear => plainCommand .vmClear 0 0
  | .vmBounds => plainCommand .vmBounds 0 0
  | .vmSetpal i c hi => plainCommand .vmSetpal i (hi ++ c)
  | .vmGetpal i => plainCommand .vmGetpal i 0
  | .vmVsync => plainCommand .vmVsync 0 0
  | .vmSwapv => plainCommand .vmSwapv 0 0
  | .gfxSwitch m => modeCommand .gfxSwitch m.number
  | .colRgb r g b hi => plainCommand .colRgb (hi ++ b ++ g ++ r) 0

/-! ### The opcode table's numbering of a command's bits -/

/-- The command whose bits, numbered as spec/opcode_table.json numbers them, are the low `nbits` bits of `w`: H is
bits 31:0, A bits 63:32, B bits 95:64; every bit at or above `nbits` is 0. -/
def commandOfTableWord (nbits w : Nat) : Command :=
  let v := w % 2 ^ nbits
  ⟨BitVec.ofNat 32 v, BitVec.ofNat 32 (v / 2 ^ 32), BitVec.ofNat 32 (v / 2 ^ 64)⟩

/-- The instruction the decoder reads from a command given in the table's numbering of its bits. -/
def decodeTableWord (nbits w : Nat) : Option Instr := (decode (commandOfTableWord nbits w)).toOption

end Sys2Proof
end

