-- ==== Sys2Proof/Config.lean ====
section
/-! DEFINITION. The configuration record CFG (spec/00_scope.md R5), its reference value CFG_REF, and the two free values. -/

namespace Sys2Proof

/-- Width of a register slot and size of a bus access: 16 bits (2 bytes) or 32 bits (4 bytes). R21, R62. -/
inductive Width where
  | w16
  | w32
deriving DecidableEq, Repr

/-- `W`, in bits (R9). -/
def Width.bits : Width → Nat
  | .w16 => 16
  | .w32 => 32

/-- `W / 8`, the `n` of `MemRead` and `MemWrite` (R62). -/
def Width.bytes : Width → Nat
  | .w16 => 2
  | .w32 => 4

/-- One entry of `REGTAB`: the fixed address and width of a register slot (R5, R21). -/
structure SlotDef where
  addr  : Nat
  width : Width
deriving DecidableEq, Repr

/-- `CFG` (R5). `NREG` is the length of `regtab`. Addresses are natural numbers: R6 (h) bounds them by 2^32,
and R123 says that their arithmetic does not wrap. -/
structure Cfg where
  regtab       : List SlotDef
  ioBase       : Nat
  palBase      : Nat
  vramBase     : Nat
  frameBOffset : Nat
  modeShift    : Nat
  modeMask     : Half
  code3        : Half
  code4        : Half
  code5        : Half
  bufselBit    : Nat
  bg2Bit       : Nat
  blankBit     : Nat
  vblankBit    : Nat
deriving DecidableEq, Repr

/-- `NREG` (R5). -/
def Cfg.nreg (cfg : Cfg) : Nat := cfg.regtab.length

/-- `REGTAB[s]`. A slot at or above NREG has no entry, and the spec gives it no address and no width: the 16-bit slot at
address 0 is the model's value there (DESIGN CHOICE, log 17). No command reads it, since BAD_SLOT traps first (R135); the
expansion of REG.GET (R100) does. -/
def Cfg.slotDef (cfg : Cfg) (s : Nat) : SlotDef := cfg.regtab.getD s ⟨0, .w16⟩

/-- `ADDR(s)` (R9). -/
def Cfg.addr (cfg : Cfg) (s : Nat) : Nat := (cfg.slotDef s).addr

/-- `REGTAB` of CFG_REF, its slots at offsets from `IO_BASE` (R5). -/
def refSlots (ioBase : Nat) : List SlotDef :=
  [⟨ioBase, .w16⟩, ⟨ioBase + 0x004, .w16⟩, ⟨ioBase + 0x130, .w16⟩, ⟨ioBase + 0x0D4, .w32⟩]

/-- `CFG_REF`, the reference configuration of R5. -/
def Cfg.ref : Cfg where
  regtab       := refSlots 0x04000000
  ioBase       := 0x04000000
  palBase      := 0x05000000
  vramBase     := 0x06000000
  frameBOffset := 0xA000
  modeShift    := 0
  modeMask     := 0x7
  code3        := 3
  code4        := 4
  code5        := 5
  bufselBit    := 4
  bg2Bit       := 10
  blankBit     := 7
  vblankBit    := 0

/-- FREE VALUE: what the environment answers the n-th oracle load that no pending answer of `State.answers` covers
(R64: "the VMC assumes nothing about the value"; U5, U8). It has no body: nothing can be proved about its value. -/
opaque Config.freeAnswer : Nat → Word

/-- FREE VALUE: the byte an address holds at launch, where memory does not list it (R43: "arbitrary launch values, not as
zero"; U9). It has no body: nothing can be proved about its value (log 2). -/
opaque Config.launchByte : Nat → Byte

end Sys2Proof
end

