-- ==== Sys2Proof/Machine/State.lean ====
section
/-! DEFINITION. The state (spec/10_state.md R20 to R43), the outside world as the state carries it, and reset. -/

namespace Sys2Proof.Machine

/-- The software active-buffer selector `ACTIVE`: A is 0, B is 1 (R31). -/
inductive Buffer where
  | a
  | b
deriving DecidableEq, Repr

/-- The sequencer `SEQ` (R20, R28). -/
inductive Seq where
  | idle
  | clearing
  | poll
  | pollSwap
deriving DecidableEq, Repr

/-- The causes of R211; the codes 11 to 15 are never produced. -/
inductive Cause where
  | none
  | regionOob
  | coordOob
  | paletteOob
  | misalignedRegion
  | badShift
  | badState
  | illegalCommand
  | badValue
  | badSlot
  | notPaletteMode
deriving DecidableEq, Repr

/-- STATUS of a response (R96); the value 3 is never produced. -/
inductive Status where
  | ok
  | trap
  | halted
deriving DecidableEq, Repr

/-- The one response of an accepted command (R96). -/
structure Response where
  status : Status
  cause  : Cause
  r      : Word
deriving DecidableEq, Repr

/-- One bus transaction of the VMC (R64 to R66): address, size (2 or 4 bytes) and value, zero-extended to 32 bits. -/
inductive BusEvent where
  | load (addr : Nat) (size : Width) (v : Word)
  | store (addr : Nat) (size : Width) (v : Word)
deriving DecidableEq, Repr

/-- What the host does next at the command port and the reset input (R90, R240). -/
inductive HostInput where
  /-- present a command, which waits while the port is closed (log 5) -/
  | command (c : Command)
  /-- nothing, for one step -/
  | idle
  /-- apply reset between two steps -/
  | reset
  /-- apply reset inside the step the inputs behind this one bring, after its first `k` bus accesses (R241, log 8) -/
  | resetInside (k : Nat)
deriving DecidableEq, Repr

/-- Memory as bytes by address, addresses strictly rising. An address that is not listed holds its launch value, of which
nothing is known (R43, log 2). -/
abbrev Memory := List Host.Cell

/-- Why a step stops with a fault. -/
inductive Fault where
  /-- Raised by a step with `SEQ = CLEARING` and `MODE = NONE`, a state no run from a reset reaches (R28, R172 start the
  loop only with a mode). Safe: the hardware has no such state (log 10). -/
  | clearWithoutMode
deriving DecidableEq, Repr

/-- Why a step is refused. -/
inductive Refusal where
  /-- Raised by `exec` for an instruction that has no meaning yet. Safe: nothing is claimed of it. -/
  | notModelled (mnemonic : String)
  /-- Raised by `step` when the configuration is not well-formed. R6: "A model refuses a configuration that is not
  well-formed (it gives it no meaning)". Safe. -/
  | illFormedConfiguration
deriving DecidableEq, Repr

/-- The state tuple of R20, and around it what R40 calls parameters of the step relation (configuration, commands
presented, answers of memory), memory itself (R60) and what an observer sees (event history R66, responses R96). -/
structure State where
  /-- `HELD[s]`, R21; slots at or above NREG do not exist and no command reaches their entry (log 12). -/
  held      : Vector Word 16
  /-- `MODE`, R29; `none` is NONE. -/
  mode      : Option VideoMode
  /-- `EN`, R30. -/
  en        : Bool
  /-- `ACTIVE`, R31. -/
  active    : Buffer
  /-- `SEQ`, R28. -/
  seq       : Seq
  /-- `CX`, R28. -/
  cx        : BitVec 8
  /-- `CY`, R28. -/
  cy        : BitVec 8
  /-- `HALT`, R33. -/
  halt      : Bool
  /-- `FCAUSE`, R33. -/
  fcause    : Cause
  /-- `FINFO`, R33. -/
  finfo     : Word
  /-- `FOPC`, R33. -/
  fopc      : Byte
  /-- `CFG`, R5, R40: fixed for a machine; no step changes it (log 1). -/
  cfg       : Cfg
  /-- The bytes memory holds: launch values and the VMC's stores (R43, R65; log 2). -/
  mem       : Memory
  /-- The event history, oldest first (R66). -/
  events    : List BusEvent
  /-- The responses produced, oldest first (R96, R259). -/
  responses : List Response
  /-- What the host does next (R90; log 5). -/
  port      : List HostInput
  /-- The environment's answers to the next oracle loads (R40, R64, R72; log 3). -/
  answers   : List Word
  /-- How many oracle loads `Config.freeAnswer` has answered: the model's own counter (log 3). -/
  freeIdx   : Nat
  /-- Whether the Quiet premise of R73 holds in this run (log 3). -/
  quiet     : Bool
deriving DecidableEq, Repr

/-- R41, R240, R242: every piece of VMC state takes its reset value; memory, histories and the outside are untouched. -/
def State.resetVmc (s : State) : State :=
  { s with
    held := Vector.replicate 16 0
    mode := none
    en := false
    active := .a
    seq := .idle
    cx := 0
    cy := 0
    halt := false
    fcause := .none
    finfo := 0
    fopc := 0 }

/-- The machine right after its first reset, in configuration `cfg`: R41, with nothing presented, no answer pending,
no byte of memory listed and the Quiet premise not adopted (log 2, log 4, log 5). -/
def State.resetIn (cfg : Cfg) : State where
  held := Vector.replicate 16 0
  mode := none
  en := false
  active := .a
  seq := .idle
  cx := 0
  cy := 0
  halt := false
  fcause := .none
  finfo := 0
  fopc := 0
  cfg := cfg
  mem := []
  events := []
  responses := []
  port := []
  answers := []
  freeIdx := 0
  quiet := false

/-- The machine right after reset (R41) in the reference configuration CFG_REF. -/
def State.reset : State := State.resetIn Cfg.ref

end Sys2Proof.Machine
end

