-- ==== Sys2Proof/Machine/Operands.lean ====
section
/-! DEFINITION. Operand forms: words in a slot's width, the bit functions (spec/41_register.md R130 to R133), coordinates,
pixels and colours (spec/42_video_mode.md R165, R167, spec/43_colour_graphics.md R202, R203). -/

namespace Sys2Proof.Machine

/-- `ONES = 2^W - 1` (R130). -/
def ones : Width → Word
  | .w16 => 0x0000FFFF
  | .w32 => 0xFFFFFFFF

/-- `trunc_W(v)` (R8). -/
def trunc (w : Width) (v : Word) : Word := v &&& ones w

/-- A 16-bit value zero-extended to 32 bits. -/
def zext (v : Half) : Word := (0 : Half) ++ v

/-- `getb(w, i) = (w >> i) & 1` (R131). -/
def getb (v : Word) (i : Nat) : Word := (v >>> i) &&& 1

/-- `setb(w, i, b)` in width W (R131). -/
def setb (w : Width) (v : Word) (i : Nat) (b : Bool) : Word :=
  if b then v ||| trunc w ((1 : Word) <<< i) else v &&& trunc w (~~~((1 : Word) <<< i))

/-- `getm(w, sh, m) = (w >> sh) & m` (R132). -/
def getm (v : Word) (sh : Nat) (m : Word) : Word := (v >>> sh) &&& m

/-- `setm(w, sh, m, v) = (w & ~(m << sh)) | ((v & m) << sh)`, every intermediate truncated to W bits (R133). -/
def setm (w : Width) (v : Word) (sh : Nat) (m x : Word) : Word :=
  (v &&& trunc w (~~~(trunc w (m <<< sh)))) ||| trunc w ((x &&& m) <<< sh)

/-- `A = {y, x}`, the operand word of formats XY and XYC (R93). -/
def coordWord (x y : Half) : Word := y ++ x

/-- The operand word B of formats XYC and IC (R93). -/
def colourWord (c hi : Half) : Word := hi ++ c

/-- The operand word A of format RGB (R93). -/
def channelsWord (r g b hi : Byte) : Word := hi ++ b ++ g ++ r

/-- `rgb(r, g, b)`: each channel masked to 5 bits, packed as `r | (g << 5) | (b << 10)` (R203). -/
def packRgb (r g b : Byte) : Word :=
  (r.setWidth 32 &&& 0x1F#32) ||| ((g.setWidth 32 &&& 0x1F#32) <<< 5) ||| ((b.setWidth 32 &&& 0x1F#32) <<< 10)

/-! ### Per-mode constants (R29, R160) and pixel addressing (R165, R167) -/

/-- `Wd`. -/
def wd : VideoMode → Nat
  | .m3 => 240
  | .m4 => 240
  | .m5 => 160

/-- `Ht`. -/
def ht : VideoMode → Nat
  | .m3 => 160
  | .m4 => 160
  | .m5 => 128

/-- `Bpp`. -/
def bpp : VideoMode → Nat
  | .m3 => 16
  | .m4 => 8
  | .m5 => 16

/-- The linear pixel index `p = x + y * Wd` (R165). -/
def pixelIndex (m : VideoMode) (x y : Nat) : Nat := x + y * wd m

/-- The Region index of the cell that holds pixel p: p itself, and in Mode4 `p >> 1` (R167). -/
def cellIndex (m : VideoMode) (p : Nat) : Nat :=
  match m with
  | .m3 => p
  | .m4 => p / 2
  | .m5 => p

/-- Mode4: the cell with pixel p's byte replaced by c; even p is the low byte, odd p the high byte (R167). -/
def replacePixel (p : Nat) (cell c : Half) : Half :=
  if p % 2 = 0 then (cell &&& (0xFF00 : Half)) ||| c else (cell &&& (0x00FF : Half)) ||| (c <<< 8)

/-- Mode4: pixel p's byte of its cell (R167). -/
def pixelOfCell (p : Nat) (cell : Half) : Half :=
  if p % 2 = 0 then cell &&& 0x00FF else cell >>> 8

/-- `(Bpp << 24) | (Ht << 12) | Wd` (R173). -/
def packBounds (m : VideoMode) : Word :=
  (BitVec.ofNat 32 (bpp m) <<< 24) ||| (BitVec.ofNat 32 (ht m) <<< 12) ||| BitVec.ofNat 32 (wd m)

end Sys2Proof.Machine
end

