-- ==== Sys2Proof/Machine/Flags.lean ====
section
/-! DEFINITION. Status bits and their encodings: the state word STW (spec/42_video_mode.md R160), the display-control word
that enable writes (R164), the vertical-blank bit (R177), cause and status codes (spec/60_exceptions.md R211,
spec/30_encoding.md R96). -/

namespace Sys2Proof.Machine

/-- `ACTIVE` as a bit: A is 0, B is 1 (R31). -/
def activeBit : Buffer → Bool
  | .a => false
  | .b => true

/-- `1 - ACTIVE`. -/
def otherBuffer : Buffer → Buffer
  | .a => .b
  | .b => .a

/-- n of STW: 0 for NONE, 3, 4, 5 for M3, M4, M5 (R160). -/
def modeNumber : Option VideoMode → Word
  | none => 0
  | some .m3 => 3
  | some .m4 => 4
  | some .m5 => 5

/-- A bit as a word. -/
def bitWord (b : Bool) : Word := if b then 1 else 0

/-- `STW = (ACTIVE << 4) | (EN << 3) | n` (R160). -/
def stw (s : State) : Word :=
  (bitWord (activeBit s.active) <<< 4) ||| (bitWord s.en <<< 3) ||| modeNumber s.mode

/-- `MODE_CODE[m]` (R5). -/
def modeCode (cfg : Cfg) : VideoMode → Half
  | .m3 => cfg.code3
  | .m4 => cfg.code4
  | .m5 => cfg.code5

/-- Whether a mode has two buffers (R29). -/
def doubleBuffered : VideoMode → Bool
  | .m3 => false
  | .m4 => true
  | .m5 => true

/-- The word `zero().set_mode(code).enable_bg2(true)` builds, with the buffer-select bit in Mode4 and Mode5 (R164). -/
def controlWord (cfg : Cfg) (m : VideoMode) (active : Buffer) : Word :=
  let w := setm .w16 0 cfg.modeShift (zext cfg.modeMask) (zext (modeCode cfg m))
  let w := setb .w16 w cfg.bg2Bit true
  if doubleBuffered m then setb .w16 w cfg.bufselBit (activeBit active) else w

/-- `v[VBLANK_BIT] = 1` (R177). -/
def vblankSet (cfg : Cfg) (v : Word) : Bool := getb v cfg.vblankBit == 1

/-- The code of a cause (R211), the 4-bit value of CAUSE and FCAUSE. -/
def causeCode : Cause → BitVec 4
  | .none => 0
  | .regionOob => 1
  | .coordOob => 2
  | .paletteOob => 3
  | .misalignedRegion => 4
  | .badShift => 5
  | .badState => 6
  | .illegalCommand => 7
  | .badValue => 8
  | .badSlot => 9
  | .notPaletteMode => 10

/-- The 2-bit value of STATUS (R96). -/
def statusCode : Status → BitVec 2
  | .ok => 0
  | .trap => 1
  | .halted => 2

end Sys2Proof.Machine
end

