-- ==== Sys2Proof/Machine/Region.lean ====
section
/-! DEFINITION. The fixed Region table (spec/10_state.md R38), the Regions of a mode (spec/42_video_mode.md R160) and the
draw buffer. -/

namespace Sys2Proof.Machine

/-- A Region `(base, len)` of 16-bit elements (R120). -/
structure Region where
  base : Nat
  len  : Nat
deriving DecidableEq, Repr

/-- `RGN_M3`. -/
def rgnM3 (cfg : Cfg) : Region := ⟨cfg.vramBase, 38400⟩
/-- `RGN_M4A`. -/
def rgnM4A (cfg : Cfg) : Region := ⟨cfg.vramBase, 19200⟩
/-- `RGN_M4B`. -/
def rgnM4B (cfg : Cfg) : Region := ⟨cfg.vramBase + cfg.frameBOffset, 19200⟩
/-- `RGN_M5A`. -/
def rgnM5A (cfg : Cfg) : Region := ⟨cfg.vramBase, 20480⟩
/-- `RGN_M5B`. -/
def rgnM5B (cfg : Cfg) : Region := ⟨cfg.vramBase + cfg.frameBOffset, 20480⟩
/-- `RGN_PAL`. -/
def rgnPal (cfg : Cfg) : Region := ⟨cfg.palBase, 256⟩

/-- The Region of buffer A or B of a mode, BufA and BufB of R160; Mode3 has its one buffer for both. -/
def bufferRegion (cfg : Cfg) (m : VideoMode) (buf : Buffer) : Region :=
  match m, buf with
  | .m3, _ => rgnM3 cfg
  | .m4, .a => rgnM4A cfg
  | .m4, .b => rgnM4B cfg
  | .m5, .a => rgnM5A cfg
  | .m5, .b => rgnM5B cfg

/-- `DrawRegion()` (R160): the buffer that is not presented; in Mode3 its only buffer. -/
def drawRegion (cfg : Cfg) (m : VideoMode) (active : Buffer) : Region := bufferRegion cfg m (otherBuffer active)

/-- `RegionsOf(MODE)`, in check order (R160). -/
def regionsOf (cfg : Cfg) : VideoMode → List Region
  | .m3 => [rgnM3 cfg]
  | .m4 => [rgnM4A cfg, rgnM4B cfg, rgnPal cfg]
  | .m5 => [rgnM5A cfg, rgnM5B cfg]

/-- `Aligned(g)`: the base is a multiple of 2 (R124). -/
def regionAligned (g : Region) : Bool := g.base % 2 == 0

/-- The address of element i, `g.base + 2*i` (R122, R123). -/
def elementAddr (g : Region) (i : Nat) : Nat := g.base + 2 * i

/-! ### The table of the address space (R37) -/

/-- One row of R37: size in bytes, whether the rule gives that size as an upper bound ("up to"), element width in bits, base,
whether any command reaches it. -/
structure Window where
  name        : String
  size        : Nat
  upTo        : Bool
  elementBits : Nat
  base        : Nat
  reached     : Bool
deriving DecidableEq, Repr

/-- The eight rows of R37. The three bases the VMC uses are configuration fields (R37, R77); the other five are the rule's
general-knowledge values, and no rule depends on them. DESIGN CHOICE (log 18): a cartridge window, whose size R37 gives only as
"up to", has that bound as its size, marked `upTo`; the spec leaves the size itself open. -/
def addressMap (cfg : Cfg) : List Window :=
  [⟨"Working RAM (external)", 262144, false, 16, 0x02000000, false⟩,
    ⟨"Fast working RAM (internal)", 32768, false, 32, 0x03000000, false⟩,
    ⟨"I/O registers", 1024, false, 16, cfg.ioBase, true⟩,
    ⟨"Palette RAM", 1024, false, 16, cfg.palBase, true⟩,
    ⟨"Video RAM", 98304, false, 16, cfg.vramBase, true⟩,
    ⟨"Object attribute memory", 1024, false, 32, 0x07000000, false⟩,
    ⟨"Cartridge ROM", 33554432, true, 16, 0x08000000, false⟩,
    ⟨"Cartridge save RAM", 65536, true, 8, 0x0E000000, false⟩]

end Sys2Proof.Machine
end

