-- ==== Sys2Proof/Machine/Ops.lean ====
section
/-! DEFINITION. The shared operations: memory by bytes, the two bus primitives (spec/20_memory.md R64, R65), held words,
responses, taking a trap (spec/60_exceptions.md R213) and the checks that precede an effect (R212). -/

namespace Sys2Proof.Machine

/-! ### Memory -/

/-- The byte at an address; where memory lists none, its launch value (R43, log 2). -/
def Memory.read (m : Memory) (a : Nat) : Byte :=
  match m with
  | [] => Config.launchByte a
  | (k, v) :: rest => if k = a then v else Memory.read rest a

/-- Memory with the byte at an address replaced, in canonical form. -/
def Memory.write (m : Memory) (a : Nat) (v : Byte) : Memory :=
  match m with
  | [] => [(a, v)]
  | (k, w) :: rest =>
    if a < k then (a, v) :: (k, w) :: rest
    else if a = k then (a, v) :: rest
    else (k, w) :: Memory.write rest a v

/-- Every address of a memory lies above `lo`, and addresses rise strictly. -/
def Memory.wfAbove (lo : Option Nat) (m : Memory) : Bool :=
  match m with
  | [] => true
  | (k, _) :: rest =>
    (match lo with | none => true | some l => decide (l < k)) && Memory.wfAbove (some k) rest

/-- The canonical form: addresses strictly rising, so that equal contents are equal lists. An unlisted address reads as no
value the model names, so no entry equals what an unlisted address reads as. -/
def Memory.wf (m : Memory) : Bool := Memory.wfAbove none m

/-- `Mem16(a)`, little-endian (R61). -/
def Memory.read16 (m : Memory) (a : Nat) : Half := m.read (a + 1) ++ m.read a

/-- A 16-bit value stored little-endian (R61, R65). -/
def Memory.write16 (m : Memory) (a : Nat) (v : Half) : Memory :=
  (m.write a (v.extractLsb' 0 8)).write (a + 1) (v.extractLsb' 8 8)

/-- An 8n-bit value stored little-endian (R61, R65). -/
def Memory.writeWord (m : Memory) (size : Width) (a : Nat) (v : Word) : Memory :=
  match size with
  | .w16 => m.write16 a (lowHalf v)
  | .w32 => (m.write16 a (lowHalf v)).write16 (a + 2) (highHalf v)

/-! ### The bus -/

/-- The environment's next oracle answer (R64, R72): the pending one, else the free value (log 3). -/
def oracle (s : State) : Word :=
  match s.answers with
  | [] => Config.freeAnswer s.freeIdx
  | v :: _ => v

/-- Whether a load of the 16-bit word at `a` is answered by the oracle: always the display-status word; without the Quiet
premise every word (R73, U5, U8). -/
def oracleHalf (s : State) (a : Nat) : Bool := !s.quiet || a == s.cfg.addr 1

/-- What a load of the 16-bit word at `a` answers, `v` being the oracle's 16 bits for it. -/
def answerHalf (s : State) (a : Nat) (v : Half) : Half := if oracleHalf s a then v else s.mem.read16 a

/-- The value `MemRead(a, n)` returns, zero-extended to 32 bits (R64); 4 bytes are `{Mem16(a+2), Mem16(a)}` (R68). -/
def busValue (s : State) (size : Width) (a : Nat) : Word :=
  match size with
  | .w16 => zext (answerHalf s a (lowHalf (oracle s)))
  | .w32 => answerHalf s (a + 2) (highHalf (oracle s)) ++ answerHalf s a (lowHalf (oracle s))

/-- Whether `MemRead(a, n)` takes an answer of the oracle. -/
def usesOracle (s : State) (size : Width) (a : Nat) : Bool :=
  match size with
  | .w16 => oracleHalf s a
  | .w32 => oracleHalf s a || oracleHalf s (a + 2)

/-- The answers that are left after a load that takes one. -/
def answersAfter (s : State) (size : Width) (a : Nat) : List Word :=
  if usesOracle s size a then s.answers.tail else s.answers

/-- The free-value counter after a load: it advances when the load was answered by the free value. -/
def freeIdxAfter (s : State) (size : Width) (a : Nat) : Nat :=
  if usesOracle s size a && s.answers.isEmpty then s.freeIdx + 1 else s.freeIdx

/-- `MemRead(a, n)` as a change of state: one load event, one oracle answer taken if the load uses it (R64, R66). The
value is `busValue` of the state before. -/
def memRead (s : State) (size : Width) (a : Nat) : State :=
  { s with
    events := s.events ++ [.load a size (busValue s size a)]
    answers := answersAfter s size a
    freeIdx := freeIdxAfter s size a }

/-- `MemWrite(a, n, v)`: one store event, and memory holds v (R65). -/
def memWrite (s : State) (size : Width) (a : Nat) (v : Word) : State :=
  { s with
    events := s.events ++ [.store a size (trunc size v)]
    mem := s.mem.writeWord size a (trunc size v) }

/-! ### Held words, responses, traps -/

/-- `x[s]` (R9). -/
def heldAt (s : State) (slot : Fin 16) : Word := s.held[slot]

/-- `x[s] <- v` (R9): no memory access. -/
def setHeld (s : State) (slot : Fin 16) (v : Word) : State := { s with held := s.held.set slot v }

/-- `respond(v)`: STATUS = OK, CAUSE = 0, R = v (R9, R96). A command without a result responds 0. -/
def respond (s : State) (v : Word) : State := { s with responses := s.responses ++ [⟨.ok, .none, v⟩] }

/-- A cause and its info word: what a failing check raises (R211). -/
structure Trap where
  cause : Cause
  info  : Word
deriving DecidableEq, Repr

/-- Trap entry, `raise C(info)` (R213), with the OPC field of the trapping command. -/
def takeTrap (s : State) (opc : Byte) (t : Trap) : State :=
  { s with
    halt := true
    fcause := t.cause
    finfo := t.info
    fopc := opc
    seq := .idle
    responses := s.responses ++ [⟨.trap, t.cause, t.info⟩] }

/-- The answer of a halted VMC: STATUS = HALTED, CAUSE = FCAUSE, R = FINFO, nothing else (R216). -/
def respondHalted (s : State) : State := { s with responses := s.responses ++ [⟨.halted, s.fcause, s.finfo⟩] }

/-! ### Checks (R135, R212): each answers the trap it raises, or none -/

/-- The outcome of every meaning. -/
abbrev Result := Host.Outcome State Fault Refusal

/-- A check passed: no trap. -/
def require (ok : Bool) (cause : Cause) (info : Word) : Option Trap := if ok then none else some ⟨cause, info⟩

/-- R10, R212: the first failing check traps and nothing else happens; with every check passed, the effect. -/
def guarded (op : Op) (checks : Option Trap) (effect s : State) : Result :=
  match checks with
  | some t => .next (takeTrap s op.opc t)
  | none => .next effect

/-- The BAD_SLOT check of R135, first in every REG command; the rest of the command has the slot's definition. -/
def withSlot (op : Op) (slot : Fin 16) (s : State) (rest : SlotDef → Result) : Result :=
  match s.cfg.regtab[slot.val]? with
  | some d => rest d
  | none => .next (takeTrap s op.opc ⟨.badSlot, BitVec.ofNat 32 slot.val⟩)

/-- `RequireMode()` (R160): BAD_STATE with STW when no mode is constructed. -/
def withMode (op : Op) (s : State) (rest : VideoMode → Result) : Result :=
  match s.mode with
  | some m => rest m
  | none => .next (takeTrap s op.opc ⟨.badState, stw s⟩)

/-- BAD_SHIFT (R135): SH at or above W(s). -/
def checkShift (d : SlotDef) (sh : Fin 32) : Option Trap :=
  require (decide (sh.val < d.width.bits)) .badShift (BitVec.ofNat 32 sh.val)

/-- BAD_VALUE (R135): `(A >> W(s)) != 0`. -/
def checkValue (d : SlotDef) (v : Word) : Option Trap := require (v >>> d.width.bits == 0) .badValue v

/-- A must-be-zero part of an operand word (R93): BAD_VALUE with the whole word. -/
def checkZero (zero : Bool) (word : Word) : Option Trap := require zero .badValue word

/-- `CoordCheck(x, y)` (R166). -/
def checkCoord (m : VideoMode) (x y : Half) : Option Trap :=
  require (decide (x.toNat < wd m) && decide (y.toNat < ht m)) .coordOob (coordWord x y)

/-- The palette index check (R174). -/
def checkPalette (i : Word) : Option Trap := require (decide (i.toNat < 256)) .paletteOob i

/-- The bounds check of RegionRead and RegionWrite (R121 to R123). -/
def checkRegion (g : Region) (i : Nat) : Option Trap :=
  require (decide (i < g.len)) .regionOob (BitVec.ofNat 32 i)

/-- `ConstructChecks(m)` (R162): the first misaligned Region, in the order of R160. -/
def checkRegions (gs : List Region) : Option Trap :=
  match gs with
  | [] => none
  | g :: rest =>
    (require (regionAligned g) .misalignedRegion (BitVec.ofNat 32 g.base)).or (checkRegions rest)

/-! ### Region access behind the check (R122, R123) -/

/-- The value `RegionRead(g, i)` returns. -/
def regionValue (s : State) (g : Region) (i : Nat) : Half := lowHalf (busValue s .w16 (elementAddr g i))

/-- `RegionRead(g, i)` as a change of state: one load of 2 bytes. -/
def regionRead (s : State) (g : Region) (i : Nat) : State := memRead s .w16 (elementAddr g i)

/-- `RegionWrite(g, i, v)`: one store of 2 bytes. -/
def regionWrite (s : State) (g : Region) (i : Nat) (v : Half) : State := memWrite s .w16 (elementAddr g i) (zext v)

end Sys2Proof.Machine
end

