-- ==== Sys2Proof/Machine/Sequencer.lean ====
section
/-! DEFINITION. Pixel access (spec/42_video_mode.md R167), the swap body (R171), and the steps of the three commands that
hold the sequencer: one SetPixel, or one poll load, a step (R172, R177, R178, spec/10_state.md R28). -/

namespace Sys2Proof.Machine

/-- The Region index of the cell of pixel (x, y) in the draw buffer. -/
def pixelCell (m : VideoMode) (x y : Nat) : Nat := cellIndex m (pixelIndex m x y)

/-- The draw buffer of mode m in state s (R160). -/
def drawBuffer (s : State) (m : VideoMode) : Region := drawRegion s.cfg m s.active

/-- The REGION_OOB check of a pixel access, the second line of defence of R121. -/
def checkPixel (s : State) (m : VideoMode) (x y : Nat) : Option Trap := checkRegion (drawBuffer s m) (pixelCell m x y)

/-- `SetPixel(x, y, c)` (R167): Mode3 and Mode5 store the cell; Mode4 loads the cell, replaces one byte and stores it. -/
def setPixel (s : State) (m : VideoMode) (x y : Nat) (c : Half) : State :=
  let g := drawBuffer s m
  let k := pixelCell m x y
  match m with
  | .m3 => regionWrite s g k c
  | .m4 => regionWrite (regionRead s g k) g k (replacePixel (pixelIndex .m4 x y) (regionValue s g k) c)
  | .m5 => regionWrite s g k c

/-- The value `GetPixel(x, y)` returns (R167); the access itself is `regionRead` of the cell. -/
def getPixel (s : State) (m : VideoMode) (x y : Nat) : Half :=
  let v := regionValue s (drawBuffer s m) (pixelCell m x y)
  match m with
  | .m3 => v
  | .m4 => pixelOfCell (pixelIndex .m4 x y) v
  | .m5 => v

/-- The word the swap stores (R171): the display-control word as loaded, its buffer-select bit set to 1 - ACTIVE. -/
def swapWord (s : State) : Word :=
  setb .w16 (busValue s .w16 (s.cfg.addr 0)) s.cfg.bufselBit (activeBit (otherBuffer s.active))

/-- `SwapBody()` (R171): load the display-control word, hold it with the bit set, store it, and invert ACTIVE in the same
transition. -/
def swapBody (s : State) : State :=
  let t := memWrite (setHeld (memRead s .w16 (s.cfg.addr 0)) 0 (swapWord s)) .w16 (s.cfg.addr 0) (swapWord s)
  { t with active := otherBuffer s.active }

/-- The commit of enable (R164, R201): the control word into HELD[0], one store, EN = 1. -/
def enableBody (s : State) (m : VideoMode) : State :=
  let w := controlWord s.cfg m s.active
  { memWrite (setHeld s 0 w) .w16 (s.cfg.addr 0) w with en := true }

/-- The state change of construction (R163, R201). -/
def constructBody (s : State) (m : VideoMode) : State := { s with mode := some m, en := false, active := .a }

/-- One iteration of `PollBody()` (R177): one load of the display-status word into HELD[1]. -/
def pollLoad (s : State) : State :=
  setHeld (memRead s .w16 (s.cfg.addr 1)) 1 (busValue s .w16 (s.cfg.addr 1))

/-- Whether the poll load of state s sees the vertical-blank bit as 1. -/
def pollSeesVblank (s : State) : Bool := vblankSet s.cfg (busValue s .w16 (s.cfg.addr 1))

/-- The end of a multi-step command: SEQ = IDLE and the OK response with R = 0. -/
def finish (s : State) : State := respond { s with seq := .idle } 0

/-- One step of VM.VSYNC (R177): it completes the command, or leaves SEQ = POLL. -/
def vsyncStep (s : State) : State :=
  if pollSeesVblank s then finish (pollLoad s) else pollLoad s

/-- One step of VM.SWAPV (R178): one poll; on the bit, the swap body (but in Mode3) and the end of the command. -/
def swapvStep (s : State) : State :=
  if pollSeesVblank s then
    finish (if s.mode = some .m3 then pollLoad s else swapBody (pollLoad s))
  else pollLoad s

/-- (CX, CY) after a pixel of VM.CLEAR, x inner and y outer, or the end of the command after the last one (R172). -/
def clearAdvance (s : State) (m : VideoMode) : State :=
  if s.cx.toNat + 1 < wd m then { s with cx := s.cx + 1 }
  else if s.cy.toNat + 1 < ht m then { s with cx := 0, cy := s.cy + 1 }
  else finish s

/-- One step of VM.CLEAR (R172): SetPixel(CX, CY, 0), then advance. -/
def clearStep (s : State) (m : VideoMode) : State :=
  match checkPixel s m s.cx.toNat s.cy.toNat with
  | some t => takeTrap s Op.vmClear.opc t
  | none => clearAdvance (setPixel s m s.cx.toNat s.cy.toNat 0) m

/-- A step of the command in flight; with none in flight nothing happens (R28). -/
def advance (s : State) : Result :=
  match s.seq with
  | .idle => .next s
  | .clearing =>
    match s.mode with
    | some m => .next (clearStep s m)
    | none => .fault .clearWithoutMode
  | .poll => .next (vsyncStep s)
  | .pollSwap => .next (swapvStep s)

end Sys2Proof.Machine
end

