-- ==== Sys2Proof/Machine/Graphics.lean ====
section
/-! DEFINITION. The GFX and COL families (spec/43_colour_graphics.md R201, R203). -/

namespace Sys2Proof.Machine

/-- GFX.SWITCH m (R201): construct, then enable, with the construction checks first. -/
def execGfxSwitch (m : VideoMode) (s : State) : Result :=
  guarded .gfxSwitch (checkRegions (regionsOf s.cfg m)) (respond (enableBody (constructBody s m) m) 0) s

/-- COL.RGB r, g, b (R203). -/
def execColRgb (r g b hi : Byte) (s : State) : Result :=
  guarded .colRgb (checkZero (hi == 0) (channelsWord r g b hi)) (respond s (packRgb r g b)) s

end Sys2Proof.Machine
end

