-- ==== Sys2Proof/Machine/Register.lean ====
section
/-! DEFINITION. The REG family (spec/41_register.md R136 to R146). Every meaning begins with the checks of R135. -/

namespace Sys2Proof.Machine

/-- REG.READ s (R136): one load of the hardware word into the held word; the word is the result. -/
def execRegRead (slot : Fin 16) (s : State) : Result :=
  withSlot .regRead slot s fun d =>
    let v := busValue s d.width d.addr
    .next (respond (setHeld (memRead s d.width d.addr) slot v) v)

/-- REG.WRITE s (R137): one store of the held word. -/
def execRegWrite (slot : Fin 16) (s : State) : Result :=
  withSlot .regWrite slot s fun d =>
    .next (respond (memWrite s d.width d.addr (heldAt s slot)) 0)

/-- REG.ZERO s (R138). -/
def execRegZero (slot : Fin 16) (s : State) : Result :=
  withSlot .regZero slot s fun _ => .next (respond (setHeld s slot 0) 0)

/-- REG.SET s, v (R139). -/
def execRegSet (slot : Fin 16) (v : Word) (s : State) : Result :=
  withSlot .regSet slot s fun d =>
    guarded .regSet (checkValue d v) (respond (setHeld s slot (trunc d.width v)) 0) s

/-- REG.AND s, m (R140). -/
def execRegAnd (slot : Fin 16) (m : Word) (s : State) : Result :=
  withSlot .regAnd slot s fun d =>
    guarded .regAnd (checkValue d m) (respond (setHeld s slot (trunc d.width (heldAt s slot &&& m))) 0) s

/-- REG.OR s, m (R141). -/
def execRegOr (slot : Fin 16) (m : Word) (s : State) : Result :=
  withSlot .regOr slot s fun d =>
    guarded .regOr (checkValue d m) (respond (setHeld s slot (trunc d.width (heldAt s slot ||| m))) 0) s

/-- REG.CLEAR s, m (R142): `x[s] & ~A`. -/
def execRegClear (slot : Fin 16) (m : Word) (s : State) : Result :=
  withSlot .regClear slot s fun d =>
    guarded .regClear (checkValue d m) (respond (setHeld s slot (trunc d.width (heldAt s slot &&& ~~~m))) 0) s

/-- REG.GETB s, i (R143): a bit of the held word, not of memory. -/
def execRegGetb (slot : Fin 16) (i : Fin 32) (s : State) : Result :=
  withSlot .regGetb slot s fun d =>
    guarded .regGetb (checkShift d i) (respond s (getb (heldAt s slot) i.val)) s

/-- REG.SETB s, i, b (R144). -/
def execRegSetb (slot : Fin 16) (i : Fin 32) (bit : Bool) (s : State) : Result :=
  withSlot .regSetb slot s fun d =>
    guarded .regSetb (checkShift d i)
      (respond (setHeld s slot (trunc d.width (setb d.width (heldAt s slot) i.val bit))) 0) s

/-- REG.GETM s, sh, m (R145): shift first, mask second. -/
def execRegGetm (slot : Fin 16) (sh : Fin 32) (m : Word) (s : State) : Result :=
  withSlot .regGetm slot s fun d =>
    guarded .regGetm ((checkShift d sh).or (checkValue d m)) (respond s (getm (heldAt s slot) sh.val m)) s

/-- REG.SETM s, sh, m, v (R146): BAD_VALUE for m, then for v. -/
def execRegSetm (slot : Fin 16) (sh : Fin 32) (m v : Word) (s : State) : Result :=
  withSlot .regSetm slot s fun d =>
    guarded .regSetm ((checkShift d sh).or ((checkValue d m).or (checkValue d v)))
      (respond (setHeld s slot (trunc d.width (setm d.width (heldAt s slot) sh.val m v))) 0) s

end Sys2Proof.Machine
end

