-- ==== Sys2Proof/Machine/VideoModes.lean ====
section
/-! DEFINITION. The VM family (spec/42_video_mode.md R163 to R178). -/

namespace Sys2Proof.Machine

/-- VM.CONSTRUCT m (R163). -/
def execVmConstruct (m : VideoMode) (s : State) : Result :=
  guarded .vmConstruct (checkRegions (regionsOf s.cfg m)) (respond (constructBody s m) 0) s

/-- VM.ENABLE (R164). -/
def execVmEnable (s : State) : Result :=
  withMode .vmEnable s fun m =>
    guarded .vmEnable (require (!s.en) .badState (stw s)) (respond (enableBody s m) 0) s

/-- VM.SET x, y, c (R168). -/
def execVmSet (x y c hi : Half) (s : State) : Result :=
  withMode .vmSet s fun m =>
    guarded .vmSet
      ((checkZero (hi == 0) (colourWord c hi)).or
        ((require (decide (m ≠ .m4) || decide (c.toNat ≤ 0xFF)) .badValue (colourWord c hi)).or
          ((checkCoord m x y).or (checkPixel s m x.toNat y.toNat))))
      (respond (setPixel s m x.toNat y.toNat c) 0) s

/-- VM.GET x, y (R169). -/
def execVmGet (x y : Half) (s : State) : Result :=
  withMode .vmGet s fun m =>
    guarded .vmGet ((checkCoord m x y).or (checkPixel s m x.toNat y.toNat))
      (respond (regionRead s (drawBuffer s m) (pixelCell m x.toNat y.toNat)) (zext (getPixel s m x.toNat y.toNat))) s

/-- VM.SWAP (R171): in Mode3 a defined no-op, Disabled or Enabled. -/
def execVmSwap (s : State) : Result :=
  withMode .vmSwap s fun m =>
    if m = .m3 then .next (respond s 0)
    else guarded .vmSwap (require s.en .badState (stw s)) (respond (swapBody s) 0) s

/-- VM.CLEAR (R172): accepted with its first pixel; the rest is `advance` (log 6). -/
def execVmClear (s : State) : Result :=
  withMode .vmClear s fun m => .next (clearStep { s with seq := .clearing, cx := 0, cy := 0 } m)

/-- VM.BOUNDS (R173). -/
def execVmBounds (s : State) : Result :=
  withMode .vmBounds s fun m => .next (respond s (packBounds m))

/-- VM.SETPAL i, c (R175). -/
def execVmSetpal (i : Word) (c hi : Half) (s : State) : Result :=
  withMode .vmSetpal s fun m =>
    guarded .vmSetpal
      ((require (decide (m = .m4)) .notPaletteMode (stw s)).or
        ((checkZero (hi == 0) (colourWord c hi)).or
          ((checkPalette i).or (checkRegion (rgnPal s.cfg) i.toNat))))
      (respond (regionWrite s (rgnPal s.cfg) i.toNat c) 0) s

/-- VM.GETPAL i (R176). -/
def execVmGetpal (i : Word) (s : State) : Result :=
  withMode .vmGetpal s fun m =>
    guarded .vmGetpal
      ((require (decide (m = .m4)) .notPaletteMode (stw s)).or
        ((checkPalette i).or (checkRegion (rgnPal s.cfg) i.toNat)))
      (respond (regionRead s (rgnPal s.cfg) i.toNat) (zext (regionValue s (rgnPal s.cfg) i.toNat))) s

/-- VM.VSYNC (R177): accepted with its first poll; allowed in every state (log 6). -/
def execVmVsync (s : State) : Result := .next (vsyncStep { s with seq := .poll })

/-- VM.SWAPV (R178): accepted with its first poll; BAD_STATE is checked before it (log 6). -/
def execVmSwapv (s : State) : Result :=
  withMode .vmSwapv s fun m =>
    guarded .vmSwapv (require (decide (m = .m3) || s.en) .badState (stw s))
      (swapvStep { s with seq := .pollSwap }) s

end Sys2Proof.Machine
end

