-- ==== Sys2Proof/Machine/Dispatch.lean ====
section
/-! DEFINITION. The meaning of each instruction: an accepted and decoded command on a VMC that is not halted
(spec/60_exceptions.md R212 decides that before decoding; Machine/Port.lean). -/

namespace Sys2Proof.Machine

def exec (i : Instr) (s : State) : Host.Outcome State Fault Refusal :=
  match i with
  | .regRead slot => Sys2Proof.Machine.execRegRead slot s
  | .regWrite slot => Sys2Proof.Machine.execRegWrite slot s
  | .regZero slot => Sys2Proof.Machine.execRegZero slot s
  | .regSet slot v => Sys2Proof.Machine.execRegSet slot v s
  | .regAnd slot m => Sys2Proof.Machine.execRegAnd slot m s
  | .regOr slot m => Sys2Proof.Machine.execRegOr slot m s
  | .regClear slot m => Sys2Proof.Machine.execRegClear slot m s
  | .regGetb slot j => Sys2Proof.Machine.execRegGetb slot j s
  | .regSetb slot j bit => Sys2Proof.Machine.execRegSetb slot j bit s
  | .regGetm slot sh m => Sys2Proof.Machine.execRegGetm slot sh m s
  | .regSetm slot sh m v => Sys2Proof.Machine.execRegSetm slot sh m v s
  | .vmConstruct m => Sys2Proof.Machine.execVmConstruct m s
  | .vmEnable => Sys2Proof.Machine.execVmEnable s
  | .vmSet x y c hi => Sys2Proof.Machine.execVmSet x y c hi s
  | .vmGet x y => Sys2Proof.Machine.execVmGet x y s
  | .vmSwap => Sys2Proof.Machine.execVmSwap s
  | .vmClear => Sys2Proof.Machine.execVmClear s
  | .vmBounds => Sys2Proof.Machine.execVmBounds s
  | .vmSetpal k c hi => Sys2Proof.Machine.execVmSetpal k c hi s
  | .vmGetpal k => Sys2Proof.Machine.execVmGetpal k s
  | .vmVsync => Sys2Proof.Machine.execVmVsync s
  | .vmSwapv => Sys2Proof.Machine.execVmSwapv s
  | .gfxSwitch m => Sys2Proof.Machine.execGfxSwitch m s
  | .colRgb r g b hi => Sys2Proof.Machine.execColRgb r g b hi s

end Sys2Proof.Machine
end

