-- ==== Sys2Proof/WellFormed.lean ====
section
/-! DEFINITION. Well-formed configurations, condition by condition (spec/00_scope.md R6), and instructions whose
must-be-zero operand fields are zero (spec/30_encoding.md R93). -/

namespace Sys2Proof

/-- Size of Video RAM in bytes, 96 KiB (R5, R37). -/
def vramBytes : Nat := 98304

/-- Size of Palette RAM in bytes, 1 KiB (R5, R37). -/
def palBytes : Nat := 1024

/-- Size of the address space (R37): 32-bit byte addresses. -/
def addressSpace : Nat := 4294967296

/-- The bits of the mode-selection field, `MODE_MASK << MODE_SHIFT`, before any truncation. -/
def Cfg.modeField (cfg : Cfg) : Nat := cfg.modeMask.toNat * 2 ^ cfg.modeShift

/-- [lo, lo + n) and [lo', lo' + n') share no address. -/
def disjointRanges (lo n lo' n' : Nat) : Bool := decide (lo + n ≤ lo') || decide (lo' + n' ≤ lo)

/-- R6 (a). -/
def Cfg.wfCount (cfg : Cfg) : Bool := decide (2 ≤ cfg.nreg) && decide (cfg.nreg ≤ 16)

/-- R6 (b). Every width is 16 or 32 by the type `Width`. -/
def Cfg.wfWidths (cfg : Cfg) : Bool :=
  decide ((cfg.slotDef 0).width = .w16) && decide ((cfg.slotDef 1).width = .w16)

/-- R6 (c). -/
def Cfg.wfSlotAlign (cfg : Cfg) : Bool := cfg.regtab.all fun d => decide (d.addr % d.width.bytes = 0)

/-- R6 (d). -/
def Cfg.wfBits (cfg : Cfg) : Bool :=
  decide (cfg.modeShift < 16) && decide (cfg.bufselBit < 16) && decide (cfg.bg2Bit < 16)
    && decide (cfg.blankBit < 16) && decide (cfg.vblankBit < 16)

/-- R6 (e). -/
def Cfg.wfModeCodes (cfg : Cfg) : Bool :=
  decide (cfg.modeField < 65536)
    && (cfg.code3 &&& cfg.modeMask == cfg.code3) && (cfg.code4 &&& cfg.modeMask == cfg.code4)
    && (cfg.code5 &&& cfg.modeMask == cfg.code5)
    && (cfg.code3 != cfg.code4) && (cfg.code3 != cfg.code5) && (cfg.code4 != cfg.code5)

/-- R6 (f). -/
def Cfg.wfControlBits (cfg : Cfg) : Bool :=
  decide (cfg.bufselBit ≠ cfg.bg2Bit) && !cfg.modeField.testBit cfg.bufselBit && !cfg.modeField.testBit cfg.bg2Bit

/-- R6 (g). -/
def Cfg.wfFrameB (cfg : Cfg) : Bool :=
  decide (40960 ≤ cfg.frameBOffset) && decide (cfg.frameBOffset + 40960 ≤ vramBytes)

/-- R6 (h). -/
def Cfg.wfAddressSpace (cfg : Cfg) : Bool :=
  decide (cfg.vramBase + vramBytes ≤ addressSpace) && decide (cfg.palBase + palBytes ≤ addressSpace)
    && cfg.regtab.all fun d => decide (d.addr + d.width.bytes ≤ addressSpace)

/-- R6 (i). Two slots may overlap each other: R68 reads (i) as allowing a 32-bit slot over a 16-bit one (log 9). -/
def Cfg.wfDisjoint (cfg : Cfg) : Bool :=
  disjointRanges cfg.vramBase vramBytes cfg.palBase palBytes
    && cfg.regtab.all fun d =>
      disjointRanges cfg.vramBase vramBytes d.addr d.width.bytes
        && disjointRanges cfg.palBase palBytes d.addr d.width.bytes

/-- R6: a configuration is well-formed when all of (a) to (i) hold. -/
def Cfg.wf (cfg : Cfg) : Bool :=
  cfg.wfCount && cfg.wfWidths && cfg.wfSlotAlign && cfg.wfBits && cfg.wfModeCodes && cfg.wfControlBits
    && cfg.wfFrameB && cfg.wfAddressSpace && cfg.wfDisjoint

/-- R93: the must-be-zero operand fields of the instruction are zero. An instruction that fails this still decodes,
and traps BAD_VALUE when it runs. -/
def Instr.wf : Instr → Bool
  | .vmSet _ _ _ hi => hi == 0
  | .vmSetpal _ _ hi => hi == 0
  | .colRgb _ _ _ hi => hi == 0
  | .regRead _ | .regWrite _ | .regZero _ | .regSet _ _ | .regAnd _ _ | .regOr _ _ | .regClear _ _ => true
  | .regGetb _ _ | .regSetb _ _ _ | .regGetm _ _ _ | .regSetm _ _ _ _ => true
  | .vmConstruct _ | .vmEnable | .vmGet _ _ | .vmSwap | .vmClear | .vmBounds | .vmGetpal _ => true
  | .vmVsync | .vmSwapv | .gfxSwitch _ => true

end Sys2Proof
end

