-- ==== Sys2Proof/Machine/Port.lean ====
section
/-! DEFINITION. The command port: acceptance, the halted answer, illegal commands, reset (spec/30_encoding.md R90, R97,
spec/60_exceptions.md R212, R216, spec/70_reset_and_hazards.md R240, R241). -/

namespace Sys2Proof.Machine

/-- An accepted command, in the order of R212: halted first (no check at all), then ILLEGAL_COMMAND from H alone, then the
instruction's own checks and effect. -/
def accept (c : Command) (s : State) : Result :=
  if s.halt then .next (respondHalted s)
  else
    match decode c with
    | .ok i => exec i s
    | .error _ => .next (takeTrap s (opcField c.h) ⟨.illegalCommand, c.h⟩)

/-- A bus event issued again: its load or its store (R64, R65). -/
def reissue (s : State) : BusEvent → State
  | .load a size _ => memRead s size a
  | .store a size v => memWrite s size a v

/-- What a reset leaves that lands inside the step from `s` to `t` after the step's first `k` accesses: those accesses and
nothing else of the step, no response, every piece of VMC state reset (R241). A step with no more than `k` accesses is whole,
and reset follows it (log 8). -/
def cutByReset (k : Nat) (s t : State) : State :=
  let issued := t.events.drop s.events.length
  if k < issued.length then
    { (issued.take k).foldl reissue s with port := t.port }.resetVmc
  else t.resetVmc

/-- The outcome of a step with a reset inside it. -/
def resetDuring (k : Nat) (s : State) : Result → Result
  | .next t => .next (cutByReset k s t)
  | .fault f => .fault f
  | .refused r => .refused r

/-- A step, by the list of what the host does (R90, R240, log 5): with nothing done, the step of the command in flight. A
command is accepted only when SEQ = IDLE (R90); while one is in flight it waits in the list. Reset takes effect at once, in
flight or not (R241). -/
def takeInput : List HostInput → State → Result
  | [], s => advance s
  | .idle :: rest, s => advance { s with port := rest }
  | .reset :: rest, s => .next ({ s with port := rest } : State).resetVmc
  | .command c :: rest, s => if s.seq = .idle then accept c { s with port := rest } else advance s
  | .resetInside k :: rest, s => resetDuring k s (takeInput rest { s with port := rest })

/-- A step by the port's own list. -/
def portStep (s : State) : Result := takeInput s.port s

/-- R6: a configuration that is not well-formed is given no meaning. -/
def configuredStep (s : State) : Result :=
  if s.cfg.wf then portStep s else .refused .illFormedConfiguration

/-- The command presented next, on a VMC with no command in flight: what a fetch is here (R27, R90). -/
def present (s : State) (c : Command) : State := { s with seq := .idle, port := .command c :: s.port }

end Sys2Proof.Machine
end

