-- ==== Sys2Proof/Machine/Step.lean ====
section
/-! DEFINITION. One step of the machine, and a command placed where the next step takes it. -/

namespace Sys2Proof.Machine

/-- One step. -/
def step (s : State) : Host.Outcome State Fault Refusal := configuredStep s

/-- `s` with the command whose bits, numbered as spec/opcode_table.json numbers them, are the low `nbits` bits of `w`,
presented at the command port for the very next step (R27, R90; log 5). -/
def State.withFetchWord (s : State) (nbits w : Nat) : State := present s (commandOfTableWord nbits w)

end Sys2Proof.Machine
end

