-- ==== Sys2Proof/Machine/Assembler.lean ====
section
/-! DEFINITION. The assembly notation (spec/30_encoding.md R99) and the pseudo-instructions (R100). Lines are lists of
characters, so that the kernel can evaluate the reader (log 15). -/

namespace Sys2Proof.Machine

/-- The pseudo-instructions of R100. -/
inductive Pseudo where
  | dcMode (c : Word)
  | dcBg2 (bit : Bool)
  | dcFrame (bit : Bool)
  | dcBlank (bit : Bool)
  | dsVblank
  | regGet (slot : Fin 16)
deriving DecidableEq, Repr

/-- Each pseudo-instruction expands to exactly one command, using configuration fields (R100). The mask of `REG.GET s` is
`2^W(s) - 1`; for a slot at or above NREG, which has no W, it is the 16-bit one (DESIGN CHOICE, log 17), and the command
traps BAD_SLOT whatever its mask is. -/
def expand (cfg : Cfg) : Pseudo → Instr
  | .dcMode c => .regSetm 0 (Fin.ofNat 32 cfg.modeShift) (zext cfg.modeMask) c
  | .dcBg2 bit => .regSetb 0 (Fin.ofNat 32 cfg.bg2Bit) bit
  | .dcFrame bit => .regSetb 0 (Fin.ofNat 32 cfg.bufselBit) bit
  | .dcBlank bit => .regSetb 0 (Fin.ofNat 32 cfg.blankBit) bit
  | .dsVblank => .regGetb 1 (Fin.ofNat 32 cfg.vblankBit)
  | .regGet slot => .regGetm slot 0 (ones (cfg.slotDef slot.val).width)

/-! ### Reading a line -/

/-- The value of a digit, upper or lower case. -/
def digitValue (ch : Char) : Option Nat :=
  let n := ch.toNat
  if 48 ≤ n ∧ n ≤ 57 then some (n - 48)
  else if 65 ≤ n ∧ n ≤ 70 then some (n - 55)
  else if 97 ≤ n ∧ n ≤ 102 then some (n - 87)
  else none

/-- Digits in a base, most significant first, after the value `acc`. -/
def readDigits (base acc : Nat) : List Char → Option Nat
  | [] => some acc
  | ch :: rest =>
    match digitValue ch with
    | some d => if d < base then readDigits base (acc * base + d) rest else none
    | none => none

/-- An unsigned number, decimal or `0x` hexadecimal (R99). -/
def readNumber : List Char → Option Nat
  | [] => none
  | '0' :: 'x' :: [] => none
  | '0' :: 'x' :: ds => readDigits 16 0 ds
  | ds => readDigits 10 0 ds

/-- The line without its comment: a `;` starts a comment to end of line (R99). -/
def dropComment : List Char → List Char
  | [] => []
  | ch :: rest => if ch = ';' then [] else ch :: dropComment rest

/-- The tokens of a line: spaces, tabs and commas separate them; `word` is the token being read, reversed. -/
def tokens (word : List Char) : List Char → List (List Char)
  | [] => if word.isEmpty then [] else [word.reverse]
  | ch :: rest =>
    if ch = ' ' || ch = '\t' || ch = ',' then
      if word.isEmpty then tokens [] rest else word.reverse :: tokens [] rest
    else tokens (ch :: word) rest

/-- The mnemonic of a row, as the table has it (R95). -/
def mnemonic : Op → List Char
  | .regRead => ['R', 'E', 'G', '.', 'R', 'E', 'A', 'D']
  | .regWrite => ['R', 'E', 'G', '.', 'W', 'R', 'I', 'T', 'E']
  | .regZero => ['R', 'E', 'G', '.', 'Z', 'E', 'R', 'O']
  | .regSet => ['R', 'E', 'G', '.', 'S', 'E', 'T']
  | .regAnd => ['R', 'E', 'G', '.', 'A', 'N', 'D']
  | .regOr => ['R', 'E', 'G', '.', 'O', 'R']
  | .regClear => ['R', 'E', 'G', '.', 'C', 'L', 'E', 'A', 'R']
  | .regGetb => ['R', 'E', 'G', '.', 'G', 'E', 'T', 'B']
  | .regSetb => ['R', 'E', 'G', '.', 'S', 'E', 'T', 'B']
  | .regGetm => ['R', 'E', 'G', '.', 'G', 'E', 'T', 'M']
  | .regSetm => ['R', 'E', 'G', '.', 'S', 'E', 'T', 'M']
  | .vmConstruct => ['V', 'M', '.', 'C', 'O', 'N', 'S', 'T', 'R', 'U', 'C', 'T']
  | .vmEnable => ['V', 'M', '.', 'E', 'N', 'A', 'B', 'L', 'E']
  | .vmSet => ['V', 'M', '.', 'S', 'E', 'T']
  | .vmGet => ['V', 'M', '.', 'G', 'E', 'T']
  | .vmSwap => ['V', 'M', '.', 'S', 'W', 'A', 'P']
  | .vmClear => ['V', 'M', '.', 'C', 'L', 'E', 'A', 'R']
  | .vmBounds => ['V', 'M', '.', 'B', 'O', 'U', 'N', 'D', 'S']
  | .vmSetpal => ['V', 'M', '.', 'S', 'E', 'T', 'P', 'A', 'L']
  | .vmGetpal => ['V', 'M', '.', 'G', 'E', 'T', 'P', 'A', 'L']
  | .vmVsync => ['V', 'M', '.', 'V', 'S', 'Y', 'N', 'C']
  | .vmSwapv => ['V', 'M', '.', 'S', 'W', 'A', 'P', 'V']
  | .gfxSwitch => ['G', 'F', 'X', '.', 'S', 'W', 'I', 'T', 'C', 'H']
  | .colRgb => ['C', 'O', 'L', '.', 'R', 'G', 'B']

/-- A number as a register-file slot or a shift: out of range is no instruction. -/
def asFin (n : Nat) (size : Nat) : Option (Fin size) := if h : n < size then some ⟨n, h⟩ else none

/-- A number as a w-bit operand: out of range is no instruction. -/
def asBits (w n : Nat) : Option (BitVec w) := if n < 2 ^ w then some (BitVec.ofNat w n) else none

/-- A number as a bit. -/
def asBit (n : Nat) : Option Bool := if n = 0 then some false else if n = 1 then some true else none

/-- The command of a row with operands in the order of the "Mnemonic" column of R95 (R99). A mode number is encoded whenever it
fits ARG[2:0]. DEDUCED (log 15): R99 does not say whether one outside 3, 4 and 5 is encoded or refused; vector G-3 writes
`GFX.SWITCH 7` as 30000007, which the VMC then traps as illegal (R97). -/
def commandOfOperands (o : Op) (ns : List Nat) : Option Command :=
  match o, ns with
  | .regRead, [s] => return encode (.regRead (← asFin s 16))
  | .regWrite, [s] => return encode (.regWrite (← asFin s 16))
  | .regZero, [s] => return encode (.regZero (← asFin s 16))
  | .regSet, [s, v] => return encode (.regSet (← asFin s 16) (← asBits 32 v))
  | .regAnd, [s, m] => return encode (.regAnd (← asFin s 16) (← asBits 32 m))
  | .regOr, [s, m] => return encode (.regOr (← asFin s 16) (← asBits 32 m))
  | .regClear, [s, m] => return encode (.regClear (← asFin s 16) (← asBits 32 m))
  | .regGetb, [s, i] => return encode (.regGetb (← asFin s 16) (← asFin i 32))
  | .regSetb, [s, i, b] => return encode (.regSetb (← asFin s 16) (← asFin i 32) (← asBit b))
  | .regGetm, [s, sh, m] => return encode (.regGetm (← asFin s 16) (← asFin sh 32) (← asBits 32 m))
  | .regSetm, [s, sh, m, v] => return encode (.regSetm (← asFin s 16) (← asFin sh 32) (← asBits 32 m) (← asBits 32 v))
  | .vmConstruct, [m] => return modeCommand .vmConstruct (← asBits 3 m)
  | .vmEnable, [] => some (encode .vmEnable)
  | .vmSet, [x, y, c] => return encode (.vmSet (← asBits 16 x) (← asBits 16 y) (← asBits 16 c) 0)
  | .vmGet, [x, y] => return encode (.vmGet (← asBits 16 x) (← asBits 16 y))
  | .vmSwap, [] => some (encode .vmSwap)
  | .vmClear, [] => some (encode .vmClear)
  | .vmBounds, [] => some (encode .vmBounds)
  | .vmSetpal, [i, c] => return encode (.vmSetpal (← asBits 32 i) (← asBits 16 c) 0)
  | .vmGetpal, [i] => return encode (.vmGetpal (← asBits 32 i))
  | .vmVsync, [] => some (encode .vmVsync)
  | .vmSwapv, [] => some (encode .vmSwapv)
  | .gfxSwitch, [m] => return modeCommand .gfxSwitch (← asBits 3 m)
  | .colRgb, [r, g, b] => return encode (.colRgb (← asBits 8 r) (← asBits 8 g) (← asBits 8 b) 0)
  | _, _ => none

/-- The pseudo-instruction a name and its operands stand for (R100). -/
def pseudoOfOperands (name : List Char) (ns : List Nat) : Option Pseudo :=
  if name = ['D', 'C', '.', 'M', 'O', 'D', 'E'] then
    match ns with | [c] => return .dcMode (← asBits 32 c) | _ => none
  else if name = ['D', 'C', '.', 'B', 'G', '2'] then
    match ns with | [b] => return .dcBg2 (← asBit b) | _ => none
  else if name = ['D', 'C', '.', 'F', 'R', 'A', 'M', 'E'] then
    match ns with | [b] => return .dcFrame (← asBit b) | _ => none
  else if name = ['D', 'C', '.', 'B', 'L', 'A', 'N', 'K'] then
    match ns with | [b] => return .dcBlank (← asBit b) | _ => none
  else if name = ['D', 'S', '.', 'V', 'B', 'L', 'A', 'N', 'K'] then
    match ns with | [] => some .dsVblank | _ => none
  else if name = ['R', 'E', 'G', '.', 'G', 'E', 'T'] then
    match ns with | [s] => return .regGet (← asFin s 16) | _ => none
  else none

/-- The command of one line of assembly (R99, R100): a mnemonic or pseudo-instruction and its operands. -/
def assemble (cfg : Cfg) (line : List Char) : Option Command :=
  match tokens [] (dropComment line) with
  | [] => none
  | name :: operands =>
    match operands.mapM readNumber with
    | none => none
    | some ns =>
      match Op.all.find? (fun o => mnemonic o == name) with
      | some o => commandOfOperands o ns
      | none => (pseudoOfOperands name ns).map fun p => encode (expand cfg p)

/-- A digit of hexadecimal notation, upper case. -/
def hexDigit (n : BitVec 4) : Char := Char.ofNat (if n.toNat < 10 then 48 + n.toNat else 55 + n.toNat)

/-- A word as 8 hexadecimal digits (R99). -/
def hexWord (w : Word) : List Char :=
  [hexDigit (w.extractLsb' 28 4), hexDigit (w.extractLsb' 24 4), hexDigit (w.extractLsb' 20 4),
    hexDigit (w.extractLsb' 16 4)] ++
  [hexDigit (w.extractLsb' 12 4), hexDigit (w.extractLsb' 8 4), hexDigit (w.extractLsb' 4 4),
    hexDigit (w.extractLsb' 0 4)]

/-- A command written `H A B` (R99). -/
def encodingText (c : Command) : List Char := hexWord c.h ++ ' ' :: hexWord c.a ++ ' ' :: hexWord c.b

end Sys2Proof.Machine
end

