-- ==== Sys2Proof/Safety.lean ====
section
/-! DEFINITION. The terms claims are made in: frames, the machine's invariant, the Quiet premise (spec/20_memory.md R73), the
synchronisation invariant (spec/10_state.md R36), the addresses the VMC may issue (R78), good ends of a run (R259). -/

namespace Sys2Proof.Machine

/-! ### What a step leaves unchanged -/

/-- Every held word but that of `slot` is unchanged. -/
def KeepsHeldBut (slot : Fin 16) (s t : State) : Prop := ∀ k, k ≠ slot → heldAt t k = heldAt s k

/-- Every held word is unchanged. -/
def KeepsHeld (s t : State) : Prop := ∀ k, heldAt t k = heldAt s k

/-- MODE, EN and ACTIVE are unchanged. -/
def KeepsVideo (s t : State) : Prop := t.mode = s.mode ∧ t.en = s.en ∧ t.active = s.active

/-- SEQ, CX and CY are unchanged. -/
def KeepsSequencer (s t : State) : Prop := t.seq = s.seq ∧ t.cx = s.cx ∧ t.cy = s.cy

/-- HALT and the fault record are unchanged. -/
def KeepsFault (s t : State) : Prop :=
  t.halt = s.halt ∧ t.fcause = s.fcause ∧ t.finfo = s.finfo ∧ t.fopc = s.fopc

/-- Every byte of memory is unchanged. -/
def KeepsMemory (s t : State) : Prop := ∀ a, t.mem.read a = s.mem.read a

/-- Every byte of memory outside [lo, lo + n) is unchanged. -/
def KeepsMemoryBut (lo n : Nat) (s t : State) : Prop := ∀ a, a < lo ∨ lo + n ≤ a → t.mem.read a = s.mem.read a

/-- The configuration, what the host does next, and the Quiet premise are unchanged. -/
def KeepsOutside (s t : State) : Prop := t.cfg = s.cfg ∧ t.port = s.port ∧ t.quiet = s.quiet

/-- No oracle answer was taken. -/
def KeepsAnswers (s t : State) : Prop := t.answers = s.answers ∧ t.freeIdx = s.freeIdx

/-- Exactly the bus events `es` were issued, in that order (R66). -/
def Issues (s t : State) (es : List BusEvent) : Prop := t.events = s.events ++ es

/-- Exactly one response was produced: OK with result `r` (R96). -/
def RespondsOk (s t : State) (r : Word) : Prop := t.responses = s.responses ++ [⟨.ok, .none, r⟩]

/-- The frame of a staged command: no access, and nothing but the held word of `slot` and the response may differ. -/
def StagedFrame (slot : Fin 16) (s t : State) : Prop :=
  KeepsHeldBut slot s t ∧ KeepsVideo s t ∧ KeepsSequencer s t ∧ KeepsFault s t ∧ KeepsMemory s t ∧ KeepsOutside s t
    ∧ KeepsAnswers s t ∧ Issues s t []

/-- The frame of a command that only answers: nothing but the response may differ. -/
def QueryFrame (s t : State) : Prop :=
  KeepsHeld s t ∧ KeepsVideo s t ∧ KeepsSequencer s t ∧ KeepsFault s t ∧ KeepsMemory s t ∧ KeepsOutside s t
    ∧ KeepsAnswers s t ∧ Issues s t []

/-- Trap entry (R213) and nothing else: the fault record of cause `c` with info `info` and OPC `opc`, SEQ = IDLE, the TRAP
response; held words, MODE, EN, ACTIVE, memory and the event history are unchanged. -/
def Traps (opc : Byte) (c : Cause) (info : Word) (s t : State) : Prop :=
  t.halt = true ∧ t.fcause = c ∧ t.finfo = info ∧ t.fopc = opc ∧ t.seq = .idle
    ∧ t.responses = s.responses ++ [⟨.trap, c, info⟩]
    ∧ KeepsHeld s t ∧ KeepsVideo s t ∧ t.cx = s.cx ∧ t.cy = s.cy ∧ KeepsMemory s t ∧ KeepsOutside s t
    ∧ KeepsAnswers s t ∧ Issues s t []

/-! ### Slots and pixels, as claims name them -/

/-- Slot `slot` exists and is `d` (R21). -/
def HasSlot (s : State) (slot : Fin 16) (d : SlotDef) : Prop := s.cfg.regtab[slot.val]? = some d

/-- A value fits a slot's width: its bits at and above W are 0 (R22, R135). -/
def Fits (d : SlotDef) (v : Word) : Prop := v.toNat < 2 ^ d.width.bits

/-- (x, y) lies inside the bounds of mode m (R166). -/
def InBounds (m : VideoMode) (x y : Half) : Prop := x.toNat < wd m ∧ y.toNat < ht m

/-- The base of buffer A or B of a double-buffered mode (R38): `VRAM_BASE`, or `VRAM_BASE + FRAME_B_OFFSET`. -/
def bufferBase (cfg : Cfg) : Buffer → Nat
  | .a => cfg.vramBase
  | .b => cfg.vramBase + cfg.frameBOffset

/-- The base of the buffer VM.SET, VM.GET and VM.CLEAR target: in Mode3 its one buffer, else the one not presented
(R160). -/
def drawBase (s : State) (m : VideoMode) : Nat :=
  match m with
  | .m3 => s.cfg.vramBase
  | .m4 => bufferBase s.cfg (otherBuffer s.active)
  | .m5 => bufferBase s.cfg (otherBuffer s.active)

/-- The address of the cell of pixel (x, y): `base + 2*p`, and in Mode4 `base + 2*(p >> 1)` (R167). -/
def cellAddr (s : State) (m : VideoMode) (x y : Nat) : Nat :=
  match m with
  | .m3 => drawBase s .m3 + 2 * (x + y * 240)
  | .m4 => drawBase s .m4 + 2 * ((x + y * 240) / 2)
  | .m5 => drawBase s .m5 + 2 * (x + y * 160)

/-- The bytes a mode's draw buffer takes (R38). -/
def frameBytes : VideoMode → Nat
  | .m3 => 76800
  | .m4 => 38400
  | .m5 => 40960

/-- Every Region base of mode m is even (R124, R162). -/
def RegionsAligned (cfg : Cfg) (m : VideoMode) : Prop := ∀ g ∈ regionsOf cfg m, g.base % 2 = 0

/-- The slot a REG command names (R92). -/
def regSlot : Instr → Option (Fin 16)
  | .regRead s | .regWrite s | .regZero s => some s
  | .regSet s _ | .regAnd s _ | .regOr s _ | .regClear s _ => some s
  | .regGetb s _ | .regSetb s _ _ | .regGetm s _ _ | .regSetm s _ _ _ => some s
  | .vmConstruct _ | .vmEnable | .vmSet _ _ _ _ | .vmGet _ _ | .vmSwap | .vmClear | .vmBounds => none
  | .vmSetpal _ _ _ | .vmGetpal _ | .vmVsync | .vmSwapv | .gfxSwitch _ | .colRgb _ _ _ _ => none

/-- SH of the commands that use it (R92). -/
def regShift : Instr → Option (Fin 32)
  | .regGetb _ i | .regSetb _ i _ => some i
  | .regGetm _ sh _ | .regSetm _ sh _ _ => some sh
  | .regRead _ | .regWrite _ | .regZero _ | .regSet _ _ | .regAnd _ _ | .regOr _ _ | .regClear _ _ => none
  | .vmConstruct _ | .vmEnable | .vmSet _ _ _ _ | .vmGet _ _ | .vmSwap | .vmClear | .vmBounds => none
  | .vmSetpal _ _ _ | .vmGetpal _ | .vmVsync | .vmSwapv | .gfxSwitch _ | .colRgb _ _ _ _ => none

/-- Operand words of a REG command that R135 checks against the slot's width: A, then B. -/
def regOperands : Instr → List Word
  | .regSet _ a | .regAnd _ a | .regOr _ a | .regClear _ a | .regGetm _ _ a => [a]
  | .regSetm _ _ a b => [a, b]
  | .regRead _ | .regWrite _ | .regZero _ | .regGetb _ _ | .regSetb _ _ _ => []
  | .vmConstruct _ | .vmEnable | .vmSet _ _ _ _ | .vmGet _ _ | .vmSwap | .vmClear | .vmBounds => []
  | .vmSetpal _ _ _ | .vmGetpal _ | .vmVsync | .vmSwapv | .gfxSwitch _ | .colRgb _ _ _ _ => []

/-- The commands that need a constructed mode: every VM command but VM.CONSTRUCT and VM.VSYNC (R161). -/
def needsMode : Instr → Bool
  | .vmEnable | .vmSet _ _ _ _ | .vmGet _ _ | .vmSwap | .vmClear | .vmBounds => true
  | .vmSetpal _ _ _ | .vmGetpal _ | .vmSwapv => true
  | .regRead _ | .regWrite _ | .regZero _ | .regSet _ _ | .regAnd _ _ | .regOr _ _ | .regClear _ _ => false
  | .regGetb _ _ | .regSetb _ _ _ | .regGetm _ _ _ | .regSetm _ _ _ _ => false
  | .vmConstruct _ | .vmVsync | .gfxSwitch _ | .colRgb _ _ _ _ => false

/-- The OPC field of an instruction's header (R92). -/
def opcOf (i : Instr) : Byte := opcField (encode i).h

/-- The checks of R135 on a REG command, in order: slot, shift, operand A, operand B; the first failing one traps, with SLOT,
SH or the operand word as info, and nothing else happens. -/
def RegChecksTrap (s : State) (i : Instr) (slot : Fin 16) : Prop :=
  (s.cfg.nreg ≤ slot.val →
    ∃ t, exec i s = .next t ∧ Traps (opcOf i) .badSlot (BitVec.ofNat 32 slot.val) s t)
  ∧ (∀ d sh, HasSlot s slot d → regShift i = some sh → d.width.bits ≤ sh.val →
    ∃ t, exec i s = .next t ∧ Traps (opcOf i) .badShift (BitVec.ofNat 32 sh.val) s t)
  ∧ (∀ d ok bad rest, HasSlot s slot d → (∀ sh, regShift i = some sh → sh.val < d.width.bits) →
    regOperands i = ok ++ bad :: rest → (∀ v ∈ ok, Fits d v) → ¬ Fits d bad →
    ∃ t, exec i s = .next t ∧ Traps (opcOf i) .badValue bad s t)

/-- The construction checks of R162 on a command: with an odd Region base it traps, on the first odd one in the order of
R160. -/
def ConstructChecksTrap (s : State) (i : Instr) (m : VideoMode) : Prop :=
  ∀ before g after, regionsOf s.cfg m = before ++ g :: after → (∀ g' ∈ before, g'.base % 2 = 0) → g.base % 2 = 1 →
    ∃ t, exec i s = .next t ∧ Traps (opcOf i) .misalignedRegion (BitVec.ofNat 32 g.base) s t

/-- STW as a number: 16 times ACTIVE, 8 times EN, and 0, 3, 4 or 5 for the mode (R160). -/
def stateWord (s : State) : Word :=
  BitVec.ofNat 32 ((match s.active with | .a => 0 | .b => 16) + (if s.en then 8 else 0)
    + (match s.mode with | none => 0 | some .m3 => 3 | some .m4 => 4 | some .m5 => 5))

/-- The display-control word enable writes (R164): the mode field holds the mode's code, BG2 is 1, the buffer-select bit
is ACTIVE in Mode4 and Mode5, and every other bit is 0. -/
def IsControlWord (cfg : Cfg) (m : VideoMode) (active : Buffer) (w : Half) : Prop :=
  (w >>> cfg.modeShift) &&& cfg.modeMask = modeCode cfg m
    ∧ w.getLsbD cfg.bg2Bit = true
    ∧ (doubleBuffered m = true → w.getLsbD cfg.bufselBit = activeBit active)
    ∧ ∀ j, w.getLsbD j = true →
        j = cfg.bg2Bit ∨ (doubleBuffered m = true ∧ j = cfg.bufselBit) ∨ cfg.modeField.testBit j = true

/-- The other pixel of a Mode4 cell, (x xor 1, y) (R179). -/
def siblingX (x : Half) : Half := x ^^^ 1

/-! ### The machine's invariant -/

/-- The reachable triples of R161. -/
def legalTriple (mode : Option VideoMode) (en : Bool) (active : Buffer) : Bool :=
  match mode with
  | none => !en && active == .a
  | some .m3 => active == .a
  | some .m4 => en || active == .a
  | some .m5 => en || active == .a

/-- What holds after reset and is kept by every step. -/
structure MachineInv (s : State) : Prop where
  /-- R6 -/
  configured : s.cfg.wf = true
  /-- memory is in canonical form -/
  memory : s.mem.wf = true
  /-- R37: every listed byte lies in the 32-bit address space -/
  inSpace : ∀ c ∈ s.mem, c.1 < addressSpace
  /-- R22: the width invariant -/
  width : ∀ slot d, HasSlot s slot d → Fits d (heldAt s slot)
  /-- R161: a reachable triple -/
  triple : legalTriple s.mode s.en s.active = true
  /-- R162: a constructed mode has aligned Regions -/
  aligned : ∀ m, s.mode = some m → RegionsAligned s.cfg m
  /-- R213, R33: halted means a cause is recorded and nothing is in flight -/
  halted : s.halt = true → s.seq = .idle ∧ s.fcause ≠ .none
  /-- R33, R41: not halted means an empty fault record -/
  running : s.halt = false → s.fcause = .none ∧ s.finfo = 0 ∧ s.fopc = 0
  /-- R20: the ranges of CX and CY -/
  counters : s.cx.toNat < 240 ∧ s.cy.toNat < 160
  /-- R172: a clear in flight has a mode, and a pixel inside it -/
  clearing : s.seq = .clearing → ∃ m, s.mode = some m ∧ s.cx.toNat < wd m ∧ s.cy.toNat < ht m
  /-- R178: a synchronised swap in flight is in Mode3 or Enabled -/
  swapping : s.seq = .pollSwap → ∃ m, s.mode = some m ∧ (m = .m3 ∨ s.en = true)

/-! ### Named premises and properties -/

/-- The Quiet premise of R73: no other agent writes what the VMC uses, and those locations are plain storage. -/
def Quiet (s : State) : Prop := s.quiet = true

/-- The hardware display-control word (R34). -/
def controlInMemory (s : State) : Half := s.mem.read16 (s.cfg.addr 0)

/-- Bit i of a word of width 16 is `b`. -/
def bitIs (w : Half) (i : Nat) (b : Bool) : Prop := w.getLsbD i = b

/-- `InSync` (R36). -/
def InSync (s : State) : Prop :=
  s.en = true ∧ s.halt = false ∧ ∃ m, s.mode = some m
    ∧ ((controlInMemory s >>> s.cfg.modeShift) &&& s.cfg.modeMask = modeCode s.cfg m)
    ∧ bitIs (controlInMemory s) s.cfg.bg2Bit true
    ∧ (doubleBuffered m = true → bitIs (controlInMemory s) s.cfg.bufselBit (activeBit s.active))

/-! ### Runs of a command program (R259) -/

/-- How many commands are in flight: one, unless SEQ = IDLE (R28, R90). -/
def inFlight (s : State) : Nat := if s.seq = .idle then 0 else 1

/-- `t` is reached from `s` by some number of steps while the host presents the commands of `program`, one after the
other. A command already in flight in `s` is none of the program's; it ends before the first of them is accepted (R90). -/
def RunsTo (program : List Command) (s t : State) : Prop :=
  ∃ k, Host.Core.run Sys2Proof.core k { s with port := program.map .command } = .next t

/-- The responses to the program's commands in a run from `s` to `t`, oldest first: those produced since `s`, but for the first
where a command was in flight in `s`, which is that command's. -/
def runResponses (s t : State) : List Response := t.responses.drop (s.responses.length + inFlight s)

/-- The run is over: the response to its last command has been produced, and SEQ = IDLE (R259). A command is accepted only
after its predecessor has responded (R90), so the last one's response is there when there are as many as commands. -/
def RunOver (program : List Command) (s t : State) : Prop :=
  RunsTo program s t ∧ t.seq = .idle ∧ (runResponses s t).length = program.length

/-- The run ended well (R259). -/
def EndedWell (program : List Command) (s t : State) : Prop :=
  RunOver program s t ∧ t.halt = false ∧ ∀ r ∈ runResponses s t, r.status = .ok

/-- The run stopped with HALT = 1: it ended in a trap (R259). A command still waiting would be answered HALTED (R216). -/
def EndedInTrap (program : List Command) (s t : State) : Prop :=
  RunsTo program s t ∧ t.halt = true

/-! ### What one step of a multi-step command, and reset, do -/

/-- What one step of VM.SWAPV does (R178), from `s` to `t` in mode `m`: one poll; with the bit 0 SEQ = POLL_SWAP, with the bit 1
the end of the command, in Mode4 and Mode5 behind the load and the store of the swap with ACTIVE inverted. The word the swap
loads is memory's under Quiet, and the environment's next answer otherwise. -/
def SwapvStep (m : VideoMode) (s t : State) : Prop :=
  ∃ v, v = busValue s .w16 (s.cfg.addr 1) ∧ heldAt t 1 = v
    ∧ t.mode = s.mode ∧ t.en = s.en ∧ t.cx = s.cx ∧ t.cy = s.cy ∧ KeepsFault s t ∧ KeepsOutside s t
    ∧ (∀ k, k ≠ 0 → k ≠ 1 → heldAt t k = heldAt s k)
    ∧ (v.getLsbD s.cfg.vblankBit = false →
        t.seq = .pollSwap ∧ t.responses = s.responses ∧ t.active = s.active ∧ heldAt t 0 = heldAt s 0
          ∧ Issues s t [.load (s.cfg.addr 1) .w16 v] ∧ KeepsMemory s t)
    ∧ (v.getLsbD s.cfg.vblankBit = true → m = .m3 →
        t.seq = .idle ∧ RespondsOk s t 0 ∧ t.active = s.active ∧ heldAt t 0 = heldAt s 0
          ∧ Issues s t [.load (s.cfg.addr 1) .w16 v] ∧ KeepsMemory s t)
    ∧ (v.getLsbD s.cfg.vblankBit = true → m ≠ .m3 →
        t.seq = .idle ∧ RespondsOk s t 0 ∧ t.active ≠ s.active
          ∧ ∃ w w', (∀ j, j < 16 → w'.getLsbD j = if j = s.cfg.bufselBit then activeBit t.active else w.getLsbD j)
              ∧ heldAt t 0 = zext w' ∧ controlInMemory t = w' ∧ KeepsMemoryBut (s.cfg.addr 0) 2 s t
              ∧ Issues s t [.load (s.cfg.addr 1) .w16 v, .load (s.cfg.addr 0) .w16 (zext w),
                  .store (s.cfg.addr 0) .w16 (zext w')]
              ∧ (Quiet s → s.cfg.addr 0 ≠ s.cfg.addr 1 → w = controlInMemory s)
              ∧ ∀ x y rest, s.answers = x :: y :: rest → ¬ Quiet s ∨ s.cfg.addr 0 = s.cfg.addr 1 → w = lowHalf y)

/-- Every piece of VMC state has its reset value (R41). -/
def VmcReset (t : State) : Prop :=
  (∀ k, heldAt t k = 0) ∧ t.mode = none ∧ t.en = false ∧ t.active = .a ∧ t.seq = .idle ∧ t.cx = 0 ∧ t.cy = 0
    ∧ t.halt = false ∧ causeCode t.fcause = 0 ∧ t.finfo = 0 ∧ t.fopc = 0

/-- (MODE, EN, ACTIVE) changes from `s` to `t` as the table of R161 lets instruction `i` change it. -/
def TableTransition (i : Instr) (s t : State) : Prop :=
  (∃ m, i = .vmConstruct m ∧ t.mode = some m ∧ t.en = false ∧ t.active = .a)
  ∨ (∃ m, i = .gfxSwitch m ∧ t.mode = some m ∧ t.en = true ∧ t.active = .a)
  ∨ (i = .vmEnable ∧ s.en = false ∧ s.mode ≠ none ∧ t.mode = s.mode ∧ t.en = true ∧ t.active = s.active)
  ∨ ((i = .vmSwap ∨ i = .vmSwapv) ∧ s.en = true ∧ (s.mode = some .m4 ∨ s.mode = some .m5)
      ∧ t.mode = s.mode ∧ t.en = true ∧ t.active ≠ s.active)

/-- The addresses the VMC can issue, and with which size (R78, R62). -/
def AllowedAccess (cfg : Cfg) (size : Width) (a : Nat) : Prop :=
  (∃ d ∈ cfg.regtab, a = d.addr ∧ size = d.width)
    ∨ (size = .w16 ∧ a % 2 = 0
        ∧ ((cfg.vramBase ≤ a ∧ a < cfg.vramBase + 76800)
          ∨ (cfg.vramBase + cfg.frameBOffset ≤ a ∧ a < cfg.vramBase + cfg.frameBOffset + 40960)
          ∨ (cfg.palBase ≤ a ∧ a < cfg.palBase + 512)))

/-- An event's address and size are ones the VMC can issue. -/
def AllowedEvent (cfg : Cfg) : BusEvent → Prop
  | .load a size _ => AllowedAccess cfg size a
  | .store a size _ => AllowedAccess cfg size a

/-- The address of an event. -/
def BusEvent.address : BusEvent → Nat
  | .load a _ _ => a
  | .store a _ _ => a

/-- The bytes an event touches. -/
def BusEvent.size : BusEvent → Nat
  | .load _ w _ => w.bytes
  | .store _ w _ => w.bytes

/-- The buffer the hardware buffer-select bit names, the one being presented (R34). -/
def presented (s : State) : Buffer := if (controlInMemory s).getLsbD s.cfg.bufselBit then .b else .a

/-- The display-status words that show no vertical blank (R177). -/
def BlankClear (cfg : Cfg) (v : Word) : Prop := (lowHalf v).getLsbD cfg.vblankBit = false

/-- The display-status words that show vertical blank (R177). -/
def BlankSet (cfg : Cfg) (v : Word) : Prop := (lowHalf v).getLsbD cfg.vblankBit = true

end Sys2Proof.Machine
end

