-- ==== Sys2Proof/Certificates/Slice0/Obligations.lean ====
section
/-! DEFINITION. The statements for the provers. -/

open Sys2Proof Sys2Proof.Machine

/-! ### Register file: commands that touch memory -/

/-- R136: the checks, then one load of the slot's word, into the held word and the result; everything else is unchanged. -/
def Obligations.RegReadLatchesLoadedWord : Prop :=
  ∀ (s : State) (slot : Fin 16), RegChecksTrap s (.regRead slot) slot ∧ ∀ (d : SlotDef), HasSlot s slot d →
    ∃ t, exec (.regRead slot) s = .next t
      ∧ heldAt t slot = busValue s d.width d.addr
      ∧ RespondsOk s t (busValue s d.width d.addr)
      ∧ Issues s t [.load d.addr d.width (busValue s d.width d.addr)]
      ∧ KeepsHeldBut slot s t ∧ KeepsVideo s t ∧ KeepsSequencer s t ∧ KeepsFault s t ∧ KeepsMemory s t
      ∧ KeepsOutside s t

/-- R137: the checks, then one store of the held word to the slot's bytes, little-endian; the held word and everything else is
unchanged. The premises are the width invariant of R22 for the slot and memory's canonical form. -/
def Obligations.RegWriteStoresHeldWord : Prop :=
  ∀ (s : State) (slot : Fin 16), RegChecksTrap s (.regWrite slot) slot ∧
    ∀ (d : SlotDef), HasSlot s slot d → Fits d (heldAt s slot) → s.mem.wf = true →
    ∃ t, exec (.regWrite slot) s = .next t
      ∧ (∀ k, k < d.width.bytes → t.mem.read (d.addr + k) = byteField (heldAt s slot) k)
      ∧ KeepsMemoryBut d.addr d.width.bytes s t
      ∧ Issues s t [.store d.addr d.width (heldAt s slot)] ∧ RespondsOk s t 0
      ∧ KeepsHeld s t ∧ KeepsVideo s t ∧ KeepsSequencer s t ∧ KeepsFault s t ∧ KeepsOutside s t ∧ KeepsAnswers s t

/-! ### Register file: staged commands -/

/-- R138, R139: the checks, then the held word becomes 0, or the operand; nothing else but the response differs. -/
def Obligations.RegZeroAndSetReplaceHeldWord : Prop :=
  ∀ (s : State) (slot : Fin 16) (v : Word),
    RegChecksTrap s (.regZero slot) slot ∧ RegChecksTrap s (.regSet slot v) slot ∧
    ∀ (d : SlotDef), HasSlot s slot d →
    (∃ t, exec (.regZero slot) s = .next t ∧ heldAt t slot = 0 ∧ RespondsOk s t 0 ∧ StagedFrame slot s t)
    ∧ (Fits d v →
        ∃ t, exec (.regSet slot v) s = .next t ∧ heldAt t slot = v ∧ RespondsOk s t 0 ∧ StagedFrame slot s t)

/-- R140, R141, R142: the checks, then bitwise AND, OR, and AND with the complement, on a held word that fits its slot (R22). -/
def Obligations.RegBitwiseTransforms : Prop :=
  ∀ (s : State) (slot : Fin 16) (m : Word),
    RegChecksTrap s (.regAnd slot m) slot ∧ RegChecksTrap s (.regOr slot m) slot ∧ RegChecksTrap s (.regClear slot m) slot ∧
    ∀ (d : SlotDef), HasSlot s slot d → Fits d (heldAt s slot) → Fits d m →
    (∃ t, exec (.regAnd slot m) s = .next t ∧ heldAt t slot = heldAt s slot &&& m
      ∧ RespondsOk s t 0 ∧ StagedFrame slot s t)
    ∧ (∃ t, exec (.regOr slot m) s = .next t ∧ heldAt t slot = heldAt s slot ||| m
      ∧ RespondsOk s t 0 ∧ StagedFrame slot s t)
    ∧ (∃ t, exec (.regClear slot m) s = .next t ∧ heldAt t slot = heldAt s slot &&& ~~~m
      ∧ RespondsOk s t 0 ∧ StagedFrame slot s t)

/-- R143: the checks, then the result is bit i of the held word; only the response differs. -/
def Obligations.RegGetbReadsHeldBit : Prop :=
  ∀ (s : State) (slot : Fin 16) (i : Fin 32), RegChecksTrap s (.regGetb slot i) slot ∧
    ∀ (d : SlotDef), HasSlot s slot d → i.val < d.width.bits →
    ∃ t, exec (.regGetb slot i) s = .next t
      ∧ RespondsOk s t (if (heldAt s slot).getLsbD i.val then 1 else 0) ∧ QueryFrame s t

/-- R144: the checks, then bit i of the held word becomes the operand bit, every other bit is unchanged. -/
def Obligations.RegSetbChangesOneBit : Prop :=
  ∀ (s : State) (slot : Fin 16) (i : Fin 32) (bit : Bool), RegChecksTrap s (.regSetb slot i bit) slot ∧
    ∀ (d : SlotDef), HasSlot s slot d → i.val < d.width.bits → Fits d (heldAt s slot) →
    ∃ t, exec (.regSetb slot i bit) s = .next t
      ∧ (∀ j, (heldAt t slot).getLsbD j = if j = i.val then bit else (heldAt s slot).getLsbD j)
      ∧ RespondsOk s t 0 ∧ StagedFrame slot s t

/-- R145: the checks, then the result is the held word shifted right, then masked; only the response differs. -/
def Obligations.RegGetmReadsShiftedField : Prop :=
  ∀ (s : State) (slot : Fin 16) (sh : Fin 32) (m : Word), RegChecksTrap s (.regGetm slot sh m) slot ∧
    ∀ (d : SlotDef), HasSlot s slot d → sh.val < d.width.bits → Fits d m →
    ∃ t r, exec (.regGetm slot sh m) s = .next t ∧ RespondsOk s t r
      ∧ (∀ j, r.getLsbD j = ((heldAt s slot).getLsbD (sh.val + j) && m.getLsbD j)) ∧ QueryFrame s t

/-- R146, R133: the checks, then bit j below W becomes bit j - SH of v where the mask has a 1 there, and is unchanged elsewhere; no bit at or
above W is set. -/
def Obligations.RegSetmWritesMaskedField : Prop :=
  ∀ (s : State) (slot : Fin 16) (sh : Fin 32) (m v : Word), RegChecksTrap s (.regSetm slot sh m v) slot ∧
    ∀ (d : SlotDef), HasSlot s slot d → sh.val < d.width.bits → Fits d m → Fits d v → Fits d (heldAt s slot) →
    ∃ t, exec (.regSetm slot sh m v) s = .next t
      ∧ (∀ j, j < d.width.bits → (heldAt t slot).getLsbD j =
          if sh.val ≤ j ∧ m.getLsbD (j - sh.val) = true then v.getLsbD (j - sh.val) else (heldAt s slot).getLsbD j)
      ∧ Fits d (heldAt t slot) ∧ RespondsOk s t 0 ∧ StagedFrame slot s t

/-- R134: the laws of the bit functions, (a) with and without its precondition, (b), (c), (d), and (e) on the machine. -/
def Obligations.BitFieldLaws : Prop :=
  (∀ (d : SlotDef) (w m v : Word) (sh : Nat), Fits d w → Fits d m → Fits d v → sh < d.width.bits →
    (trunc d.width (m <<< sh) >>> sh = m → getm (setm d.width w sh m v) sh m = v &&& m)
    ∧ getm (setm d.width w sh m v) sh m = v &&& m &&& (ones d.width >>> sh)
    ∧ setm d.width w sh m v &&& trunc d.width (~~~(trunc d.width (m <<< sh)))
        = w &&& trunc d.width (~~~(trunc d.width (m <<< sh)))
    ∧ ∀ b, getb (setb d.width w sh b) sh = (if b then 1 else 0)
        ∧ (∀ j, j ≠ sh → (setb d.width w sh b).getLsbD j = w.getLsbD j)
        ∧ setb d.width w sh b = setm d.width w sh 1 (if b then 1 else 0)
        ∧ getb w sh = getm w sh 1)
  ∧ ∀ (s : State) (slot : Fin 16) (d : SlotDef) (sh : Nat) (m v : Word),
      HasSlot s slot d → sh < d.width.bits → Fits d m → Fits d v → Fits d (heldAt s slot) →
      ∃ t u, exec (.regClear slot (trunc d.width (m <<< sh))) s = .next t
        ∧ exec (.regOr slot (trunc d.width ((v &&& m) <<< sh))) t = .next u
        ∧ heldAt u slot = setm d.width (heldAt s slot) sh m v

/-- R135: the checks of a REG command, in order: slot, shift, operand A, operand B; the first failing one traps, with
SLOT, SH or the operand word as info. On a 32-bit slot the last three cannot fail; on a 16-bit slot a shift of 16 or more and
an operand with a bit at or above 16 fail. -/
def Obligations.RegChecksTrapInOrder : Prop :=
  (∀ (s : State) (i : Instr) (slot : Fin 16), regSlot i = some slot → RegChecksTrap s i slot)
  ∧ (∀ (d : SlotDef) (sh : Fin 32) (v : Word), d.width = .w32 → sh.val < d.width.bits ∧ Fits d v)
  ∧ ∀ (d : SlotDef) (v : Word), d.width = .w16 → (Fits d v ↔ ∀ j, 16 ≤ j → v.getLsbD j = false)

/-! ### Video modes: construction, enable, switch -/

/-- R163: the construction checks, then, with every Region base even, the mode is constructed: Disabled, buffer A, not in
sync; no access. -/
def Obligations.VmConstructMakesDisabledMode : Prop :=
  ∀ (s : State) (m : VideoMode), ConstructChecksTrap s (.vmConstruct m) m ∧ (RegionsAligned s.cfg m →
    ∃ t, exec (.vmConstruct m) s = .next t
      ∧ t.mode = some m ∧ t.en = false ∧ t.active = .a ∧ ¬ InSync t ∧ RespondsOk s t 0
      ∧ KeepsHeld s t ∧ KeepsSequencer s t ∧ KeepsFault s t ∧ KeepsMemory s t ∧ KeepsOutside s t ∧ KeepsAnswers s t
      ∧ Issues s t [])

/-- R162: VM.CONSTRUCT and GFX.SWITCH report the first Region with an odd base, in the order of R160, and change nothing
else; in CFG_REF every base is even. -/
def Obligations.MisalignedRegionTraps : Prop :=
  (∀ m, RegionsAligned Cfg.ref m) ∧
  ∀ (s : State) (m : VideoMode) (i : Instr), i = .vmConstruct m ∨ i = .gfxSwitch m →
    (s.cfg.vramBase % 2 = 1 →
      ∃ t, exec i s = .next t ∧ Traps (opcOf i) .misalignedRegion (BitVec.ofNat 32 s.cfg.vramBase) s t)
    ∧ (s.cfg.vramBase % 2 = 0 → (s.cfg.vramBase + s.cfg.frameBOffset) % 2 = 1 → m ≠ .m3 →
      ∃ t, exec i s = .next t
        ∧ Traps (opcOf i) .misalignedRegion (BitVec.ofNat 32 (s.cfg.vramBase + s.cfg.frameBOffset)) s t)
    ∧ (s.cfg.vramBase % 2 = 0 → (s.cfg.vramBase + s.cfg.frameBOffset) % 2 = 0 → s.cfg.palBase % 2 = 1 → m = .m4 →
      ∃ t, exec i s = .next t ∧ Traps (opcOf i) .misalignedRegion (BitVec.ofNat 32 s.cfg.palBase) s t)

/-- R164: BAD_STATE with STW when no mode is constructed or it is Enabled; else enable commits the control word of the mode in
one store, holds it in slot 0 and sets EN; InSync holds after it. -/
def Obligations.VmEnableCommitsControlWord : Prop :=
  (∀ (s : State), s.mode = none ∨ s.en = true →
    ∃ t, exec .vmEnable s = .next t ∧ Traps 0x21 .badState (stateWord s) s t)
  ∧ ∀ (s : State) (m : VideoMode), s.cfg.wf = true → s.mem.wf = true → s.mode = some m → s.en = false →
    ∃ t w, exec .vmEnable s = .next t
      ∧ IsControlWord s.cfg m s.active w
      ∧ t.en = true ∧ t.mode = some m ∧ t.active = s.active
      ∧ heldAt t 0 = zext w ∧ controlInMemory t = w ∧ (s.halt = false → InSync t)
      ∧ Issues s t [.store (s.cfg.addr 0) .w16 (zext w)] ∧ RespondsOk s t 0
      ∧ KeepsMemoryBut (s.cfg.addr 0) 2 s t ∧ KeepsHeldBut 0 s t ∧ KeepsSequencer s t ∧ KeepsFault s t
      ∧ KeepsOutside s t ∧ KeepsAnswers s t

/-- R201: the construction checks, then the switch constructs and enables in one command, from every state. -/
def Obligations.GfxSwitchConstructsAndEnables : Prop :=
  ∀ (s : State) (m : VideoMode), ConstructChecksTrap s (.gfxSwitch m) m ∧
    (s.cfg.wf = true → s.mem.wf = true → RegionsAligned s.cfg m →
    ∃ t w, exec (.gfxSwitch m) s = .next t
      ∧ IsControlWord s.cfg m .a w
      ∧ t.en = true ∧ t.mode = some m ∧ t.active = .a
      ∧ heldAt t 0 = zext w ∧ controlInMemory t = w
      ∧ Issues s t [.store (s.cfg.addr 0) .w16 (zext w)] ∧ RespondsOk s t 0
      ∧ KeepsMemoryBut (s.cfg.addr 0) 2 s t ∧ KeepsHeldBut 0 s t ∧ KeepsSequencer s t ∧ KeepsFault s t
      ∧ KeepsOutside s t ∧ KeepsAnswers s t)

/-- R161, R164, R171, R178: BAD_STATE with STW for every command that needs a mode when there is none, for VM.ENABLE when
Enabled, and for VM.SWAP and VM.SWAPV in Mode4 and Mode5 when Disabled. -/
def Obligations.BadStateTraps : Prop :=
  ∀ (s : State) (i : Instr),
    (needsMode i = true ∧ s.mode = none)
      ∨ (i = .vmEnable ∧ s.mode ≠ none ∧ s.en = true)
      ∨ ((i = .vmSwap ∨ i = .vmSwapv) ∧ (s.mode = some .m4 ∨ s.mode = some .m5) ∧ s.en = false) →
    ∃ t, exec i s = .next t ∧ Traps (opcOf i) .badState (stateWord s) s t

/-! ### Video modes: pixels -/

/-- R168 in Mode3 and Mode5: one store of the colour to the pixel's cell of the draw buffer. -/
def Obligations.VmSetStoresColour : Prop :=
  ∀ (s : State) (m : VideoMode) (x y c : Half),
    s.mode = some m → m ≠ .m4 → InBounds m x y → s.mem.wf = true →
    ∃ t, exec (.vmSet x y c 0) s = .next t
      ∧ t.mem.read16 (cellAddr s m x.toNat y.toNat) = c
      ∧ KeepsMemoryBut (cellAddr s m x.toNat y.toNat) 2 s t
      ∧ Issues s t [.store (cellAddr s m x.toNat y.toNat) .w16 (zext c)] ∧ RespondsOk s t 0
      ∧ KeepsHeld s t ∧ KeepsVideo s t ∧ KeepsSequencer s t ∧ KeepsFault s t ∧ KeepsOutside s t ∧ KeepsAnswers s t

/-- R167, R168 in Mode4: one load and one store of the cell; the pixel's byte becomes the index, the sibling's byte is the
one just loaded. -/
def Obligations.VmSetReplacesMode4Byte : Prop :=
  ∀ (s : State) (x y c : Half),
    s.mode = some .m4 → InBounds .m4 x y → c.toNat < 256 → s.mem.wf = true →
    ∃ t cell cell',
      exec (.vmSet x y c 0) s = .next t
      ∧ zext cell = busValue s .w16 (cellAddr s .m4 x.toNat y.toNat)
      ∧ (x.toNat % 2 = 0 → cell'.toNat % 256 = c.toNat ∧ cell'.toNat / 256 = cell.toNat / 256)
      ∧ (x.toNat % 2 = 1 → cell'.toNat % 256 = cell.toNat % 256 ∧ cell'.toNat / 256 = c.toNat)
      ∧ t.mem.read16 (cellAddr s .m4 x.toNat y.toNat) = cell'
      ∧ KeepsMemoryBut (cellAddr s .m4 x.toNat y.toNat) 2 s t
      ∧ Issues s t [.load (cellAddr s .m4 x.toNat y.toNat) .w16 (zext cell),
          .store (cellAddr s .m4 x.toNat y.toNat) .w16 (zext cell')]
      ∧ RespondsOk s t 0
      ∧ KeepsHeld s t ∧ KeepsVideo s t ∧ KeepsSequencer s t ∧ KeepsFault s t ∧ KeepsOutside s t

/-- R169: one load of the pixel's cell of the draw buffer; the result is the cell, and in Mode4 the pixel's byte of it. -/
def Obligations.VmGetReadsDrawBuffer : Prop :=
  ∀ (s : State) (m : VideoMode) (x y : Half), s.mode = some m → InBounds m x y →
    ∃ t cell r, exec (.vmGet x y) s = .next t
      ∧ zext cell = busValue s .w16 (cellAddr s m x.toNat y.toNat)
      ∧ (m ≠ .m4 → r = zext cell)
      ∧ (m = .m4 → r.toNat = if x.toNat % 2 = 0 then cell.toNat % 256 else cell.toNat / 256)
      ∧ RespondsOk s t r ∧ Issues s t [.load (cellAddr s m x.toNat y.toNat) .w16 (zext cell)]
      ∧ KeepsHeld s t ∧ KeepsVideo s t ∧ KeepsSequencer s t ∧ KeepsFault s t ∧ KeepsMemory s t ∧ KeepsOutside s t

/-- R166, R168, R169: the traps of VM.SET and VM.GET in their order: BAD_VALUE with the operand word B, then COORD_OOB with
the operand word A. -/
def Obligations.PixelOperandsTrap : Prop :=
  ∀ (s : State) (m : VideoMode) (x y c hi : Half), s.mode = some m →
    ((hi ≠ 0 ∨ (m = .m4 ∧ 256 ≤ c.toNat)) →
      ∃ t, exec (.vmSet x y c hi) s = .next t ∧ Traps 0x22 .badValue (hi ++ c) s t)
    ∧ (hi = 0 → (m = .m4 → c.toNat < 256) → ¬ InBounds m x y →
      ∃ t, exec (.vmSet x y c hi) s = .next t ∧ Traps 0x22 .coordOob (y ++ x) s t)
    ∧ (¬ InBounds m x y →
      ∃ t, exec (.vmGet x y) s = .next t ∧ Traps 0x23 .coordOob (y ++ x) s t)

/-- R179: under Quiet, VM.SET then VM.GET of the same pixel answers the colour or index; in Mode4 the sibling pixel reads as
before. -/
def Obligations.SetThenGetReturnsPixel : Prop :=
  ∀ (s : State) (m : VideoMode) (x y c : Half),
    s.cfg.wf = true → s.mem.wf = true → Quiet s → s.mode = some m → InBounds m x y → (m = .m4 → c.toNat < 256) →
    ∃ t u, exec (.vmSet x y c 0) s = .next t ∧ exec (.vmGet x y) t = .next u ∧ RespondsOk t u (zext c)
      ∧ (m = .m4 → ∃ r v v', exec (.vmGet (siblingX x) y) s = .next v ∧ RespondsOk s v r
          ∧ exec (.vmGet (siblingX x) y) t = .next v' ∧ RespondsOk t v' r)

/-! ### Video modes: swap, bounds, palette -/

/-- R171 in Mode4 and Mode5, Enabled: the loaded control word with its buffer-select bit set to 1 - ACTIVE is held, stored,
and ACTIVE is inverted with it. -/
def Obligations.VmSwapFlipsBitAndActive : Prop :=
  ∀ (s : State), s.cfg.wf = true → s.mem.wf = true → (s.mode = some .m4 ∨ s.mode = some .m5) → s.en = true →
    ∃ t w w', exec .vmSwap s = .next t
      ∧ zext w = busValue s .w16 (s.cfg.addr 0)
      ∧ (∀ j, j < 16 → w'.getLsbD j = if j = s.cfg.bufselBit then activeBit t.active else w.getLsbD j)
      ∧ t.active ≠ s.active ∧ t.mode = s.mode ∧ t.en = s.en
      ∧ heldAt t 0 = zext w' ∧ controlInMemory t = w'
      ∧ Issues s t [.load (s.cfg.addr 0) .w16 (zext w), .store (s.cfg.addr 0) .w16 (zext w')]
      ∧ RespondsOk s t 0 ∧ KeepsMemoryBut (s.cfg.addr 0) 2 s t ∧ KeepsHeldBut 0 s t ∧ KeepsSequencer s t
      ∧ KeepsFault s t ∧ KeepsOutside s t

/-- R171 in Mode3: a no-op, Disabled or Enabled: no access, no state change. -/
def Obligations.VmSwapIsNoOpInMode3 : Prop :=
  ∀ (s : State), s.mode = some .m3 →
    ∃ t, exec .vmSwap s = .next t ∧ RespondsOk s t 0 ∧ QueryFrame s t

/-- R180: under Quiet and in sync, two swaps restore ACTIVE and the hardware bit; a pixel set before the first swap is not in
the draw buffer after it (that reads what the other buffer held) and is again after the second. -/
def Obligations.TwoSwapsRestoreBuffer : Prop :=
  ∀ (s : State) (m : VideoMode) (x y c : Half),
    MachineInv s → Quiet s → InSync s → s.mode = some m → m ≠ .m3 → InBounds m x y → (m = .m4 → c.toNat < 256) →
    ∃ s1 s2 s3 g2 g3 r,
      exec (.vmSet x y c 0) s = .next s1 ∧ exec .vmSwap s1 = .next s2 ∧ exec .vmSwap s2 = .next s3
      ∧ s3.active = s.active ∧ presented s3 = presented s ∧ s2.active ≠ s.active ∧ presented s2 ≠ presented s
      ∧ exec (.vmGet x y) s2 = .next g2 ∧ RespondsOk s2 g2 r
      ∧ (∃ q, exec (.vmGet x y) { s with active := s2.active } = .next q
          ∧ RespondsOk { s with active := s2.active } q r)
      ∧ exec (.vmGet x y) s3 = .next g3 ∧ RespondsOk s3 g3 (zext c)

/-- R173: BAD_STATE with STW when no mode is constructed; else the packed bounds, and only the response differs. -/
def Obligations.VmBoundsPacksGeometry : Prop :=
  (∀ (s : State), s.mode = none →
    ∃ t, exec .vmBounds s = .next t ∧ Traps 0x26 .badState (stateWord s) s t)
  ∧ ∀ (s : State) (m : VideoMode), s.mode = some m →
    ∃ t r, exec .vmBounds s = .next t ∧ RespondsOk s t r ∧ QueryFrame s t
      ∧ r.toNat = (match m with
          | .m3 => 16 * 2 ^ 24 + 160 * 2 ^ 12 + 240
          | .m4 => 8 * 2 ^ 24 + 160 * 2 ^ 12 + 240
          | .m5 => 16 * 2 ^ 24 + 128 * 2 ^ 12 + 160)

/-- R175, R176 in Mode4: one store, or one load, of palette entry i at PAL_BASE + 2*i. -/
def Obligations.PaletteAccessesEntry : Prop :=
  ∀ (s : State) (i : Word) (c : Half), s.mode = some .m4 → i.toNat < 256 → s.mem.wf = true →
    (∃ t, exec (.vmSetpal i c 0) s = .next t
      ∧ t.mem.read16 (s.cfg.palBase + 2 * i.toNat) = c
      ∧ KeepsMemoryBut (s.cfg.palBase + 2 * i.toNat) 2 s t
      ∧ Issues s t [.store (s.cfg.palBase + 2 * i.toNat) .w16 (zext c)] ∧ RespondsOk s t 0
      ∧ KeepsHeld s t ∧ KeepsVideo s t ∧ KeepsSequencer s t ∧ KeepsFault s t ∧ KeepsOutside s t ∧ KeepsAnswers s t)
    ∧ (∃ t, exec (.vmGetpal i) s = .next t
      ∧ RespondsOk s t (busValue s .w16 (s.cfg.palBase + 2 * i.toNat))
      ∧ Issues s t [.load (s.cfg.palBase + 2 * i.toNat) .w16 (busValue s .w16 (s.cfg.palBase + 2 * i.toNat))]
      ∧ KeepsHeld s t ∧ KeepsVideo s t ∧ KeepsSequencer s t ∧ KeepsFault s t ∧ KeepsMemory s t ∧ KeepsOutside s t)

/-- R174, R175, R176: the traps of the palette commands in their order: NOT_PALETTE_MODE with STW, BAD_VALUE with the
operand word B, PALETTE_OOB with the index. -/
def Obligations.PaletteOperandsTrap : Prop :=
  ∀ (s : State) (m : VideoMode) (i : Word) (c hi : Half), s.mode = some m →
    (m ≠ .m4 →
      (∃ t, exec (.vmSetpal i c hi) s = .next t ∧ Traps 0x27 .notPaletteMode (stateWord s) s t)
      ∧ (∃ t, exec (.vmGetpal i) s = .next t ∧ Traps 0x28 .notPaletteMode (stateWord s) s t))
    ∧ (m = .m4 → hi ≠ 0 →
      ∃ t, exec (.vmSetpal i c hi) s = .next t ∧ Traps 0x27 .badValue (hi ++ c) s t)
    ∧ (m = .m4 → 256 ≤ i.toNat →
      (hi = 0 → ∃ t, exec (.vmSetpal i c hi) s = .next t ∧ Traps 0x27 .paletteOob i s t)
      ∧ (∃ t, exec (.vmGetpal i) s = .next t ∧ Traps 0x28 .paletteOob i s t))

/-! ### Video modes: the commands that hold the sequencer -/

/-- R172, R167: VM.CLEAR is accepted in every mode with its first pixel: SetPixel(0, 0, 0) and SEQ = CLEARING at pixel
(1, 0). In Mode3 and Mode5 the first cell is stored 0; in Mode4 it is loaded, and stored with its low byte 0. -/
def Obligations.VmClearStartsWithFirstPixel : Prop :=
  ∀ (s : State) (m : VideoMode), s.mode = some m → s.mem.wf = true →
    ∃ t cell, exec .vmClear s = .next t
      ∧ t.seq = .clearing ∧ t.cx.toNat = 1 ∧ t.cy.toNat = 0
      ∧ zext cell = busValue s .w16 (drawBase s m)
      ∧ (m ≠ .m4 → t.mem.read16 (drawBase s m) = 0 ∧ Issues s t [.store (drawBase s m) .w16 0] ∧ KeepsAnswers s t)
      ∧ (m = .m4 → t.mem.read16 (drawBase s m) = cell &&& 0xFF00
          ∧ Issues s t [.load (drawBase s m) .w16 (zext cell), .store (drawBase s m) .w16 (zext (cell &&& 0xFF00))])
      ∧ KeepsMemoryBut (drawBase s m) 2 s t
      ∧ t.responses = s.responses ∧ KeepsHeld s t ∧ KeepsVideo s t ∧ KeepsFault s t ∧ KeepsOutside s t

/-- R172, R167, R79: a step of VM.CLEAR in flight is SetPixel(CX, CY, 0) on the draw buffer, in Mode4 a load then a store,
else one store; then (CX, CY) is the next pixel, x inner and y outer, at no lower address, or after the last pixel the
command ends. -/
def Obligations.VmClearStepSetsOnePixel : Prop :=
  ∀ (s : State) (m : VideoMode),
    s.mem.wf = true → s.seq = .clearing → s.mode = some m → s.cx.toNat < wd m → s.cy.toNat < ht m →
    ∃ t p, advance s = .next t ∧ p = cellAddr s m s.cx.toNat s.cy.toNat
      ∧ (m ≠ .m4 → t.mem.read16 p = 0 ∧ Issues s t [.store p .w16 0] ∧ KeepsAnswers s t)
      ∧ (m = .m4 → ∃ cell cell', zext cell = busValue s .w16 p ∧ t.mem.read16 p = cell'
          ∧ (s.cx.toNat % 2 = 0 → cell' = cell &&& 0xFF00) ∧ (s.cx.toNat % 2 = 1 → cell' = cell &&& 0x00FF)
          ∧ Issues s t [.load p .w16 (zext cell), .store p .w16 (zext cell')])
      ∧ KeepsMemoryBut p 2 s t
      ∧ (s.cx.toNat + 1 < wd m →
          t.seq = .clearing ∧ t.cx.toNat = s.cx.toNat + 1 ∧ t.cy = s.cy ∧ t.responses = s.responses)
      ∧ (s.cx.toNat + 1 = wd m → s.cy.toNat + 1 < ht m →
          t.seq = .clearing ∧ t.cx.toNat = 0 ∧ t.cy.toNat = s.cy.toNat + 1 ∧ t.responses = s.responses)
      ∧ (s.cx.toNat + 1 = wd m → s.cy.toNat + 1 = ht m → t.seq = .idle ∧ RespondsOk s t 0)
      ∧ (t.seq = .clearing → p ≤ cellAddr t m t.cx.toNat t.cy.toNat)
      ∧ KeepsHeld s t ∧ KeepsVideo s t ∧ KeepsFault s t ∧ KeepsOutside s t

/-- R172, R79: under Quiet, VM.CLEAR presented to an idle VMC completes after exactly Wd * Ht steps with one OK response;
every byte of the draw buffer then reads 0, every other byte as before, and the number of bus events is one a pixel, in
Mode4 two; their order is VmClearStepSetsOnePixel's. The count of steps is the model's reading (log 6). -/
def Obligations.VmClearZeroesDrawBuffer : Prop :=
  ∀ (s : State) (m : VideoMode) (a b : Word),
    MachineInv s → Quiet s → s.mode = some m → s.seq = .idle → s.halt = false →
    s.port = [.command ⟨0x25000000, a, b⟩] →
    ∃ t, Host.Core.run Sys2Proof.core (wd m * ht m) s = .next t
      ∧ t.seq = .idle ∧ RespondsOk s t 0 ∧ t.port = []
      ∧ (∀ p, drawBase s m ≤ p → p < drawBase s m + frameBytes m → t.mem.read p = 0)
      ∧ KeepsMemoryBut (drawBase s m) (frameBytes m) s t
      ∧ t.events.length = s.events.length + (if m = .m4 then 76800 else wd m * ht m)
      ∧ KeepsHeld s t ∧ KeepsVideo s t ∧ KeepsFault s t

/-- R177: VM.VSYNC is accepted in every state with its first poll: one load of the display-status word into HELD[1]; with
the vertical-blank bit 1 it completes, with 0 it stays in SEQ = POLL and gives no response. -/
def Obligations.VmVsyncPollsOnce : Prop :=
  ∀ (s : State),
    ∃ t v, exec .vmVsync s = .next t
      ∧ v = busValue s .w16 (s.cfg.addr 1) ∧ heldAt t 1 = v ∧ Issues s t [.load (s.cfg.addr 1) .w16 v]
      ∧ (v.getLsbD s.cfg.vblankBit = true → t.seq = .idle ∧ RespondsOk s t 0)
      ∧ (v.getLsbD s.cfg.vblankBit = false → t.seq = .poll ∧ t.responses = s.responses)
      ∧ t.cx = s.cx ∧ t.cy = s.cy
      ∧ KeepsHeldBut 1 s t ∧ KeepsVideo s t ∧ KeepsFault s t ∧ KeepsMemory s t ∧ KeepsOutside s t

/-- R177: with display-status answers that show the bit as 0 k times and then as 1, VM.VSYNC presented to an idle VMC
completes after exactly k + 1 steps and k + 1 loads, with the last word in HELD[1]. -/
def Obligations.VmVsyncCompletesAtFirstBlank : Prop :=
  ∀ (s : State) (before after : List Word) (v a b : Word),
    s.cfg.wf = true → s.halt = false → s.seq = .idle → s.port = [.command ⟨0x29000000, a, b⟩] →
    s.answers = before ++ v :: after → (∀ u ∈ before, BlankClear s.cfg u) → BlankSet s.cfg v →
    ∃ t, Host.Core.run Sys2Proof.core (before.length + 1) s = .next t
      ∧ t.seq = .idle ∧ RespondsOk s t 0 ∧ t.answers = after ∧ heldAt t 1 = zext (lowHalf v)
      ∧ Issues s t ((before ++ [v]).map fun u => .load (s.cfg.addr 1) .w16 (zext (lowHalf u)))
      ∧ KeepsHeldBut 1 s t ∧ KeepsVideo s t ∧ KeepsFault s t ∧ KeepsMemory s t

/-- R177, R218: while the answers show the bit as 0 the command stays in flight, without a response and without a trap,
however many steps are taken. -/
def Obligations.VmVsyncHangsWhileNoBlank : Prop :=
  ∀ (k : Nat) (s : State) (answers : List Word),
    s.cfg.wf = true → s.halt = false → s.seq = .poll → s.port = [] →
    s.answers = answers → answers.length = k → (∀ u ∈ answers, BlankClear s.cfg u) →
    ∃ t, Host.Core.run Sys2Proof.core k s = .next t
      ∧ t.seq = .poll ∧ t.halt = false ∧ t.responses = s.responses ∧ t.events.length = s.events.length + k

/-- R178: VM.SWAPV, its acceptance with the first poll and every later step at SEQ = POLL_SWAP. With the bit 0 it stays in
SEQ = POLL_SWAP; with the bit 1 it completes, in Mode3 with nothing more, in Mode4 and Mode5 (Enabled) with the load and the
store of the swap and ACTIVE inverted. -/
def Obligations.VmSwapvPollsThenSwaps : Prop :=
  ∀ (s : State) (m : VideoMode),
    s.cfg.wf = true → s.mem.wf = true → s.mode = some m → (m = .m3 ∨ s.en = true) →
    (∃ t, exec .vmSwapv s = .next t ∧ SwapvStep m s t)
    ∧ (s.seq = .pollSwap → ∃ t, advance s = .next t ∧ SwapvStep m s t)

/-- R178: with display-status answers that show the bit as 0 k times and then as 1, VM.SWAPV presented to an idle VMC
completes after exactly k + 1 steps: k + 1 polls, the last word in HELD[1], then in Mode4 and Mode5 the load and the store of the
swap with ACTIVE inverted, in Mode3 nothing more. -/
def Obligations.VmSwapvCompletesAtFirstBlank : Prop :=
  ∀ (s : State) (m : VideoMode) (before after : List Word) (v a b : Word),
    s.cfg.wf = true → s.mem.wf = true → s.halt = false → s.seq = .idle → s.mode = some m → (m = .m3 ∨ s.en = true) →
    s.port = [.command ⟨0x2A000000, a, b⟩] →
    s.answers = before ++ v :: after → (∀ u ∈ before, BlankClear s.cfg u) → BlankSet s.cfg v →
    ∃ t polls, Host.Core.run Sys2Proof.core (before.length + 1) s = .next t
      ∧ polls = (before ++ [v]).map (fun u => BusEvent.load (s.cfg.addr 1) .w16 (zext (lowHalf u)))
      ∧ t.seq = .idle ∧ RespondsOk s t 0 ∧ heldAt t 1 = zext (lowHalf v)
      ∧ (∀ k, k ≠ 0 → k ≠ 1 → heldAt t k = heldAt s k) ∧ t.mode = s.mode ∧ t.en = s.en ∧ KeepsFault s t
      ∧ (m = .m3 → t.active = s.active ∧ heldAt t 0 = heldAt s 0 ∧ t.answers = after ∧ Issues s t polls ∧ KeepsMemory s t)
      ∧ (m ≠ .m3 → t.active ≠ s.active
          ∧ ∃ w w', (∀ j, j < 16 → w'.getLsbD j = if j = s.cfg.bufselBit then activeBit t.active else w.getLsbD j)
              ∧ heldAt t 0 = zext w' ∧ controlInMemory t = w' ∧ KeepsMemoryBut (s.cfg.addr 0) 2 s t
              ∧ Issues s t (polls ++ [.load (s.cfg.addr 0) .w16 (zext w), .store (s.cfg.addr 0) .w16 (zext w')])
              ∧ (Quiet s → s.cfg.addr 0 ≠ s.cfg.addr 1 → w = controlInMemory s))

/-! ### Colours -/

/-- R203: with A[31:24] not 0 BAD_VALUE with the operand word A; else each channel masked to 5 bits and packed, bit 15 zero,
and only the response differs. -/
def Obligations.ColRgbPacksChannels : Prop :=
  ∀ (s : State) (r g b hi : Byte),
    (hi ≠ 0 → ∃ t, exec (.colRgb r g b hi) s = .next t ∧ Traps 0x40 .badValue (hi ++ b ++ g ++ r) s t)
    ∧ (hi = 0 → ∃ t v, exec (.colRgb r g b hi) s = .next t ∧ RespondsOk s t v ∧ QueryFrame s t
      ∧ v.toNat = r.toNat % 32 + g.toNat % 32 * 32 + b.toNat % 32 * 1024)

/-! ### The command port -/

/-- R90, R94: a presented command that decodes is run by the next step of an idle VMC that is not halted. The second clause
is the model's choice, not the spec's (log 5): withFetchWord makes the VMC idle, whatever was in flight, so that the very next
step runs the word. -/
def Obligations.StepRunsDecodedInstruction : Prop :=
  (∀ (s : State) (c : Command) (i : Instr) (rest : List HostInput),
    s.cfg.wf = true → s.seq = .idle → s.halt = false → s.port = .command c :: rest → decode c = .ok i →
    step s = exec i { s with port := rest })
  ∧ ∀ (s : State) (nbits w : Nat) (i : Instr),
    s.cfg.wf = true → s.halt = false → decodeTableWord nbits w = some i →
    step (s.withFetchWord nbits w) = exec i { s with seq := .idle }

/-- R97, R213: an illegal header traps ILLEGAL_COMMAND with H as info and H[31:24] as OPC. -/
def Obligations.IllegalCommandTraps : Prop :=
  ∀ (s : State) (c : Command) (e : DecodeError) (rest : List HostInput),
    s.cfg.wf = true → s.seq = .idle → s.halt = false → s.port = .command c :: rest → decode c = .error e →
    ∃ t, step s = .next t ∧ Traps (opcField c.h) .illegalCommand c.h { s with port := rest } t

/-- R216: while halted, every command presented, legal or not, is answered HALTED with the fault record, and nothing else
changes. -/
def Obligations.HaltedAnswersEveryCommand : Prop :=
  ∀ (s : State) (c : Command) (rest : List HostInput),
    s.cfg.wf = true → s.seq = .idle → s.halt = true → s.port = .command c :: rest →
    step s = .next { s with port := rest, responses := s.responses ++ [⟨.halted, s.fcause, s.finfo⟩] }

/-- R90, R28: a command presented while another is in flight is not accepted: the step is the one taken without it. That
the command stays at the port, and is not dropped, is the model's choice (log 5): R90 has the host wait. -/
def Obligations.BusyPortLeavesCommandWaiting : Prop :=
  ∀ (s : State) (c : Command) (rest : List HostInput), MachineInv s → s.seq ≠ .idle → s.port = .command c :: rest →
    ∃ t, step s = .next t ∧ t.port = s.port ∧ step { s with port := [] } = .next { t with port := [] }

/-- R240, R241, R242: reset, in every state: every piece of VMC state takes the value of R41; memory, the event history and
the responses are unchanged. -/
def Obligations.ResetInputClearsVmc : Prop :=
  ∀ (s : State) (rest : List HostInput), s.cfg.wf = true → s.port = .reset :: rest →
    ∃ t, step s = .next t ∧ (∀ k, heldAt t k = 0) ∧ t.mode = none ∧ t.en = false ∧ t.active = .a ∧ t.seq = .idle
      ∧ t.cx = 0 ∧ t.cy = 0 ∧ t.halt = false ∧ causeCode t.fcause = 0 ∧ t.finfo = 0 ∧ t.fopc = 0
      ∧ t.mem = s.mem ∧ t.events = s.events ∧ t.responses = s.responses ∧ t.cfg = s.cfg ∧ t.port = rest

/-- R241: reset inside a step, after its first k accesses. With more than k accesses in the step, those k are issued and
nothing else of it happens: no later access, no response; memory reads as before, since a step's one store is its last access.
With no more than k the step is whole before the reset (log 8). Either way every piece of VMC state is reset. -/
def Obligations.ResetInsideStepAbandonsIt : Prop :=
  ∀ (s t : State) (k : Nat) (rest : List HostInput) (es : List BusEvent),
    MachineInv s → s.port = .resetInside k :: rest → step { s with port := rest } = .next t → Issues s t es →
    ∃ r, step s = .next r ∧ VmcReset r ∧ r.port = t.port ∧ r.cfg = s.cfg ∧ r.quiet = s.quiet
      ∧ (k < es.length → Issues s r (es.take k) ∧ r.responses = s.responses ∧ KeepsMemory s r)
      ∧ (es.length ≤ k → r.events = t.events ∧ r.responses = t.responses ∧ KeepsMemory t r)

/-- R41, R5: the reset state has the table's values, in the reference configuration, which is well-formed. -/
def Obligations.ResetStateMatchesTable : Prop :=
  (∀ k, heldAt State.reset k = 0) ∧ State.reset.mode = none ∧ State.reset.en = false ∧ State.reset.active = .a
    ∧ State.reset.seq = .idle ∧ State.reset.cx = 0 ∧ State.reset.cy = 0 ∧ State.reset.halt = false
    ∧ causeCode State.reset.fcause = 0 ∧ State.reset.finfo = 0 ∧ State.reset.fopc = 0
    ∧ State.reset.cfg.wf = true

/-- R6: the conditions (a) to (i), that CFG_REF meets them, and that a configuration that does not meet them is given no
meaning: every step is refused. In (i) two slots may overlap each other, the model's reading of it (log 9). -/
def Obligations.IllFormedConfigurationRefused : Prop :=
  (∀ (s : State), s.cfg.wf = false → step s = .refused .illFormedConfiguration)
  ∧ Cfg.ref.wf = true
  ∧ ∀ (cfg : Cfg), cfg.wf = true ↔
      (2 ≤ cfg.regtab.length ∧ cfg.regtab.length ≤ 16)
      ∧ ((cfg.slotDef 0).width = .w16 ∧ (cfg.slotDef 1).width = .w16)
      ∧ (∀ d ∈ cfg.regtab, d.width.bytes ∣ d.addr)
      ∧ (cfg.modeShift < 16 ∧ cfg.bufselBit < 16 ∧ cfg.bg2Bit < 16 ∧ cfg.blankBit < 16 ∧ cfg.vblankBit < 16)
      ∧ (cfg.modeMask.toNat * 2 ^ cfg.modeShift < 2 ^ 16 ∧ (∀ m, modeCode cfg m &&& cfg.modeMask = modeCode cfg m)
        ∧ ∀ m m', modeCode cfg m = modeCode cfg m' → m = m')
      ∧ (cfg.bufselBit ≠ cfg.bg2Bit ∧ (cfg.modeMask.toNat * 2 ^ cfg.modeShift).testBit cfg.bufselBit = false
        ∧ (cfg.modeMask.toNat * 2 ^ cfg.modeShift).testBit cfg.bg2Bit = false)
      ∧ (40960 ≤ cfg.frameBOffset ∧ cfg.frameBOffset + 40960 ≤ 98304)
      ∧ (cfg.vramBase + 98304 ≤ 2 ^ 32 ∧ cfg.palBase + 1024 ≤ 2 ^ 32
        ∧ ∀ d ∈ cfg.regtab, d.addr + d.width.bytes ≤ 2 ^ 32)
      ∧ (cfg.vramBase + 98304 ≤ cfg.palBase ∨ cfg.palBase + 1024 ≤ cfg.vramBase)
      ∧ ∀ d ∈ cfg.regtab,
          (cfg.vramBase + 98304 ≤ d.addr ∨ d.addr + d.width.bytes ≤ cfg.vramBase)
          ∧ (cfg.palBase + 1024 ≤ d.addr ∨ d.addr + d.width.bytes ≤ cfg.palBase)

/-! ### The bus -/

/-- R73, R68, R64: under Quiet a load answers what memory holds, 4 bytes as {Mem16(a+2), Mem16(a)}, unless it touches the
display-status word; a load of that word answers what the environment answers next. -/
def Obligations.QuietLoadsReadMemory : Prop :=
  ∀ (s : State) (a : Nat), Quiet s →
    (a ≠ s.cfg.addr 1 → busValue s .w16 a = zext (s.mem.read16 a))
    ∧ (a ≠ s.cfg.addr 1 → a + 2 ≠ s.cfg.addr 1 → busValue s .w32 a = s.mem.read16 (a + 2) ++ s.mem.read16 a)
    ∧ ∀ v rest, s.answers = v :: rest → busValue s .w16 (s.cfg.addr 1) = zext (lowHalf v)

/-- R78: from a state of the invariant, a step only appends to the event history, and every access it issues has an address
and a size the VMC can issue. -/
def Obligations.IssuedAddressesAreAllowed : Prop :=
  ∀ (s t : State), MachineInv s → step s = .next t →
    ∃ es, t.events = s.events ++ es ∧ ∀ e ∈ es, AllowedEvent s.cfg e

/-! ### Encoding -/

/-- R92 to R95: every instruction, with every operand at every value, decodes from its encoding. -/
def Obligations.DecodeOfEncode : Prop :=
  ∀ (i : Instr), decode (encode i) = .ok i

/-- R92, R94: the header of every legal command is the encoder's: no header bit is dropped or invented. -/
def Obligations.HeaderIsDeterminedByInstruction : Prop :=
  ∀ (c : Command) (i : Instr), decode c = .ok i → (encode i).h = c.h

/-- R94, R95: rows never overlap, and a header is legal exactly when it matches a row and, for the two mode-number rows,
ARG[2:0] is 3, 4 or 5. -/
def Obligations.LegalHeadersMatchOneRow : Prop :=
  (∀ (h : Word) (o o' : Op), h &&& o.maskBits = o.matchBits → h &&& o'.maskBits = o'.matchBits → o = o')
  ∧ ∀ (c : Command), (∃ i, decode c = .ok i) ↔
      ∃ o : Op, c.h &&& o.maskBits = o.matchBits
        ∧ (o = .vmConstruct ∨ o = .gfxSwitch → c.h &&& 7 = 3 ∨ c.h &&& 7 = 4 ∨ c.h &&& 7 = 5)

/-- R95, R99, R100: words written out from the opcode map, one or more of every family, and illegal ones of R97. -/
def Obligations.SampleWordsDecode : Prop :=
  decode ⟨0x1A301000, 0x0000FFFF, 0x00001234⟩ = .ok (.regSetm 3 16 0xFFFF 0x1234)
    ∧ decode ⟨0x18000101, 0, 0⟩ = .ok (.regSetb 0 1 true)
    ∧ decode ⟨0x20000004, 0, 0⟩ = .ok (.vmConstruct .m4)
    ∧ decode ⟨0x22000000, 0x00010003, 0x00000012⟩ = .ok (.vmSet 3 1 0x12 0)
    ∧ decode ⟨0x30000005, 0, 0⟩ = .ok (.gfxSwitch .m5)
    ∧ decode ⟨0x40000000, 0x00110221, 0⟩ = .ok (.colRgb 33 2 17 0)
    ∧ decode ⟨0x00000000, 0, 0⟩ = .error .noMatchingRow
    ∧ decode ⟨0x20000006, 0, 0⟩ = .error .badModeNumber
    ∧ encode (expand Cfg.ref (.dcBg2 true)) = ⟨0x18000A01, 0, 0⟩

/-! ### Whole-machine rules -/

/-- The invariant holds after reset, in every well-formed configuration. -/
def Obligations.InvAfterReset : Prop :=
  MachineInv State.reset ∧ ∀ cfg : Cfg, cfg.wf = true → MachineInv (State.resetIn cfg)

/-- Every step keeps the invariant: the width invariant of R22, the reachable triples of R161, the fault record of R33, the
counters of R20, memory's canonical form. -/
def Obligations.InvKeptByStep : Prop :=
  ∀ (s t : State), MachineInv s → step s = .next t → MachineInv t

/-- From a state of the invariant every step answers a next state: the machine never stops with a fault or a refusal. -/
def Obligations.StepNeverStopsFromInv : Prop :=
  ∀ (s : State), MachineInv s → ∃ t, step s = .next t

/-- R161, R29 to R32: an instruction, a step of a command in flight, and any step change (MODE, EN, ACTIVE) only as the
transition table says: a command's own row, the swap of VM.SWAPV in flight, or reset. -/
def Obligations.OnlyTableTransitionsChangeMode : Prop :=
  (∀ (i : Instr) (s t : State), exec i s = .next t → KeepsVideo s t ∨ TableTransition i s t)
  ∧ (∀ (s t : State), MachineInv s → advance s = .next t →
      KeepsVideo s t ∨ (s.seq = .pollSwap ∧ TableTransition .vmSwapv s t))
  ∧ ∀ (s t : State), MachineInv s → step s = .next t →
      KeepsVideo s t
      ∨ (s.seq = .pollSwap ∧ TableTransition .vmSwapv s t)
      ∨ (∃ c rest i, s.port = .command c :: rest ∧ s.seq = .idle ∧ s.halt = false ∧ decode c = .ok i
          ∧ TableTransition i s t)
      ∨ ((∃ rest, s.port = .reset :: rest ∨ ∃ k, s.port = .resetInside k :: rest)
          ∧ t.mode = none ∧ t.en = false ∧ t.active = .a)

/-- R214, R213, R121: a step that halts the VMC is the acceptance of a command (no trap arises in the middle of one) and has
done nothing but take the trap: no access, no change but the fault record,
SEQ and the TRAP response; and the cause is never REGION_OOB. -/
def Obligations.TrapsArePrecise : Prop :=
  ∀ (s t : State), MachineInv s → s.halt = false → step s = .next t → t.halt = true →
    s.seq = .idle ∧ t.fcause ≠ .none ∧ t.fcause ≠ .regionOob
      ∧ Traps t.fopc t.fcause t.finfo { s with port := s.port.tail } t

/-- R215, R217: once halted, only reset ends it: any other step keeps HALT, the fault record, the held words, the modes, memory
and the event history. -/
def Obligations.HaltEndsOnlyByReset : Prop :=
  ∀ (s t : State), MachineInv s → s.halt = true → (∀ rest, s.port ≠ .reset :: rest) →
    (∀ k rest, s.port ≠ .resetInside k :: rest) → step s = .next t →
    KeepsFault s t ∧ KeepsHeld s t ∧ KeepsVideo s t ∧ KeepsSequencer s t ∧ KeepsMemory s t ∧ Issues s t []

/-- R36: enable and switch establish InSync. -/
def Obligations.EnableEstablishesInSync : Prop :=
  ∀ (s t : State) (i : Instr), MachineInv s → s.halt = false → (i = .vmEnable ∨ ∃ m, i = .gfxSwitch m) →
    exec i s = .next t → t.halt = false → InSync t

/-- R36 and R249: under Quiet InSync is kept by every instruction that completes but VM.CONSTRUCT and a REG.WRITE over the
display-control word, and by the steps of the commands in flight. The premise that slots 0 and 1 name different words is the
model's (log 11): where they name one word, a swap loads the display-status word, which R73 leaves to the environment. -/
def Obligations.InSyncKept : Prop :=
  ∀ (s : State), MachineInv s → Quiet s → InSync s → s.cfg.addr 0 ≠ s.cfg.addr 1 →
    (∀ (i : Instr) (t : State), exec i s = .next t → t.halt = false →
      (∀ m, i ≠ .vmConstruct m) →
      (∀ slot d, i = .regWrite slot → HasSlot s slot d →
        d.addr + d.width.bytes ≤ s.cfg.addr 0 ∨ s.cfg.addr 0 + 2 ≤ d.addr) →
      InSync t)
    ∧ ∀ t, advance s = .next t → InSync t

/-- R170: in Mode4 and Mode5, in sync, every address VM.SET, VM.GET and VM.CLEAR touch, at acceptance and at each step of a
clear in flight, lies in the buffer the hardware buffer-select bit does not name; and no access of any step touches the one it
names. -/
def Obligations.PresentedBufferIsNeverTouched : Prop :=
  ∀ (s : State) (m : VideoMode), MachineInv s → InSync s → s.mode = some m → m ≠ .m3 →
    (∀ (i : Instr) (t : State),
      ((∃ x y c hi, i = .vmSet x y c hi) ∨ (∃ x y, i = .vmGet x y) ∨ i = .vmClear) ∧ exec i s = .next t
        ∨ s.seq = .clearing ∧ advance s = .next t →
      ∃ es, t.events = s.events ++ es ∧ ∀ e ∈ es,
        bufferBase s.cfg (otherBuffer (presented s)) ≤ e.address
          ∧ e.address + e.size ≤ bufferBase s.cfg (otherBuffer (presented s)) + frameBytes m)
    ∧ ∀ t, step s = .next t → ∃ es, t.events = s.events ++ es ∧ ∀ e ∈ es,
        e.address + e.size ≤ bufferBase s.cfg (presented s)
          ∨ bufferBase s.cfg (presented s) + frameBytes m ≤ e.address

/-- R259, R90, R96: while the host presents a program, each command gets one response, one in flight at the start its own before
them, and a run is over exactly when SEQ = IDLE and no command waits; nothing happens after that. A run that is over, from a VMC
that is not halted, ended well or in a trap. That commands wait in a list is the model's choice (log 5). -/
def Obligations.RunAnswersEveryCommandOnce : Prop :=
  ∀ (program : List Command) (s t : State), MachineInv s → RunsTo program s t →
    (∃ rs, t.responses = s.responses ++ rs
      ∧ rs.length + t.port.length + inFlight t = program.length + inFlight s)
    ∧ (RunOver program s t ↔ t.seq = .idle ∧ t.port = [])
    ∧ (RunOver program s t → step t = .next t)
    ∧ (RunOver program s t → s.halt = false → EndedWell program s t ∨ EndedInTrap program s t)
end

