-- ==== Sys2Proof/Laws/Bits.lean ====
section
/-! SUPPORT. Words in a slot's width, halves and bytes of a word, and the bit functions, bit by bit. -/

namespace Sys2Proof.Machine

/-! ### Halves and widths -/

theorem zext_getLsbD (v : Half) (i : Nat) : (zext v).getLsbD i = v.getLsbD i := by
  unfold zext
  rw [BitVec.getLsbD_append]
  by_cases h : i < 16
  · simp [h]
  · simp [h, BitVec.getLsbD_of_ge v i (by omega)]

@[simp] theorem zext_toNat (v : Half) : (zext v).toNat = v.toNat := by
  unfold zext
  rw [BitVec.toNat_append]
  simp

theorem lowHalf_getLsbD (v : Word) (i : Nat) : (lowHalf v).getLsbD i = (decide (i < 16) && v.getLsbD i) := by
  simp [lowHalf, BitVec.getLsbD_extractLsb']

theorem highHalf_getLsbD (v : Word) (i : Nat) : (highHalf v).getLsbD i = (decide (i < 16) && v.getLsbD (16 + i)) := by
  simp [highHalf, BitVec.getLsbD_extractLsb']

theorem append_getLsbD (h l : Half) (i : Nat) :
    BitVec.getLsbD (h ++ l : BitVec 32) i = if i < 16 then l.getLsbD i else h.getLsbD (i - 16) := by
  rw [BitVec.getLsbD_append]

@[simp] theorem lowHalf_zext (v : Half) : lowHalf (zext v) = v := by
  apply BitVec.eq_of_getLsbD_eq
  intro i hi
  rw [lowHalf_getLsbD, zext_getLsbD]
  simp only [hi, decide_true, Bool.true_and]

@[simp] theorem highHalf_append (h l : Half) : highHalf (h ++ l : BitVec 32) = h := by
  apply BitVec.eq_of_getLsbD_eq
  intro i hi
  rw [highHalf_getLsbD, append_getLsbD]
  simp [hi]

@[simp] theorem lowHalf_append (h l : Half) : lowHalf (h ++ l : BitVec 32) = l := by
  apply BitVec.eq_of_getLsbD_eq
  intro i hi
  rw [lowHalf_getLsbD, append_getLsbD]
  simp [hi]

theorem append_halves (v : Word) : (highHalf v ++ lowHalf v : BitVec 32) = v := by
  apply BitVec.eq_of_getLsbD_eq
  intro i hi
  rw [append_getLsbD, lowHalf_getLsbD, highHalf_getLsbD]
  split
  · next h => simp [h]
  · next h => simp [show i - 16 < 16 by omega, show 16 + (i - 16) = i by omega]

/-! ### Truncation to W bits -/

theorem ones_getLsbD (w : Width) (i : Nat) : (ones w).getLsbD i = decide (i < w.bits) := by
  have h16 : ones .w16 = BitVec.setWidth 32 (BitVec.allOnes 16) := by decide
  have h32 : ones .w32 = BitVec.allOnes 32 := by decide
  cases w <;> simp only [Width.bits]
  · rw [h16, BitVec.getLsbD_setWidth]
    simp only [BitVec.getLsbD_allOnes]
    by_cases h : i < 16
    · simp [h, show i < 32 by omega]
    · simp [h]
  · rw [h32]
    exact BitVec.getLsbD_allOnes

theorem trunc_getLsbD (w : Width) (v : Word) (i : Nat) :
    (trunc w v).getLsbD i = (decide (i < w.bits) && v.getLsbD i) := by
  simp [trunc, ones_getLsbD, Bool.and_comm]

/-- A value fits W bits exactly when its bits at and above W are 0. -/
theorem fits_iff (w : Width) (v : Word) : v.toNat < 2 ^ w.bits ↔ ∀ i, w.bits ≤ i → v.getLsbD i = false := by
  constructor
  · intro h i hi
    have : v.toNat < 2 ^ i := lt_of_lt_of_le h (Nat.pow_le_pow_right (by omega) hi)
    rw [BitVec.getLsbD]
    exact Nat.testBit_lt_two_pow this
  · intro h
    exact Nat.lt_pow_two_of_testBit _ fun i hi => h i hi

theorem trunc_fits (w : Width) (v : Word) : (trunc w v).toNat < 2 ^ w.bits :=
  (fits_iff w _).2 fun i hi => by rw [trunc_getLsbD]; simp [show ¬ i < w.bits by omega]

/-- Truncation changes nothing of a value that fits. -/
theorem trunc_of_fits {w : Width} {v : Word} (h : v.toNat < 2 ^ w.bits) : trunc w v = v := by
  apply BitVec.eq_of_getLsbD_eq
  intro i _
  rw [trunc_getLsbD]
  by_cases hi : i < w.bits
  · simp [hi]
  · simp [hi, (fits_iff w v).1 h i (by omega)]

theorem and_fits {w : Width} {a b : Word} (h : a.toNat < 2 ^ w.bits) : (a &&& b).toNat < 2 ^ w.bits := by
  rw [fits_iff] at h ⊢
  intro i hi
  simp [h i hi]

theorem or_fits {w : Width} {a b : Word} (ha : a.toNat < 2 ^ w.bits) (hb : b.toNat < 2 ^ w.bits) :
    (a ||| b).toNat < 2 ^ w.bits := by
  rw [fits_iff] at ha hb ⊢
  intro i hi
  simp [ha i hi, hb i hi]

theorem zext_fits (v : Half) : (zext v).toNat < 2 ^ Width.w16.bits := by
  rw [zext_toNat]
  exact v.isLt

@[simp] theorem trunc_zext (v : Half) : trunc .w16 (zext v) = zext v := trunc_of_fits (zext_fits v)

/-- The check `(A >> W(s)) != 0` of R135 says that A fits. -/
theorem shiftRight_eq_zero_iff (w : Width) (v : Word) : v >>> w.bits = 0 ↔ v.toNat < 2 ^ w.bits := by
  rw [← BitVec.toNat_inj]
  simp [Nat.shiftRight_eq_div_pow]

/-! ### The bit functions -/

theorem one_shiftLeft_getLsbD (i j : Nat) (hj : j < 32) : ((1 : Word) <<< i).getLsbD j = decide (j = i) := by
  rw [BitVec.getLsbD_shiftLeft]
  by_cases h : j < i
  · simp [h, show j ≠ i by omega]
  · simp [h, hj]
    omega

theorem getb_eq (v : Word) (i : Nat) : getb v i = if v.getLsbD i then 1 else 0 := by
  apply BitVec.eq_of_getLsbD_eq
  intro j hj
  simp only [getb, BitVec.getLsbD_and, BitVec.getLsbD_ushiftRight]
  by_cases h : j = 0
  · subst h
    cases v.getLsbD i <;> simp
  · have h1 : BitVec.getLsbD (1 : Word) j = false := by simp [BitVec.getLsbD_one, h]
    rw [h1, Bool.and_false]
    split
    · exact h1.symm
    · simp

theorem setb_getLsbD (w : Width) (v : Word) (i : Nat) (b : Bool) (j : Nat) (hj : j < w.bits) :
    (setb w v i b).getLsbD j = if j = i then b else v.getLsbD j := by
  have hj32 : j < 32 := by cases w <;> simp only [Width.bits] at hj <;> omega
  cases b
  · simp only [setb, Bool.false_eq_true, if_false, BitVec.getLsbD_and, trunc_getLsbD, BitVec.getLsbD_not,
      one_shiftLeft_getLsbD _ _ hj32, hj, hj32]
    by_cases h : j = i <;> simp [h]
  · simp only [setb, if_true, BitVec.getLsbD_or, trunc_getLsbD, one_shiftLeft_getLsbD _ _ hj32, hj]
    by_cases h : j = i <;> simp [h]

theorem setb_fits {w : Width} {v : Word} (hv : v.toNat < 2 ^ w.bits) (i : Nat) (b : Bool) :
    (setb w v i b).toNat < 2 ^ w.bits := by
  rw [fits_iff] at hv ⊢
  intro j hj
  cases b
  · simp [setb, hv j hj]
  · simp [setb, hv j hj, trunc_getLsbD, show ¬ j < w.bits by omega]

theorem getm_getLsbD (v m : Word) (sh j : Nat) : (getm v sh m).getLsbD j = (v.getLsbD (sh + j) && m.getLsbD j) := by
  simp [getm]

theorem setm_getLsbD (w : Width) (v : Word) (sh : Nat) (m x : Word) (j : Nat) (hj : j < w.bits) :
    (setm w v sh m x).getLsbD j =
      if sh ≤ j ∧ m.getLsbD (j - sh) = true then x.getLsbD (j - sh) else v.getLsbD j := by
  have hj32 : j < 32 := by cases w <;> simp only [Width.bits] at hj <;> omega
  simp only [setm, BitVec.getLsbD_or, BitVec.getLsbD_and, trunc_getLsbD, BitVec.getLsbD_not,
    BitVec.getLsbD_shiftLeft, hj, hj32, decide_true, Bool.true_and]
  by_cases h : j < sh
  · simp [h, show ¬ sh ≤ j by omega]
  · have h' : sh ≤ j := by omega
    cases hm : m.getLsbD (j - sh) <;> simp [h, h']

theorem setm_fits {w : Width} {v : Word} (hv : v.toNat < 2 ^ w.bits) (sh : Nat) (m x : Word) :
    (setm w v sh m x).toNat < 2 ^ w.bits := by
  rw [fits_iff] at hv ⊢
  intro j hj
  simp [setm, hv j hj, trunc_getLsbD, show ¬ j < w.bits by omega]

end Sys2Proof.Machine
end

