-- ==== Sys2Proof/Laws/Configuration.lean ====
section
/-! SUPPORT. What well-formedness of a configuration gives (R6), in the forms proofs use. -/

namespace Sys2Proof.Machine

/-- The nine conditions of R6. -/
theorem wf_parts {cfg : Cfg} (h : cfg.wf = true) :
    cfg.wfCount = true ∧ cfg.wfWidths = true ∧ cfg.wfSlotAlign = true ∧ cfg.wfBits = true ∧ cfg.wfModeCodes = true
      ∧ cfg.wfControlBits = true ∧ cfg.wfFrameB = true ∧ cfg.wfAddressSpace = true ∧ cfg.wfDisjoint = true := by
  simpa [Cfg.wf, and_assoc] using h

/-- R6 (a), (b): the first two slots exist and are 16 bits wide. -/
theorem first_slots {cfg : Cfg} (h : cfg.wf = true) :
    ∃ d0 d1 rest, cfg.regtab = d0 :: d1 :: rest ∧ d0.width = .w16 ∧ d1.width = .w16
      ∧ cfg.addr 0 = d0.addr ∧ cfg.addr 1 = d1.addr := by
  have hc := (wf_parts h).1
  have hw := (wf_parts h).2.1
  have hl : 2 ≤ cfg.regtab.length := by
    simp only [Cfg.wfCount, Cfg.nreg, Bool.and_eq_true] at hc
    exact of_decide_eq_true hc.1
  simp only [Cfg.wfWidths, Bool.and_eq_true, decide_eq_true_eq] at hw
  rcases hr : cfg.regtab with _ | ⟨d0, _ | ⟨d1, rest⟩⟩
  · rw [hr] at hl
    simp at hl
  · rw [hr] at hl
    simp at hl
  · refine ⟨d0, d1, rest, rfl, ?_, ?_, ?_, ?_⟩ <;> simp [Cfg.slotDef, Cfg.addr, hr] at hw ⊢ <;> simp [hw]

/-- R6 (d). -/
theorem control_bits_lt {cfg : Cfg} (h : cfg.wf = true) :
    cfg.bufselBit < 16 ∧ cfg.bg2Bit < 16 ∧ cfg.vblankBit < 16 := by
  have hb := (wf_parts h).2.2.2.1
  simp only [Cfg.wfBits, Bool.and_eq_true, decide_eq_true_eq] at hb
  omega

/-- The bits of the mode field are the mask's, shifted. -/
theorem modeField_testBit (cfg : Cfg) (j : Nat) :
    cfg.modeField.testBit j = (decide (cfg.modeShift ≤ j) && cfg.modeMask.getLsbD (j - cfg.modeShift)) := by
  unfold Cfg.modeField
  rw [Nat.testBit_mul_two_pow]
  rfl

/-- R6 (e): a mode code lies inside the mode mask. -/
theorem modeCode_and_mask {cfg : Cfg} (h : cfg.wf = true) (m : VideoMode) :
    modeCode cfg m &&& cfg.modeMask = modeCode cfg m := by
  have hm := (wf_parts h).2.2.2.2.1
  simp [Cfg.wfModeCodes] at hm
  cases m <;> simp [modeCode, hm]

/-- R6 (e): the mode field lies inside 16 bits. -/
theorem modeMask_bit_lt {cfg : Cfg} (h : cfg.wf = true) {j : Nat} (hj : cfg.modeMask.getLsbD j = true) :
    cfg.modeShift + j < 16 := by
  have hm := (wf_parts h).2.2.2.2.1
  have hfield : cfg.modeField < 2 ^ 16 := by
    simp [Cfg.wfModeCodes] at hm
    exact hm.1.1.1.1.1.1
  by_contra hcon
  have hset : cfg.modeField.testBit (cfg.modeShift + j) = true := by
    rw [modeField_testBit]
    simp [hj]
  have hclear := Nat.testBit_lt_two_pow
    (lt_of_lt_of_le hfield (Nat.pow_le_pow_right (by omega) (show 16 ≤ cfg.modeShift + j by omega)))
  rw [hset] at hclear
  exact absurd hclear (by simp)

/-- R6 (f): the buffer-select and BG2 bits are different, and outside the mode field. -/
theorem control_bits_apart {cfg : Cfg} (h : cfg.wf = true) :
    cfg.bufselBit ≠ cfg.bg2Bit ∧ cfg.modeField.testBit cfg.bufselBit = false
      ∧ cfg.modeField.testBit cfg.bg2Bit = false := by
  have hc := (wf_parts h).2.2.2.2.2.1
  simp only [Cfg.wfControlBits, Bool.and_eq_true, decide_eq_true_eq, Bool.not_eq_true'] at hc
  exact ⟨hc.1.1, hc.1.2, hc.2⟩

/-- R6 (g). -/
theorem frameB_bounds {cfg : Cfg} (h : cfg.wf = true) :
    40960 ≤ cfg.frameBOffset ∧ cfg.frameBOffset + 40960 ≤ 98304 := by
  have hf := (wf_parts h).2.2.2.2.2.2.1
  simpa [Cfg.wfFrameB, vramBytes] using hf

/-- R6 (h). -/
theorem windows_in_space {cfg : Cfg} (h : cfg.wf = true) :
    cfg.vramBase + 98304 ≤ addressSpace ∧ cfg.palBase + 1024 ≤ addressSpace
      ∧ ∀ d ∈ cfg.regtab, d.addr + d.width.bytes ≤ addressSpace := by
  have ha := (wf_parts h).2.2.2.2.2.2.2.1
  simp only [Cfg.wfAddressSpace, Bool.and_eq_true, List.all_eq_true, decide_eq_true_eq] at ha
  exact ⟨ha.1.1, ha.1.2, ha.2⟩

/-- R6 (i): a slot's bytes lie outside Video RAM and Palette RAM. -/
theorem slot_outside_windows {cfg : Cfg} (h : cfg.wf = true) {d : SlotDef} (hd : d ∈ cfg.regtab) :
    (cfg.vramBase + 98304 ≤ d.addr ∨ d.addr + d.width.bytes ≤ cfg.vramBase)
      ∧ (cfg.palBase + 1024 ≤ d.addr ∨ d.addr + d.width.bytes ≤ cfg.palBase) := by
  have hi := (wf_parts h).2.2.2.2.2.2.2.2
  simp only [Cfg.wfDisjoint, Bool.and_eq_true, List.all_eq_true, disjointRanges, Bool.or_eq_true,
    decide_eq_true_eq] at hi
  exact hi.2 d hd

/-- R6 (i): Video RAM and Palette RAM share no address. -/
theorem windows_disjoint {cfg : Cfg} (h : cfg.wf = true) :
    cfg.vramBase + 98304 ≤ cfg.palBase ∨ cfg.palBase + 1024 ≤ cfg.vramBase := by
  have hi := (wf_parts h).2.2.2.2.2.2.2.2
  simp only [Cfg.wfDisjoint, Bool.and_eq_true, disjointRanges, Bool.or_eq_true, decide_eq_true_eq] at hi
  exact hi.1

/-- The display-control and display-status words lie outside Video RAM and Palette RAM. -/
theorem display_words_outside {cfg : Cfg} (h : cfg.wf = true) {k : Nat} (hk : k < 2) :
    (cfg.vramBase + 98304 ≤ cfg.addr k ∨ cfg.addr k + 2 ≤ cfg.vramBase)
      ∧ (cfg.palBase + 1024 ≤ cfg.addr k ∨ cfg.addr k + 2 ≤ cfg.palBase) := by
  obtain ⟨d0, d1, rest, hr, h0, h1, ha0, ha1⟩ := first_slots h
  have e0 := slot_outside_windows h (d := d0) (by simp [hr])
  have e1 := slot_outside_windows h (d := d1) (by simp [hr])
  rw [h0] at e0
  rw [h1] at e1
  simp only [Width.bytes] at e0 e1
  interval_cases k
  · rw [ha0]
    exact e0
  · rw [ha1]
    exact e1

end Sys2Proof.Machine
end

