-- ==== Sys2Proof/Laws/Memory.lean ====
section
/-! SUPPORT. Memory: a read after a write, and the canonical form kept by every operation. -/

namespace Sys2Proof.Machine

/-! ### One byte -/

@[simp] theorem Memory.read_nil (a : Nat) : Memory.read [] a = Config.launchByte a := rfl

@[simp] theorem Memory.read_cons (k : Nat) (v : Byte) (rest : Memory) (a : Nat) :
    Memory.read ((k, v) :: rest) a = if k = a then v else Memory.read rest a := rfl

/-- Every listed address lies above `lo`. -/
def Memory.above (lo : Option Nat) (a : Nat) : Prop := ∀ l, lo = some l → l < a

theorem Memory.wfAbove_cons {lo : Option Nat} {k : Nat} {v : Byte} {rest : Memory} :
    Memory.wfAbove lo ((k, v) :: rest) = true ↔ Memory.above lo k ∧ Memory.wfAbove (some k) rest = true := by
  cases lo <;> simp [Memory.wfAbove, Memory.above]

/-- A write keeps the canonical form. -/
theorem Memory.wfAbove_write {m : Memory} {lo : Option Nat} {a : Nat} {v : Byte}
    (hm : Memory.wfAbove lo m = true) (ha : Memory.above lo a) : Memory.wfAbove lo (m.write a v) = true := by
  induction m generalizing lo with
  | nil => exact Memory.wfAbove_cons.2 ⟨ha, rfl⟩
  | cons c rest ih =>
    obtain ⟨k, w⟩ := c
    obtain ⟨hk, hr⟩ := Memory.wfAbove_cons.1 hm
    simp only [Memory.write]
    split
    · next h => exact Memory.wfAbove_cons.2 ⟨ha, Memory.wfAbove_cons.2 ⟨fun l hl => by cases hl; exact h, hr⟩⟩
    · split
      · next h => subst h; exact Memory.wfAbove_cons.2 ⟨ha, hr⟩
      · exact Memory.wfAbove_cons.2 ⟨hk, ih hr fun l hl => by cases hl; omega⟩

theorem Memory.wf_write {m : Memory} (hm : m.wf = true) (a : Nat) (v : Byte) : (m.write a v).wf = true :=
  Memory.wfAbove_write hm fun _ h => nomatch h

/-- The basic law of memory: a byte reads as last written, every other byte as before. -/
theorem Memory.read_write {m : Memory} (a b : Nat) (v : Byte) :
    (m.write a v).read b = if a = b then v else m.read b := by
  induction m with
  | nil => rfl
  | cons c rest ih =>
    obtain ⟨k, w⟩ := c
    simp only [Memory.write]
    split
    · rfl
    · split
      · next h =>
        subst h
        simp only [Memory.read_cons]
        split <;> rfl
      · next h =>
        simp only [Memory.read_cons, ih]
        split
        · next hb => subst hb; rw [if_neg h]
        · rfl

theorem Memory.read_write_same {m : Memory} (a : Nat) (v : Byte) : (m.write a v).read a = v := by
  rw [Memory.read_write, if_pos rfl]

theorem Memory.read_write_other {m : Memory} {a b : Nat} (h : a ≠ b) (v : Byte) :
    (m.write a v).read b = m.read b := by
  rw [Memory.read_write, if_neg h]

/-! ### 16-bit and 32-bit values -/

theorem Memory.wf_write16 {m : Memory} (hm : m.wf = true) (a : Nat) (v : Half) : (m.write16 a v).wf = true :=
  Memory.wf_write (Memory.wf_write hm _ _) _ _

theorem Memory.wf_writeWord {m : Memory} (hm : m.wf = true) (w : Width) (a : Nat) (v : Word) :
    (m.writeWord w a v).wf = true := by
  cases w
  · exact Memory.wf_write16 hm _ _
  · exact Memory.wf_write16 (Memory.wf_write16 hm _ _) _ _

theorem Memory.read_write16 {m : Memory} (a b : Nat) (v : Half) :
    (m.write16 a v).read b =
      if b = a then v.extractLsb' 0 8 else if b = a + 1 then v.extractLsb' 8 8 else m.read b := by
  unfold Memory.write16
  rw [Memory.read_write, Memory.read_write]
  by_cases h : b = a
  · subst h
    rw [if_neg (by omega), if_pos rfl, if_pos rfl]
  · by_cases h' : b = a + 1
    · subst h'
      rw [if_pos rfl, if_neg (by omega), if_pos rfl]
    · rw [if_neg (by omega), if_neg (by omega), if_neg h, if_neg h']

theorem Memory.read_write16_outside {m : Memory} {a b : Nat} (v : Half) (h : b < a ∨ a + 2 ≤ b) :
    (m.write16 a v).read b = m.read b := by
  rw [Memory.read_write16, if_neg (by omega), if_neg (by omega)]

theorem halves_of_bytes (v : Half) : (v.extractLsb' 8 8 ++ v.extractLsb' 0 8 : BitVec 16) = v := by
  ext i hi
  simp only [BitVec.getElem_append, BitVec.getElem_extractLsb']
  split
  · simp [BitVec.getLsbD_eq_getElem (show i < 16 by omega)]
  · have : 8 + (i - 8) = i := by omega
    simp [this, BitVec.getLsbD_eq_getElem (show i < 16 by omega)]

theorem Memory.read16_write16_same {m : Memory} (a : Nat) (v : Half) :
    (m.write16 a v).read16 a = v := by
  unfold Memory.read16
  rw [Memory.read_write16, Memory.read_write16, if_neg (by omega), if_pos rfl, if_pos rfl]
  exact halves_of_bytes v

theorem Memory.read16_write16_other {m : Memory} {a b : Nat} (v : Half)
    (h : b + 2 ≤ a ∨ a + 2 ≤ b) : (m.write16 a v).read16 b = m.read16 b := by
  unfold Memory.read16
  rw [Memory.read_write16_outside v (by omega), Memory.read_write16_outside v (by omega)]

/-- A store of n bytes leaves every byte outside [a, a + n) alone. -/
theorem Memory.read_writeWord_outside {m : Memory} (w : Width) {a b : Nat} (v : Word)
    (h : b < a ∨ a + w.bytes ≤ b) : (m.writeWord w a v).read b = m.read b := by
  cases w <;> simp only [Width.bytes] at h <;> simp only [Memory.writeWord]
  · exact Memory.read_write16_outside _ h
  · rw [Memory.read_write16_outside _ (by omega), Memory.read_write16_outside _ (by omega)]

/-! ### Listed addresses -/

/-- A write lists no address but the one written. -/
theorem Memory.mem_write {m : Memory} {a : Nat} {v : Byte} {c : Host.Cell} (h : c ∈ m.write a v) :
    c.1 = a ∨ c ∈ m := by
  induction m with
  | nil => exact .inl (by rw [List.mem_singleton.1 h])
  | cons d rest ih =>
    obtain ⟨k, w⟩ := d
    simp only [Memory.write] at h
    split at h
    · rcases List.mem_cons.1 h with rfl | h
      · exact .inl rfl
      · exact .inr h
    · split at h
      · rcases List.mem_cons.1 h with rfl | h
        · exact .inl rfl
        · exact .inr (List.mem_cons_of_mem _ h)
      · rcases List.mem_cons.1 h with rfl | h
        · exact .inr (List.mem_cons_self ..)
        · exact (ih h).imp id (List.mem_cons_of_mem _)

/-- A store of n bytes lists no address outside [a, a + n) anew. -/
theorem Memory.mem_writeWord {m : Memory} {w : Width} {a : Nat} {v : Word} {c : Host.Cell}
    (h : c ∈ m.writeWord w a v) : (a ≤ c.1 ∧ c.1 < a + w.bytes) ∨ c ∈ m := by
  have two : ∀ {m' : Memory} {b : Nat} {x : Half}, c ∈ m'.write16 b x → (b ≤ c.1 ∧ c.1 < b + 2) ∨ c ∈ m' := by
    intro m' b x hc
    rcases Memory.mem_write hc with h1 | h1
    · exact .inl (by omega)
    · rcases Memory.mem_write h1 with h2 | h2
      · exact .inl (by omega)
      · exact .inr h2
  cases w <;> simp only [Memory.writeWord, Width.bytes] at h ⊢
  · exact two h
  · rcases two h with h1 | h1
    · exact .inl (by omega)
    · rcases two h1 with h2 | h2
      · exact .inl (by omega)
      · exact .inr h2

/-- Reset memory has the canonical form. -/
theorem reset_memory_wf : State.reset.mem.wf = true := rfl

end Sys2Proof.Machine
end

