-- ==== Sys2Proof/Laws/State.lean ====
section
/-! SUPPORT. The state and its updates: for each shared operation one lemma per field, true by rfl, so that no proof
unfolds a record update. -/

namespace Sys2Proof.Machine


/-! ### setHeld -/

@[simp] theorem setHeld_held (s : State) (slot : Fin 16) (v : Word) :
    (setHeld s slot v).held = s.held.set slot v := rfl
@[simp] theorem setHeld_mode (s : State) (slot : Fin 16) (v : Word) :
    (setHeld s slot v).mode = s.mode := rfl
@[simp] theorem setHeld_en (s : State) (slot : Fin 16) (v : Word) :
    (setHeld s slot v).en = s.en := rfl
@[simp] theorem setHeld_active (s : State) (slot : Fin 16) (v : Word) :
    (setHeld s slot v).active = s.active := rfl
@[simp] theorem setHeld_seq (s : State) (slot : Fin 16) (v : Word) :
    (setHeld s slot v).seq = s.seq := rfl
@[simp] theorem setHeld_cx (s : State) (slot : Fin 16) (v : Word) :
    (setHeld s slot v).cx = s.cx := rfl
@[simp] theorem setHeld_cy (s : State) (slot : Fin 16) (v : Word) :
    (setHeld s slot v).cy = s.cy := rfl
@[simp] theorem setHeld_halt (s : State) (slot : Fin 16) (v : Word) :
    (setHeld s slot v).halt = s.halt := rfl
@[simp] theorem setHeld_fcause (s : State) (slot : Fin 16) (v : Word) :
    (setHeld s slot v).fcause = s.fcause := rfl
@[simp] theorem setHeld_finfo (s : State) (slot : Fin 16) (v : Word) :
    (setHeld s slot v).finfo = s.finfo := rfl
@[simp] theorem setHeld_fopc (s : State) (slot : Fin 16) (v : Word) :
    (setHeld s slot v).fopc = s.fopc := rfl
@[simp] theorem setHeld_cfg (s : State) (slot : Fin 16) (v : Word) :
    (setHeld s slot v).cfg = s.cfg := rfl
@[simp] theorem setHeld_mem (s : State) (slot : Fin 16) (v : Word) :
    (setHeld s slot v).mem = s.mem := rfl
@[simp] theorem setHeld_events (s : State) (slot : Fin 16) (v : Word) :
    (setHeld s slot v).events = s.events := rfl
@[simp] theorem setHeld_responses (s : State) (slot : Fin 16) (v : Word) :
    (setHeld s slot v).responses = s.responses := rfl
@[simp] theorem setHeld_port (s : State) (slot : Fin 16) (v : Word) :
    (setHeld s slot v).port = s.port := rfl
@[simp] theorem setHeld_answers (s : State) (slot : Fin 16) (v : Word) :
    (setHeld s slot v).answers = s.answers := rfl
@[simp] theorem setHeld_freeIdx (s : State) (slot : Fin 16) (v : Word) :
    (setHeld s slot v).freeIdx = s.freeIdx := rfl
@[simp] theorem setHeld_quiet (s : State) (slot : Fin 16) (v : Word) :
    (setHeld s slot v).quiet = s.quiet := rfl

/-! ### memRead -/

@[simp] theorem memRead_held (s : State) (w : Width) (a : Nat) :
    (memRead s w a).held = s.held := rfl
@[simp] theorem memRead_mode (s : State) (w : Width) (a : Nat) :
    (memRead s w a).mode = s.mode := rfl
@[simp] theorem memRead_en (s : State) (w : Width) (a : Nat) :
    (memRead s w a).en = s.en := rfl
@[simp] theorem memRead_active (s : State) (w : Width) (a : Nat) :
    (memRead s w a).active = s.active := rfl
@[simp] theorem memRead_seq (s : State) (w : Width) (a : Nat) :
    (memRead s w a).seq = s.seq := rfl
@[simp] theorem memRead_cx (s : State) (w : Width) (a : Nat) :
    (memRead s w a).cx = s.cx := rfl
@[simp] theorem memRead_cy (s : State) (w : Width) (a : Nat) :
    (memRead s w a).cy = s.cy := rfl
@[simp] theorem memRead_halt (s : State) (w : Width) (a : Nat) :
    (memRead s w a).halt = s.halt := rfl
@[simp] theorem memRead_fcause (s : State) (w : Width) (a : Nat) :
    (memRead s w a).fcause = s.fcause := rfl
@[simp] theorem memRead_finfo (s : State) (w : Width) (a : Nat) :
    (memRead s w a).finfo = s.finfo := rfl
@[simp] theorem memRead_fopc (s : State) (w : Width) (a : Nat) :
    (memRead s w a).fopc = s.fopc := rfl
@[simp] theorem memRead_cfg (s : State) (w : Width) (a : Nat) :
    (memRead s w a).cfg = s.cfg := rfl
@[simp] theorem memRead_mem (s : State) (w : Width) (a : Nat) :
    (memRead s w a).mem = s.mem := rfl
@[simp] theorem memRead_events (s : State) (w : Width) (a : Nat) :
    (memRead s w a).events = s.events ++ [.load a w (busValue s w a)] := rfl
@[simp] theorem memRead_responses (s : State) (w : Width) (a : Nat) :
    (memRead s w a).responses = s.responses := rfl
@[simp] theorem memRead_port (s : State) (w : Width) (a : Nat) :
    (memRead s w a).port = s.port := rfl
@[simp] theorem memRead_answers (s : State) (w : Width) (a : Nat) :
    (memRead s w a).answers = answersAfter s w a := rfl
@[simp] theorem memRead_freeIdx (s : State) (w : Width) (a : Nat) :
    (memRead s w a).freeIdx = freeIdxAfter s w a := rfl
@[simp] theorem memRead_quiet (s : State) (w : Width) (a : Nat) :
    (memRead s w a).quiet = s.quiet := rfl

/-! ### memWrite -/

@[simp] theorem memWrite_held (s : State) (w : Width) (a : Nat) (v : Word) :
    (memWrite s w a v).held = s.held := rfl
@[simp] theorem memWrite_mode (s : State) (w : Width) (a : Nat) (v : Word) :
    (memWrite s w a v).mode = s.mode := rfl
@[simp] theorem memWrite_en (s : State) (w : Width) (a : Nat) (v : Word) :
    (memWrite s w a v).en = s.en := rfl
@[simp] theorem memWrite_active (s : State) (w : Width) (a : Nat) (v : Word) :
    (memWrite s w a v).active = s.active := rfl
@[simp] theorem memWrite_seq (s : State) (w : Width) (a : Nat) (v : Word) :
    (memWrite s w a v).seq = s.seq := rfl
@[simp] theorem memWrite_cx (s : State) (w : Width) (a : Nat) (v : Word) :
    (memWrite s w a v).cx = s.cx := rfl
@[simp] theorem memWrite_cy (s : State) (w : Width) (a : Nat) (v : Word) :
    (memWrite s w a v).cy = s.cy := rfl
@[simp] theorem memWrite_halt (s : State) (w : Width) (a : Nat) (v : Word) :
    (memWrite s w a v).halt = s.halt := rfl
@[simp] theorem memWrite_fcause (s : State) (w : Width) (a : Nat) (v : Word) :
    (memWrite s w a v).fcause = s.fcause := rfl
@[simp] theorem memWrite_finfo (s : State) (w : Width) (a : Nat) (v : Word) :
    (memWrite s w a v).finfo = s.finfo := rfl
@[simp] theorem memWrite_fopc (s : State) (w : Width) (a : Nat) (v : Word) :
    (memWrite s w a v).fopc = s.fopc := rfl
@[simp] theorem memWrite_cfg (s : State) (w : Width) (a : Nat) (v : Word) :
    (memWrite s w a v).cfg = s.cfg := rfl
@[simp] theorem memWrite_mem (s : State) (w : Width) (a : Nat) (v : Word) :
    (memWrite s w a v).mem = s.mem.writeWord w a (trunc w v) := rfl
@[simp] theorem memWrite_events (s : State) (w : Width) (a : Nat) (v : Word) :
    (memWrite s w a v).events = s.events ++ [.store a w (trunc w v)] := rfl
@[simp] theorem memWrite_responses (s : State) (w : Width) (a : Nat) (v : Word) :
    (memWrite s w a v).responses = s.responses := rfl
@[simp] theorem memWrite_port (s : State) (w : Width) (a : Nat) (v : Word) :
    (memWrite s w a v).port = s.port := rfl
@[simp] theorem memWrite_answers (s : State) (w : Width) (a : Nat) (v : Word) :
    (memWrite s w a v).answers = s.answers := rfl
@[simp] theorem memWrite_freeIdx (s : State) (w : Width) (a : Nat) (v : Word) :
    (memWrite s w a v).freeIdx = s.freeIdx := rfl
@[simp] theorem memWrite_quiet (s : State) (w : Width) (a : Nat) (v : Word) :
    (memWrite s w a v).quiet = s.quiet := rfl

/-! ### respond -/

@[simp] theorem respond_held (s : State) (v : Word) :
    (respond s v).held = s.held := rfl
@[simp] theorem respond_mode (s : State) (v : Word) :
    (respond s v).mode = s.mode := rfl
@[simp] theorem respond_en (s : State) (v : Word) :
    (respond s v).en = s.en := rfl
@[simp] theorem respond_active (s : State) (v : Word) :
    (respond s v).active = s.active := rfl
@[simp] theorem respond_seq (s : State) (v : Word) :
    (respond s v).seq = s.seq := rfl
@[simp] theorem respond_cx (s : State) (v : Word) :
    (respond s v).cx = s.cx := rfl
@[simp] theorem respond_cy (s : State) (v : Word) :
    (respond s v).cy = s.cy := rfl
@[simp] theorem respond_halt (s : State) (v : Word) :
    (respond s v).halt = s.halt := rfl
@[simp] theorem respond_fcause (s : State) (v : Word) :
    (respond s v).fcause = s.fcause := rfl
@[simp] theorem respond_finfo (s : State) (v : Word) :
    (respond s v).finfo = s.finfo := rfl
@[simp] theorem respond_fopc (s : State) (v : Word) :
    (respond s v).fopc = s.fopc := rfl
@[simp] theorem respond_cfg (s : State) (v : Word) :
    (respond s v).cfg = s.cfg := rfl
@[simp] theorem respond_mem (s : State) (v : Word) :
    (respond s v).mem = s.mem := rfl
@[simp] theorem respond_events (s : State) (v : Word) :
    (respond s v).events = s.events := rfl
@[simp] theorem respond_responses (s : State) (v : Word) :
    (respond s v).responses = s.responses ++ [⟨.ok, .none, v⟩] := rfl
@[simp] theorem respond_port (s : State) (v : Word) :
    (respond s v).port = s.port := rfl
@[simp] theorem respond_answers (s : State) (v : Word) :
    (respond s v).answers = s.answers := rfl
@[simp] theorem respond_freeIdx (s : State) (v : Word) :
    (respond s v).freeIdx = s.freeIdx := rfl
@[simp] theorem respond_quiet (s : State) (v : Word) :
    (respond s v).quiet = s.quiet := rfl

/-! ### takeTrap -/

@[simp] theorem takeTrap_held (s : State) (opc : Byte) (t : Trap) :
    (takeTrap s opc t).held = s.held := rfl
@[simp] theorem takeTrap_mode (s : State) (opc : Byte) (t : Trap) :
    (takeTrap s opc t).mode = s.mode := rfl
@[simp] theorem takeTrap_en (s : State) (opc : Byte) (t : Trap) :
    (takeTrap s opc t).en = s.en := rfl
@[simp] theorem takeTrap_active (s : State) (opc : Byte) (t : Trap) :
    (takeTrap s opc t).active = s.active := rfl
@[simp] theorem takeTrap_seq (s : State) (opc : Byte) (t : Trap) :
    (takeTrap s opc t).seq = .idle := rfl
@[simp] theorem takeTrap_cx (s : State) (opc : Byte) (t : Trap) :
    (takeTrap s opc t).cx = s.cx := rfl
@[simp] theorem takeTrap_cy (s : State) (opc : Byte) (t : Trap) :
    (takeTrap s opc t).cy = s.cy := rfl
@[simp] theorem takeTrap_halt (s : State) (opc : Byte) (t : Trap) :
    (takeTrap s opc t).halt = true := rfl
@[simp] theorem takeTrap_fcause (s : State) (opc : Byte) (t : Trap) :
    (takeTrap s opc t).fcause = t.cause := rfl
@[simp] theorem takeTrap_finfo (s : State) (opc : Byte) (t : Trap) :
    (takeTrap s opc t).finfo = t.info := rfl
@[simp] theorem takeTrap_fopc (s : State) (opc : Byte) (t : Trap) :
    (takeTrap s opc t).fopc = opc := rfl
@[simp] theorem takeTrap_cfg (s : State) (opc : Byte) (t : Trap) :
    (takeTrap s opc t).cfg = s.cfg := rfl
@[simp] theorem takeTrap_mem (s : State) (opc : Byte) (t : Trap) :
    (takeTrap s opc t).mem = s.mem := rfl
@[simp] theorem takeTrap_events (s : State) (opc : Byte) (t : Trap) :
    (takeTrap s opc t).events = s.events := rfl
@[simp] theorem takeTrap_responses (s : State) (opc : Byte) (t : Trap) :
    (takeTrap s opc t).responses = s.responses ++ [⟨.trap, t.cause, t.info⟩] := rfl
@[simp] theorem takeTrap_port (s : State) (opc : Byte) (t : Trap) :
    (takeTrap s opc t).port = s.port := rfl
@[simp] theorem takeTrap_answers (s : State) (opc : Byte) (t : Trap) :
    (takeTrap s opc t).answers = s.answers := rfl
@[simp] theorem takeTrap_freeIdx (s : State) (opc : Byte) (t : Trap) :
    (takeTrap s opc t).freeIdx = s.freeIdx := rfl
@[simp] theorem takeTrap_quiet (s : State) (opc : Byte) (t : Trap) :
    (takeTrap s opc t).quiet = s.quiet := rfl

/-! ### respondHalted -/

@[simp] theorem respondHalted_held (s : State) :
    (respondHalted s).held = s.held := rfl
@[simp] theorem respondHalted_mode (s : State) :
    (respondHalted s).mode = s.mode := rfl
@[simp] theorem respondHalted_en (s : State) :
    (respondHalted s).en = s.en := rfl
@[simp] theorem respondHalted_active (s : State) :
    (respondHalted s).active = s.active := rfl
@[simp] theorem respondHalted_seq (s : State) :
    (respondHalted s).seq = s.seq := rfl
@[simp] theorem respondHalted_cx (s : State) :
    (respondHalted s).cx = s.cx := rfl
@[simp] theorem respondHalted_cy (s : State) :
    (respondHalted s).cy = s.cy := rfl
@[simp] theorem respondHalted_halt (s : State) :
    (respondHalted s).halt = s.halt := rfl
@[simp] theorem respondHalted_fcause (s : State) :
    (respondHalted s).fcause = s.fcause := rfl
@[simp] theorem respondHalted_finfo (s : State) :
    (respondHalted s).finfo = s.finfo := rfl
@[simp] theorem respondHalted_fopc (s : State) :
    (respondHalted s).fopc = s.fopc := rfl
@[simp] theorem respondHalted_cfg (s : State) :
    (respondHalted s).cfg = s.cfg := rfl
@[simp] theorem respondHalted_mem (s : State) :
    (respondHalted s).mem = s.mem := rfl
@[simp] theorem respondHalted_events (s : State) :
    (respondHalted s).events = s.events := rfl
@[simp] theorem respondHalted_responses (s : State) :
    (respondHalted s).responses = s.responses ++ [⟨.halted, s.fcause, s.finfo⟩] := rfl
@[simp] theorem respondHalted_port (s : State) :
    (respondHalted s).port = s.port := rfl
@[simp] theorem respondHalted_answers (s : State) :
    (respondHalted s).answers = s.answers := rfl
@[simp] theorem respondHalted_freeIdx (s : State) :
    (respondHalted s).freeIdx = s.freeIdx := rfl
@[simp] theorem respondHalted_quiet (s : State) :
    (respondHalted s).quiet = s.quiet := rfl

/-! ### present -/

@[simp] theorem present_held (s : State) (c : Command) :
    (present s c).held = s.held := rfl
@[simp] theorem present_mode (s : State) (c : Command) :
    (present s c).mode = s.mode := rfl
@[simp] theorem present_en (s : State) (c : Command) :
    (present s c).en = s.en := rfl
@[simp] theorem present_active (s : State) (c : Command) :
    (present s c).active = s.active := rfl
@[simp] theorem present_seq (s : State) (c : Command) :
    (present s c).seq = .idle := rfl
@[simp] theorem present_cx (s : State) (c : Command) :
    (present s c).cx = s.cx := rfl
@[simp] theorem present_cy (s : State) (c : Command) :
    (present s c).cy = s.cy := rfl
@[simp] theorem present_halt (s : State) (c : Command) :
    (present s c).halt = s.halt := rfl
@[simp] theorem present_fcause (s : State) (c : Command) :
    (present s c).fcause = s.fcause := rfl
@[simp] theorem present_finfo (s : State) (c : Command) :
    (present s c).finfo = s.finfo := rfl
@[simp] theorem present_fopc (s : State) (c : Command) :
    (present s c).fopc = s.fopc := rfl
@[simp] theorem present_cfg (s : State) (c : Command) :
    (present s c).cfg = s.cfg := rfl
@[simp] theorem present_mem (s : State) (c : Command) :
    (present s c).mem = s.mem := rfl
@[simp] theorem present_events (s : State) (c : Command) :
    (present s c).events = s.events := rfl
@[simp] theorem present_responses (s : State) (c : Command) :
    (present s c).responses = s.responses := rfl
@[simp] theorem present_port (s : State) (c : Command) :
    (present s c).port = .command c :: s.port := rfl
@[simp] theorem present_answers (s : State) (c : Command) :
    (present s c).answers = s.answers := rfl
@[simp] theorem present_freeIdx (s : State) (c : Command) :
    (present s c).freeIdx = s.freeIdx := rfl
@[simp] theorem present_quiet (s : State) (c : Command) :
    (present s c).quiet = s.quiet := rfl

/-! ### resetVmc -/

@[simp] theorem State.resetVmc_held (s : State) :
    (s.resetVmc).held = Vector.replicate 16 0 := rfl
@[simp] theorem State.resetVmc_mode (s : State) :
    (s.resetVmc).mode = none := rfl
@[simp] theorem State.resetVmc_en (s : State) :
    (s.resetVmc).en = false := rfl
@[simp] theorem State.resetVmc_active (s : State) :
    (s.resetVmc).active = .a := rfl
@[simp] theorem State.resetVmc_seq (s : State) :
    (s.resetVmc).seq = .idle := rfl
@[simp] theorem State.resetVmc_cx (s : State) :
    (s.resetVmc).cx = 0 := rfl
@[simp] theorem State.resetVmc_cy (s : State) :
    (s.resetVmc).cy = 0 := rfl
@[simp] theorem State.resetVmc_halt (s : State) :
    (s.resetVmc).halt = false := rfl
@[simp] theorem State.resetVmc_fcause (s : State) :
    (s.resetVmc).fcause = .none := rfl
@[simp] theorem State.resetVmc_finfo (s : State) :
    (s.resetVmc).finfo = 0 := rfl
@[simp] theorem State.resetVmc_fopc (s : State) :
    (s.resetVmc).fopc = 0 := rfl
@[simp] theorem State.resetVmc_cfg (s : State) :
    (s.resetVmc).cfg = s.cfg := rfl
@[simp] theorem State.resetVmc_mem (s : State) :
    (s.resetVmc).mem = s.mem := rfl
@[simp] theorem State.resetVmc_events (s : State) :
    (s.resetVmc).events = s.events := rfl
@[simp] theorem State.resetVmc_responses (s : State) :
    (s.resetVmc).responses = s.responses := rfl
@[simp] theorem State.resetVmc_port (s : State) :
    (s.resetVmc).port = s.port := rfl
@[simp] theorem State.resetVmc_answers (s : State) :
    (s.resetVmc).answers = s.answers := rfl
@[simp] theorem State.resetVmc_freeIdx (s : State) :
    (s.resetVmc).freeIdx = s.freeIdx := rfl
@[simp] theorem State.resetVmc_quiet (s : State) :
    (s.resetVmc).quiet = s.quiet := rfl

/-! ### regionRead -/

@[simp] theorem regionRead_held (s : State) (g : Region) (i : Nat) :
    (regionRead s g i).held = s.held := rfl
@[simp] theorem regionRead_mode (s : State) (g : Region) (i : Nat) :
    (regionRead s g i).mode = s.mode := rfl
@[simp] theorem regionRead_en (s : State) (g : Region) (i : Nat) :
    (regionRead s g i).en = s.en := rfl
@[simp] theorem regionRead_active (s : State) (g : Region) (i : Nat) :
    (regionRead s g i).active = s.active := rfl
@[simp] theorem regionRead_seq (s : State) (g : Region) (i : Nat) :
    (regionRead s g i).seq = s.seq := rfl
@[simp] theorem regionRead_cx (s : State) (g : Region) (i : Nat) :
    (regionRead s g i).cx = s.cx := rfl
@[simp] theorem regionRead_cy (s : State) (g : Region) (i : Nat) :
    (regionRead s g i).cy = s.cy := rfl
@[simp] theorem regionRead_halt (s : State) (g : Region) (i : Nat) :
    (regionRead s g i).halt = s.halt := rfl
@[simp] theorem regionRead_fcause (s : State) (g : Region) (i : Nat) :
    (regionRead s g i).fcause = s.fcause := rfl
@[simp] theorem regionRead_finfo (s : State) (g : Region) (i : Nat) :
    (regionRead s g i).finfo = s.finfo := rfl
@[simp] theorem regionRead_fopc (s : State) (g : Region) (i : Nat) :
    (regionRead s g i).fopc = s.fopc := rfl
@[simp] theorem regionRead_cfg (s : State) (g : Region) (i : Nat) :
    (regionRead s g i).cfg = s.cfg := rfl
@[simp] theorem regionRead_mem (s : State) (g : Region) (i : Nat) :
    (regionRead s g i).mem = s.mem := rfl
@[simp] theorem regionRead_events (s : State) (g : Region) (i : Nat) :
    (regionRead s g i).events = s.events ++ [.load (elementAddr g i) .w16 (busValue s .w16 (elementAddr g i))] := rfl
@[simp] theorem regionRead_responses (s : State) (g : Region) (i : Nat) :
    (regionRead s g i).responses = s.responses := rfl
@[simp] theorem regionRead_port (s : State) (g : Region) (i : Nat) :
    (regionRead s g i).port = s.port := rfl
@[simp] theorem regionRead_answers (s : State) (g : Region) (i : Nat) :
    (regionRead s g i).answers = answersAfter s .w16 (elementAddr g i) := rfl
@[simp] theorem regionRead_freeIdx (s : State) (g : Region) (i : Nat) :
    (regionRead s g i).freeIdx = freeIdxAfter s .w16 (elementAddr g i) := rfl
@[simp] theorem regionRead_quiet (s : State) (g : Region) (i : Nat) :
    (regionRead s g i).quiet = s.quiet := rfl

/-! ### regionWrite -/

@[simp] theorem regionWrite_held (s : State) (g : Region) (i : Nat) (v : Half) :
    (regionWrite s g i v).held = s.held := rfl
@[simp] theorem regionWrite_mode (s : State) (g : Region) (i : Nat) (v : Half) :
    (regionWrite s g i v).mode = s.mode := rfl
@[simp] theorem regionWrite_en (s : State) (g : Region) (i : Nat) (v : Half) :
    (regionWrite s g i v).en = s.en := rfl
@[simp] theorem regionWrite_active (s : State) (g : Region) (i : Nat) (v : Half) :
    (regionWrite s g i v).active = s.active := rfl
@[simp] theorem regionWrite_seq (s : State) (g : Region) (i : Nat) (v : Half) :
    (regionWrite s g i v).seq = s.seq := rfl
@[simp] theorem regionWrite_cx (s : State) (g : Region) (i : Nat) (v : Half) :
    (regionWrite s g i v).cx = s.cx := rfl
@[simp] theorem regionWrite_cy (s : State) (g : Region) (i : Nat) (v : Half) :
    (regionWrite s g i v).cy = s.cy := rfl
@[simp] theorem regionWrite_halt (s : State) (g : Region) (i : Nat) (v : Half) :
    (regionWrite s g i v).halt = s.halt := rfl
@[simp] theorem regionWrite_fcause (s : State) (g : Region) (i : Nat) (v : Half) :
    (regionWrite s g i v).fcause = s.fcause := rfl
@[simp] theorem regionWrite_finfo (s : State) (g : Region) (i : Nat) (v : Half) :
    (regionWrite s g i v).finfo = s.finfo := rfl
@[simp] theorem regionWrite_fopc (s : State) (g : Region) (i : Nat) (v : Half) :
    (regionWrite s g i v).fopc = s.fopc := rfl
@[simp] theorem regionWrite_cfg (s : State) (g : Region) (i : Nat) (v : Half) :
    (regionWrite s g i v).cfg = s.cfg := rfl
@[simp] theorem regionWrite_mem (s : State) (g : Region) (i : Nat) (v : Half) :
    (regionWrite s g i v).mem = s.mem.writeWord .w16 (elementAddr g i) (trunc .w16 (zext v)) := rfl
@[simp] theorem regionWrite_events (s : State) (g : Region) (i : Nat) (v : Half) :
    (regionWrite s g i v).events = s.events ++ [.store (elementAddr g i) .w16 (trunc .w16 (zext v))] := rfl
@[simp] theorem regionWrite_responses (s : State) (g : Region) (i : Nat) (v : Half) :
    (regionWrite s g i v).responses = s.responses := rfl
@[simp] theorem regionWrite_port (s : State) (g : Region) (i : Nat) (v : Half) :
    (regionWrite s g i v).port = s.port := rfl
@[simp] theorem regionWrite_answers (s : State) (g : Region) (i : Nat) (v : Half) :
    (regionWrite s g i v).answers = s.answers := rfl
@[simp] theorem regionWrite_freeIdx (s : State) (g : Region) (i : Nat) (v : Half) :
    (regionWrite s g i v).freeIdx = s.freeIdx := rfl
@[simp] theorem regionWrite_quiet (s : State) (g : Region) (i : Nat) (v : Half) :
    (regionWrite s g i v).quiet = s.quiet := rfl

/-! ### constructBody -/

@[simp] theorem constructBody_held (s : State) (m : VideoMode) :
    (constructBody s m).held = s.held := rfl
@[simp] theorem constructBody_mode (s : State) (m : VideoMode) :
    (constructBody s m).mode = some m := rfl
@[simp] theorem constructBody_en (s : State) (m : VideoMode) :
    (constructBody s m).en = false := rfl
@[simp] theorem constructBody_active (s : State) (m : VideoMode) :
    (constructBody s m).active = .a := rfl
@[simp] theorem constructBody_seq (s : State) (m : VideoMode) :
    (constructBody s m).seq = s.seq := rfl
@[simp] theorem constructBody_cx (s : State) (m : VideoMode) :
    (constructBody s m).cx = s.cx := rfl
@[simp] theorem constructBody_cy (s : State) (m : VideoMode) :
    (constructBody s m).cy = s.cy := rfl
@[simp] theorem constructBody_halt (s : State) (m : VideoMode) :
    (constructBody s m).halt = s.halt := rfl
@[simp] theorem constructBody_fcause (s : State) (m : VideoMode) :
    (constructBody s m).fcause = s.fcause := rfl
@[simp] theorem constructBody_finfo (s : State) (m : VideoMode) :
    (constructBody s m).finfo = s.finfo := rfl
@[simp] theorem constructBody_fopc (s : State) (m : VideoMode) :
    (constructBody s m).fopc = s.fopc := rfl
@[simp] theorem constructBody_cfg (s : State) (m : VideoMode) :
    (constructBody s m).cfg = s.cfg := rfl
@[simp] theorem constructBody_mem (s : State) (m : VideoMode) :
    (constructBody s m).mem = s.mem := rfl
@[simp] theorem constructBody_events (s : State) (m : VideoMode) :
    (constructBody s m).events = s.events := rfl
@[simp] theorem constructBody_responses (s : State) (m : VideoMode) :
    (constructBody s m).responses = s.responses := rfl
@[simp] theorem constructBody_port (s : State) (m : VideoMode) :
    (constructBody s m).port = s.port := rfl
@[simp] theorem constructBody_answers (s : State) (m : VideoMode) :
    (constructBody s m).answers = s.answers := rfl
@[simp] theorem constructBody_freeIdx (s : State) (m : VideoMode) :
    (constructBody s m).freeIdx = s.freeIdx := rfl
@[simp] theorem constructBody_quiet (s : State) (m : VideoMode) :
    (constructBody s m).quiet = s.quiet := rfl

/-! ### enableBody -/

@[simp] theorem enableBody_held (s : State) (m : VideoMode) :
    (enableBody s m).held = s.held.set 0 (controlWord s.cfg m s.active) := rfl
@[simp] theorem enableBody_mode (s : State) (m : VideoMode) :
    (enableBody s m).mode = s.mode := rfl
@[simp] theorem enableBody_en (s : State) (m : VideoMode) :
    (enableBody s m).en = true := rfl
@[simp] theorem enableBody_active (s : State) (m : VideoMode) :
    (enableBody s m).active = s.active := rfl
@[simp] theorem enableBody_seq (s : State) (m : VideoMode) :
    (enableBody s m).seq = s.seq := rfl
@[simp] theorem enableBody_cx (s : State) (m : VideoMode) :
    (enableBody s m).cx = s.cx := rfl
@[simp] theorem enableBody_cy (s : State) (m : VideoMode) :
    (enableBody s m).cy = s.cy := rfl
@[simp] theorem enableBody_halt (s : State) (m : VideoMode) :
    (enableBody s m).halt = s.halt := rfl
@[simp] theorem enableBody_fcause (s : State) (m : VideoMode) :
    (enableBody s m).fcause = s.fcause := rfl
@[simp] theorem enableBody_finfo (s : State) (m : VideoMode) :
    (enableBody s m).finfo = s.finfo := rfl
@[simp] theorem enableBody_fopc (s : State) (m : VideoMode) :
    (enableBody s m).fopc = s.fopc := rfl
@[simp] theorem enableBody_cfg (s : State) (m : VideoMode) :
    (enableBody s m).cfg = s.cfg := rfl
@[simp] theorem enableBody_mem (s : State) (m : VideoMode) :
    (enableBody s m).mem = s.mem.writeWord .w16 (s.cfg.addr 0) (trunc .w16 (controlWord s.cfg m s.active)) := rfl
@[simp] theorem enableBody_events (s : State) (m : VideoMode) :
    (enableBody s m).events = s.events ++ [.store (s.cfg.addr 0) .w16 (trunc .w16 (controlWord s.cfg m s.active))] := rfl
@[simp] theorem enableBody_responses (s : State) (m : VideoMode) :
    (enableBody s m).responses = s.responses := rfl
@[simp] theorem enableBody_port (s : State) (m : VideoMode) :
    (enableBody s m).port = s.port := rfl
@[simp] theorem enableBody_answers (s : State) (m : VideoMode) :
    (enableBody s m).answers = s.answers := rfl
@[simp] theorem enableBody_freeIdx (s : State) (m : VideoMode) :
    (enableBody s m).freeIdx = s.freeIdx := rfl
@[simp] theorem enableBody_quiet (s : State) (m : VideoMode) :
    (enableBody s m).quiet = s.quiet := rfl

/-! ### pollLoad -/

@[simp] theorem pollLoad_held (s : State) :
    (pollLoad s).held = s.held.set 1 (busValue s .w16 (s.cfg.addr 1)) := rfl
@[simp] theorem pollLoad_mode (s : State) :
    (pollLoad s).mode = s.mode := rfl
@[simp] theorem pollLoad_en (s : State) :
    (pollLoad s).en = s.en := rfl
@[simp] theorem pollLoad_active (s : State) :
    (pollLoad s).active = s.active := rfl
@[simp] theorem pollLoad_seq (s : State) :
    (pollLoad s).seq = s.seq := rfl
@[simp] theorem pollLoad_cx (s : State) :
    (pollLoad s).cx = s.cx := rfl
@[simp] theorem pollLoad_cy (s : State) :
    (pollLoad s).cy = s.cy := rfl
@[simp] theorem pollLoad_halt (s : State) :
    (pollLoad s).halt = s.halt := rfl
@[simp] theorem pollLoad_fcause (s : State) :
    (pollLoad s).fcause = s.fcause := rfl
@[simp] theorem pollLoad_finfo (s : State) :
    (pollLoad s).finfo = s.finfo := rfl
@[simp] theorem pollLoad_fopc (s : State) :
    (pollLoad s).fopc = s.fopc := rfl
@[simp] theorem pollLoad_cfg (s : State) :
    (pollLoad s).cfg = s.cfg := rfl
@[simp] theorem pollLoad_mem (s : State) :
    (pollLoad s).mem = s.mem := rfl
@[simp] theorem pollLoad_events (s : State) :
    (pollLoad s).events = s.events ++ [.load (s.cfg.addr 1) .w16 (busValue s .w16 (s.cfg.addr 1))] := rfl
@[simp] theorem pollLoad_responses (s : State) :
    (pollLoad s).responses = s.responses := rfl
@[simp] theorem pollLoad_port (s : State) :
    (pollLoad s).port = s.port := rfl
@[simp] theorem pollLoad_answers (s : State) :
    (pollLoad s).answers = answersAfter s .w16 (s.cfg.addr 1) := rfl
@[simp] theorem pollLoad_freeIdx (s : State) :
    (pollLoad s).freeIdx = freeIdxAfter s .w16 (s.cfg.addr 1) := rfl
@[simp] theorem pollLoad_quiet (s : State) :
    (pollLoad s).quiet = s.quiet := rfl

/-! ### finish -/

@[simp] theorem finish_held (s : State) :
    (finish s).held = s.held := rfl
@[simp] theorem finish_mode (s : State) :
    (finish s).mode = s.mode := rfl
@[simp] theorem finish_en (s : State) :
    (finish s).en = s.en := rfl
@[simp] theorem finish_active (s : State) :
    (finish s).active = s.active := rfl
@[simp] theorem finish_seq (s : State) :
    (finish s).seq = .idle := rfl
@[simp] theorem finish_cx (s : State) :
    (finish s).cx = s.cx := rfl
@[simp] theorem finish_cy (s : State) :
    (finish s).cy = s.cy := rfl
@[simp] theorem finish_halt (s : State) :
    (finish s).halt = s.halt := rfl
@[simp] theorem finish_fcause (s : State) :
    (finish s).fcause = s.fcause := rfl
@[simp] theorem finish_finfo (s : State) :
    (finish s).finfo = s.finfo := rfl
@[simp] theorem finish_fopc (s : State) :
    (finish s).fopc = s.fopc := rfl
@[simp] theorem finish_cfg (s : State) :
    (finish s).cfg = s.cfg := rfl
@[simp] theorem finish_mem (s : State) :
    (finish s).mem = s.mem := rfl
@[simp] theorem finish_events (s : State) :
    (finish s).events = s.events := rfl
@[simp] theorem finish_responses (s : State) :
    (finish s).responses = s.responses ++ [⟨.ok, .none, 0⟩] := rfl
@[simp] theorem finish_port (s : State) :
    (finish s).port = s.port := rfl
@[simp] theorem finish_answers (s : State) :
    (finish s).answers = s.answers := rfl
@[simp] theorem finish_freeIdx (s : State) :
    (finish s).freeIdx = s.freeIdx := rfl
@[simp] theorem finish_quiet (s : State) :
    (finish s).quiet = s.quiet := rfl

/-! ### swapBody -/

@[simp] theorem swapBody_held (s : State) :
    (swapBody s).held = s.held.set 0 (swapWord s) := rfl
@[simp] theorem swapBody_mode (s : State) :
    (swapBody s).mode = s.mode := rfl
@[simp] theorem swapBody_en (s : State) :
    (swapBody s).en = s.en := rfl
@[simp] theorem swapBody_active (s : State) :
    (swapBody s).active = otherBuffer s.active := rfl
@[simp] theorem swapBody_seq (s : State) :
    (swapBody s).seq = s.seq := rfl
@[simp] theorem swapBody_cx (s : State) :
    (swapBody s).cx = s.cx := rfl
@[simp] theorem swapBody_cy (s : State) :
    (swapBody s).cy = s.cy := rfl
@[simp] theorem swapBody_halt (s : State) :
    (swapBody s).halt = s.halt := rfl
@[simp] theorem swapBody_fcause (s : State) :
    (swapBody s).fcause = s.fcause := rfl
@[simp] theorem swapBody_finfo (s : State) :
    (swapBody s).finfo = s.finfo := rfl
@[simp] theorem swapBody_fopc (s : State) :
    (swapBody s).fopc = s.fopc := rfl
@[simp] theorem swapBody_cfg (s : State) :
    (swapBody s).cfg = s.cfg := rfl
@[simp] theorem swapBody_mem (s : State) :
    (swapBody s).mem = s.mem.writeWord .w16 (s.cfg.addr 0) (trunc .w16 (swapWord s)) := rfl
@[simp] theorem swapBody_events (s : State) :
    (swapBody s).events = s.events ++ [.load (s.cfg.addr 0) .w16 (busValue s .w16 (s.cfg.addr 0))] ++ [.store (s.cfg.addr 0) .w16 (trunc .w16 (swapWord s))] := rfl
@[simp] theorem swapBody_responses (s : State) :
    (swapBody s).responses = s.responses := rfl
@[simp] theorem swapBody_port (s : State) :
    (swapBody s).port = s.port := rfl
@[simp] theorem swapBody_answers (s : State) :
    (swapBody s).answers = answersAfter s .w16 (s.cfg.addr 0) := rfl
@[simp] theorem swapBody_freeIdx (s : State) :
    (swapBody s).freeIdx = freeIdxAfter s .w16 (s.cfg.addr 0) := rfl
@[simp] theorem swapBody_quiet (s : State) :
    (swapBody s).quiet = s.quiet := rfl

end Sys2Proof.Machine
end

