-- ==== Sys2Proof/Laws/Ops.lean ====
section
/-! SUPPORT. The shared operations: what each can do, said once. -/

namespace Sys2Proof.Machine

/-! ### Held words -/

@[simp] theorem heldAt_setHeld_same (s : State) (slot : Fin 16) (v : Word) : heldAt (setHeld s slot v) slot = v := by
  simp [heldAt, setHeld]

theorem heldAt_setHeld_other (s : State) {slot k : Fin 16} (h : k ≠ slot) (v : Word) :
    heldAt (setHeld s slot v) k = heldAt s k := by
  have : slot.val ≠ k.val := fun e => h (Fin.ext e.symm)
  simp [heldAt, setHeld, Vector.getElem_set_ne, this]

/-- A state with the same register file reads the same held words. -/
theorem heldAt_of_held_eq {s t : State} (h : t.held = s.held) (k : Fin 16) : heldAt t k = heldAt s k := by
  simp [heldAt, h]

/-! ### Checks -/

@[simp] theorem require_eq_none {ok : Bool} {c : Cause} {info : Word} : require ok c info = none ↔ ok = true := by
  cases ok <;> simp [require]

theorem require_eq_some {ok : Bool} {c : Cause} {info : Word} {t : Trap} :
    require ok c info = some t ↔ ok = false ∧ t = ⟨c, info⟩ := by
  cases ok <;> simp [require, eq_comm]

/-- A guarded command traps on its first failing check, with nothing else done, or has its effect. -/
theorem guarded_cases {op : Op} {checks : Option Trap} {effect s : State} {o : Result}
    (h : guarded op checks effect s = o) :
    (∃ tr, checks = some tr ∧ o = .next (takeTrap s op.opc tr)) ∨ (checks = none ∧ o = .next effect) := by
  cases checks with
  | some tr => exact .inl ⟨tr, rfl, h.symm⟩
  | none => exact .inr ⟨rfl, h.symm⟩

@[simp] theorem guarded_none (op : Op) (effect s : State) : guarded op none effect s = .next effect := rfl

@[simp] theorem guarded_some (op : Op) (tr : Trap) (effect s : State) :
    guarded op (some tr) effect s = .next (takeTrap s op.opc tr) := rfl

/-- With every check passed, the effect. -/
theorem guarded_pass {op : Op} {checks : Option Trap} (h : checks = none) (effect s : State) :
    guarded op checks effect s = .next effect := by
  rw [h, guarded_none]

/-- With a failing check, its trap. -/
theorem guarded_trap {op : Op} {checks : Option Trap} {tr : Trap} (h : checks = some tr) (effect s : State) :
    guarded op checks effect s = .next (takeTrap s op.opc tr) := by
  rw [h, guarded_some]

theorem withSlot_of_hasSlot {op : Op} {slot : Fin 16} {s : State} {d : SlotDef} (h : HasSlot s slot d)
    (rest : SlotDef → Result) : withSlot op slot s rest = rest d := by
  unfold HasSlot at h
  simp [withSlot, h]

theorem withSlot_absent {op : Op} {slot : Fin 16} {s : State} (h : s.cfg.nreg ≤ slot.val) (rest : SlotDef → Result) :
    withSlot op slot s rest = .next (takeTrap s op.opc ⟨.badSlot, BitVec.ofNat 32 slot.val⟩) := by
  have : s.cfg.regtab[slot.val]? = none := List.getElem?_eq_none h
  simp [withSlot, this]

/-- A REG command finds its slot, or traps BAD_SLOT. -/
theorem withSlot_cases {op : Op} {slot : Fin 16} {s : State} {rest : SlotDef → Result} {o : Result}
    (h : withSlot op slot s rest = o) :
    (∃ d, HasSlot s slot d ∧ o = rest d) ∨
      o = .next (takeTrap s op.opc ⟨.badSlot, BitVec.ofNat 32 slot.val⟩) := by
  unfold withSlot at h
  split at h
  · next d hd => exact .inl ⟨d, hd, h.symm⟩
  · exact .inr h.symm

theorem withMode_of_mode {op : Op} {s : State} {m : VideoMode} (h : s.mode = some m) (rest : VideoMode → Result) :
    withMode op s rest = rest m := by
  simp [withMode, h]

theorem withMode_none {op : Op} {s : State} (h : s.mode = none) (rest : VideoMode → Result) :
    withMode op s rest = .next (takeTrap s op.opc ⟨.badState, stw s⟩) := by
  simp [withMode, h]

/-- A VM command has a mode, or traps BAD_STATE with STW. -/
theorem withMode_cases {op : Op} {s : State} {rest : VideoMode → Result} {o : Result}
    (h : withMode op s rest = o) :
    (∃ m, s.mode = some m ∧ o = rest m) ∨
      (s.mode = none ∧ o = .next (takeTrap s op.opc ⟨.badState, stw s⟩)) := by
  unfold withMode at h
  split at h
  · next m hm => exact .inl ⟨m, hm, h.symm⟩
  · next hm => exact .inr ⟨hm, h.symm⟩

theorem checkValue_eq_none {d : SlotDef} {v : Word} : checkValue d v = none ↔ Fits d v := by
  simp only [checkValue, require_eq_none, beq_iff_eq, Fits]
  exact shiftRight_eq_zero_iff d.width v

theorem checkValue_of_not_fits {d : SlotDef} {v : Word} (h : ¬ Fits d v) : checkValue d v = some ⟨.badValue, v⟩ := by
  unfold checkValue
  rw [require_eq_some, beq_eq_false_iff_ne]
  exact ⟨fun e => h ((shiftRight_eq_zero_iff d.width v).1 e), rfl⟩

theorem checkShift_of_ge {d : SlotDef} {sh : Fin 32} (h : d.width.bits ≤ sh.val) :
    checkShift d sh = some ⟨.badShift, BitVec.ofNat 32 sh.val⟩ := by
  unfold checkShift
  rw [require_eq_some]
  exact ⟨by simpa using h, rfl⟩

theorem checkShift_eq_none {d : SlotDef} {sh : Fin 32} : checkShift d sh = none ↔ sh.val < d.width.bits := by
  simp [checkShift]

theorem checkCoord_eq_none {m : VideoMode} {x y : Half} : checkCoord m x y = none ↔ InBounds m x y := by
  simp [checkCoord, InBounds]

theorem checkPalette_eq_none {i : Word} : checkPalette i = none ↔ i.toNat < 256 := by
  simp [checkPalette]

/-- The construction checks pass exactly when every Region base is even. -/
theorem checkRegions_eq_none {gs : List Region} : checkRegions gs = none ↔ ∀ g ∈ gs, g.base % 2 = 0 := by
  induction gs with
  | nil => simp [checkRegions]
  | cons g rest ih => simp [checkRegions, Option.or_eq_none_iff, ih, regionAligned]

/-! ### Pixels -/

theorem pixelCell_lt {s : State} {m : VideoMode} {x y : Nat} (hx : x < wd m) (hy : y < ht m) :
    pixelCell m x y < (drawBuffer s m).len := by
  cases m <;> cases h : s.active <;>
    simp only [wd, ht] at hx hy <;>
    simp only [pixelCell, cellIndex, pixelIndex, wd, drawBuffer, drawRegion, bufferRegion, otherBuffer, h, rgnM3, rgnM4A,
      rgnM4B, rgnM5A, rgnM5B] <;> omega

/-- R121: behind the coordinate check no Region check fails. -/
theorem checkPixel_eq_none {s : State} {m : VideoMode} {x y : Nat} (hx : x < wd m) (hy : y < ht m) :
    checkPixel s m x y = none := by
  simp [checkPixel, checkRegion, pixelCell_lt hx hy]

/-- The address of a pixel's cell, as the rules give it. -/
theorem elementAddr_pixelCell (s : State) (m : VideoMode) (x y : Nat) :
    elementAddr (drawBuffer s m) (pixelCell m x y) = cellAddr s m x y := by
  cases m <;> cases h : s.active <;>
    simp [elementAddr, drawBuffer, drawRegion, bufferRegion, otherBuffer, h, rgnM3, rgnM4A, rgnM4B, rgnM5A, rgnM5B,
      pixelCell, cellIndex, pixelIndex, wd, cellAddr, drawBase, bufferBase]

/-! ### The bus -/

/-- Under Quiet a 2-byte load of anything but the display-status word answers what memory holds (R73). -/
theorem busValue_quiet {s : State} (hq : s.quiet = true) {a : Nat} (ha : a ≠ s.cfg.addr 1) :
    busValue s .w16 a = zext (s.mem.read16 a) := by
  simp [busValue, answerHalf, oracleHalf, hq, ha]

/-- A load of the display-status word is always answered by the environment (R73, U8). -/
theorem busValue_status (s : State) : busValue s .w16 (s.cfg.addr 1) = zext (lowHalf (oracle s)) := by
  simp [busValue, answerHalf, oracleHalf]

theorem busValue_fits (s : State) (w : Width) (a : Nat) : (busValue s w a).toNat < 2 ^ w.bits := by
  cases w
  · exact zext_fits _
  · exact (busValue s .w32 a).isLt

end Sys2Proof.Machine
end

