-- ==== Sys2Proof/Laws/Frames.lean ====
section
/-! SUPPORT. What the shared endings of a meaning leave unchanged, said once in the terms of Safety.lean. -/

namespace Sys2Proof.Machine

/-- Trap entry does exactly what R213 says. -/
theorem takeTrap_traps (s : State) (opc : Byte) (tr : Trap) : Traps opc tr.cause tr.info s (takeTrap s opc tr) := by
  refine ⟨rfl, rfl, rfl, rfl, rfl, rfl, fun _ => rfl, ⟨rfl, rfl, rfl⟩, rfl, rfl, fun _ => rfl, ⟨rfl, rfl, rfl⟩,
    ⟨rfl, rfl⟩, ?_⟩
  simp [Issues]

/-- Writing a held word and answering changes nothing else. -/
theorem setHeld_respond_frame (s : State) (slot : Fin 16) (v r : Word) :
    StagedFrame slot s (respond (setHeld s slot v) r) := by
  refine ⟨fun k hk => heldAt_setHeld_other s hk v, ⟨rfl, rfl, rfl⟩, ⟨rfl, rfl, rfl⟩, ⟨rfl, rfl, rfl, rfl⟩, fun _ => rfl,
    ⟨rfl, rfl, rfl⟩, ⟨rfl, rfl⟩, ?_⟩
  simp [Issues]

/-- Answering changes nothing else. -/
theorem respond_frame (s : State) (r : Word) : QueryFrame s (respond s r) := by
  refine ⟨fun _ => rfl, ⟨rfl, rfl, rfl⟩, ⟨rfl, rfl, rfl⟩, ⟨rfl, rfl, rfl, rfl⟩, fun _ => rfl, ⟨rfl, rfl, rfl⟩, ⟨rfl, rfl⟩,
    ?_⟩
  simp [Issues]

/-- A store changes no byte of memory outside the bytes stored to. -/
theorem memWrite_frame {s : State} (w : Width) (a : Nat) (v : Word) :
    KeepsMemoryBut a w.bytes s (memWrite s w a v) :=
  fun _ hb => Memory.read_writeWord_outside w _ hb

/-- After a 2-byte store the word reads as stored. -/
theorem memWrite_read16 {s : State} (a : Nat) (v : Half) :
    (memWrite s .w16 a (zext v)).mem.read16 a = v := by
  rw [memWrite_mem, trunc_zext]
  simp only [Memory.writeWord, lowHalf_zext]
  exact Memory.read16_write16_same a v

/-- A 2-byte store leaves every 2-byte word it does not overlap. -/
theorem memWrite_read16_other {s : State} {a b : Nat} (v : Half) (h : b + 2 ≤ a ∨ a + 2 ≤ b) :
    (memWrite s .w16 a (zext v)).mem.read16 b = s.mem.read16 b := by
  rw [memWrite_mem, trunc_zext]
  simp only [Memory.writeWord, lowHalf_zext]
  exact Memory.read16_write16_other v h

/-- A state's memory stays in canonical form over a store. -/
theorem memWrite_wf {s : State} (hm : s.mem.wf = true) (w : Width) (a : Nat) (v : Word) :
    (memWrite s w a v).mem.wf = true :=
  Memory.wf_writeWord hm _ _ _

end Sys2Proof.Machine
end

