-- ==== Sys2Proof/Laws/Display.lean ====
section
/-! SUPPORT. The display-control word, the swap, the poll and the pixel: the value and the frame of each shared operation. -/

namespace Sys2Proof.Machine

/-- A word that fits 16 bits is its low half. -/
theorem zext_lowHalf {v : Word} (h : v.toNat < 2 ^ Width.w16.bits) : zext (lowHalf v) = v := by
  apply BitVec.eq_of_getLsbD_eq
  intro i hi
  rw [zext_getLsbD, lowHalf_getLsbD]
  by_cases h16 : i < 16
  · simp [h16]
  · simp [h16, (fits_iff .w16 v).1 h i (by simp [Width.bits]; omega)]

/-- STW is the number its fields make (R160). -/
theorem stw_eq_stateWord (s : State) : stw s = stateWord s := by
  unfold stw stateWord
  cases s.active <;> cases s.en <;> rcases s.mode with _ | _ | _ | _ <;> decide

theorem otherBuffer_ne (x : Buffer) : otherBuffer x ≠ x := by cases x <;> simp [otherBuffer]

theorem otherBuffer_otherBuffer (x : Buffer) : otherBuffer (otherBuffer x) = x := by cases x <;> rfl

theorem activeBit_injective {x y : Buffer} (h : activeBit x = activeBit y) : x = y := by
  cases x <;> cases y <;> simp [activeBit] at h ⊢

/-! ### The control word (R164) -/

theorem controlWord_fits (cfg : Cfg) (m : VideoMode) (x : Buffer) :
    (controlWord cfg m x).toNat < 2 ^ Width.w16.bits := by
  unfold controlWord
  have h := setb_fits (w := .w16)
    (setm_fits (w := .w16) (v := 0) (by decide) cfg.modeShift (zext cfg.modeMask) (zext (modeCode cfg m))) cfg.bg2Bit true
  simp only
  split
  · exact setb_fits h _ _
  · exact h

theorem controlWord_getLsbD (cfg : Cfg) (m : VideoMode) (x : Buffer) {j : Nat} (hj : j < 16) :
    (controlWord cfg m x).getLsbD j =
      if doubleBuffered m = true ∧ j = cfg.bufselBit then activeBit x
      else if j = cfg.bg2Bit then true
      else if cfg.modeShift ≤ j ∧ cfg.modeMask.getLsbD (j - cfg.modeShift) = true
        then (modeCode cfg m).getLsbD (j - cfg.modeShift) else false := by
  have base : (setb .w16 (setm .w16 0 cfg.modeShift (zext cfg.modeMask) (zext (modeCode cfg m))) cfg.bg2Bit
      true).getLsbD j = if j = cfg.bg2Bit then true
      else if cfg.modeShift ≤ j ∧ cfg.modeMask.getLsbD (j - cfg.modeShift) = true
        then (modeCode cfg m).getLsbD (j - cfg.modeShift) else false := by
    rw [setb_getLsbD _ _ _ _ _ hj, setm_getLsbD _ _ _ _ _ _ hj]
    simp only [zext_getLsbD, show BitVec.getLsbD (0 : Word) j = false from BitVec.getLsbD_zero]
  unfold controlWord
  cases hd : doubleBuffered m
  · simp only [Bool.false_eq_true, false_and, if_false]
    exact base
  · simp only [if_true, true_and]
    rw [setb_getLsbD _ _ _ _ _ hj, base]

/-! ### The swap (R171) -/

theorem swapWord_fits (s : State) : (swapWord s).toNat < 2 ^ Width.w16.bits := setb_fits (busValue_fits s .w16 _) _ _

theorem swapWord_getLsbD (s : State) {j : Nat} (hj : j < 16) :
    (lowHalf (swapWord s)).getLsbD j =
      if j = s.cfg.bufselBit then activeBit (otherBuffer s.active)
      else (lowHalf (busValue s .w16 (s.cfg.addr 0))).getLsbD j := by
  rw [lowHalf_getLsbD, swapWord, setb_getLsbD _ _ _ _ _ hj, lowHalf_getLsbD]
  simp [hj]

theorem swapBody_heldAt_zero (s : State) : heldAt (swapBody s) 0 = swapWord s :=
  heldAt_setHeld_same (memRead s .w16 (s.cfg.addr 0)) 0 _

theorem swapBody_heldAt_other (s : State) {k : Fin 16} (h : k ≠ 0) : heldAt (swapBody s) k = heldAt s k :=
  heldAt_setHeld_other (memRead s .w16 (s.cfg.addr 0)) h _

theorem swapBody_control (s : State) :
    (swapBody s).mem.read16 (s.cfg.addr 0) = lowHalf (swapWord s) := by
  show (memWrite (setHeld (memRead s .w16 (s.cfg.addr 0)) 0 (swapWord s)) .w16 (s.cfg.addr 0)
    (swapWord s)).mem.read16 _ = _
  conv_lhs => rw [← zext_lowHalf (swapWord_fits s)]
  exact memWrite_read16 (s := setHeld (memRead s .w16 (s.cfg.addr 0)) 0 (swapWord s)) _ _

theorem swapBody_frame (s : State) : KeepsMemoryBut (s.cfg.addr 0) 2 s (swapBody s) :=
  memWrite_frame (s := setHeld (memRead s .w16 (s.cfg.addr 0)) 0 (swapWord s)) .w16 _ _

theorem swapBody_issues (s : State) :
    Issues s (swapBody s) [.load (s.cfg.addr 0) .w16 (busValue s .w16 (s.cfg.addr 0)),
      .store (s.cfg.addr 0) .w16 (swapWord s)] := by
  show (s.events ++ _) ++ [_] = _
  rw [trunc_of_fits (swapWord_fits s)]
  simp

/-! ### The poll (R177) -/

theorem vblankSet_eq (cfg : Cfg) (v : Word) : vblankSet cfg v = v.getLsbD cfg.vblankBit := by
  unfold vblankSet
  rw [getb_eq]
  cases v.getLsbD cfg.vblankBit <;> decide

theorem pollLoad_heldAt_one (s : State) : heldAt (pollLoad s) 1 = busValue s .w16 (s.cfg.addr 1) :=
  heldAt_setHeld_same (memRead s .w16 _) 1 _

theorem pollLoad_heldAt_other (s : State) {k : Fin 16} (h : k ≠ 1) : heldAt (pollLoad s) k = heldAt s k :=
  heldAt_setHeld_other (memRead s .w16 _) h _

/-! ### The pixel (R167) -/

/-- A pixel of Mode3 or Mode5 is one store of its cell. -/
theorem setPixel_direct {s : State} {m : VideoMode} (h : m ≠ .m4) (x y : Nat) (c : Half) :
    setPixel s m x y c = memWrite s .w16 (cellAddr s m x y) (zext c) := by
  rw [← elementAddr_pixelCell]
  cases m
  · rfl
  · exact absurd rfl h
  · rfl

/-- A pixel of Mode4 is a load and a store of its cell. -/
theorem setPixel_mode4 (s : State) (x y : Nat) (c : Half) :
    setPixel s .m4 x y c =
      memWrite (memRead s .w16 (cellAddr s .m4 x y)) .w16 (cellAddr s .m4 x y)
        (zext (replacePixel (x + y * 240) (lowHalf (busValue s .w16 (cellAddr s .m4 x y))) c)) := by
  rw [← elementAddr_pixelCell]
  rfl

/-- The cell of a pixel inside the bounds lies in the draw buffer, which lies in Video RAM. -/
theorem cellAddr_bounds {s : State} (h : s.cfg.wf = true) {m : VideoMode} {x y : Nat} (hx : x < wd m) (hy : y < ht m) :
    drawBase s m ≤ cellAddr s m x y ∧ cellAddr s m x y + 2 ≤ drawBase s m + frameBytes m
      ∧ s.cfg.vramBase ≤ drawBase s m ∧ drawBase s m + frameBytes m ≤ s.cfg.vramBase + 98304 := by
  have hf := frameB_bounds h
  cases m <;> cases ha : s.active <;> simp only [wd, ht] at hx hy <;>
    simp only [cellAddr, drawBase, bufferBase, otherBuffer, ha, frameBytes] <;> omega

/-- The cell of a pixel inside the bounds is neither of the display words. -/
theorem cellAddr_apart {s : State} (h : s.cfg.wf = true) {m : VideoMode} {x y : Nat} (hx : x < wd m) (hy : y < ht m) :
    cellAddr s m x y ≠ s.cfg.addr 1
      ∧ (s.cfg.addr 0 + 2 ≤ cellAddr s m x y ∨ cellAddr s m x y + 2 ≤ s.cfg.addr 0) := by
  have hc := cellAddr_bounds h hx hy
  have h0 := (display_words_outside h (k := 0) (by omega)).1
  have h1 := (display_words_outside h (k := 1) (by omega)).1
  omega

/-- Where a pixel's cell lies depends on the configuration and ACTIVE only. -/
theorem cellAddr_congr {s t : State} (hc : t.cfg = s.cfg) (ha : t.active = s.active) (m : VideoMode) (x y : Nat) :
    cellAddr t m x y = cellAddr s m x y := by
  cases m <;> simp [cellAddr, drawBase, hc, ha]

theorem pixelOfCell_toNat (p : Nat) (cell : Half) :
    (pixelOfCell p cell).toNat = if p % 2 = 0 then cell.toNat % 256 else cell.toNat / 256 := by
  unfold pixelOfCell
  split
  · rw [BitVec.toNat_and, show BitVec.toNat (0x00FF : Half) = 2 ^ 8 - 1 from rfl, Nat.and_two_pow_sub_one_eq_mod]
  · rw [BitVec.toNat_ushiftRight, Nat.shiftRight_eq_div_pow]

end Sys2Proof.Machine
end

