-- ==== Sys2Proof/Laws/Encoding.lean ====
section
/-! SUPPORT. The fields of an encoded header, and rows of the opcode map: a header's OPC names at most one row. -/

namespace Sys2Proof

/-- A header, bit by bit (R92). -/
theorem header_getLsbD (o : Op) (slot : Fin 16) (sh : Fin 32) (arg : Byte) (j : Nat) :
    (header o slot sh arg).getLsbD j =
      if j < 8 then arg.getLsbD j
      else if j < 13 then (BitVec.ofFin (w := 5) sh).getLsbD (j - 8)
      else if j < 20 then false
      else if j < 24 then (BitVec.ofFin (w := 4) slot).getLsbD (j - 20)
      else o.opc.getLsbD (j - 24) := by
  unfold header
  simp only [BitVec.getLsbD_append]
  by_cases h1 : j < 8
  · simp [h1]
  by_cases h2 : j < 13
  · simp [h1, h2, show j - 8 < 5 by omega]
  by_cases h3 : j < 20
  · simp [h1, h2, h3, show ¬ j - 8 < 5 by omega, show j - 8 - 5 < 7 by omega]
  by_cases h4 : j < 24
  · simp only [h1, h2, h3, h4, show ¬ j - 8 < 5 by omega, show ¬ j - 8 - 5 < 7 by omega,
      show j - 8 - 5 - 7 < 4 by omega, if_true, if_false]
    rw [show j - 8 - 5 - 7 = j - 20 by omega]
  · simp only [h1, h2, h3, h4, show ¬ j - 8 < 5 by omega, show ¬ j - 8 - 5 < 7 by omega,
      show ¬ j - 8 - 5 - 7 < 4 by omega, if_false]
    rw [show j - 8 - 5 - 7 - 4 = j - 24 by omega]

theorem opcField_header (o : Op) (slot : Fin 16) (sh : Fin 32) (arg : Byte) :
    opcField (header o slot sh arg) = o.opc := by
  unfold opcField
  apply BitVec.eq_of_getLsbD_eq
  intro i hi
  rw [BitVec.getLsbD_extractLsb', header_getLsbD]
  simp [hi, show ¬ 24 + i < 8 by omega, show ¬ 24 + i < 13 by omega, show ¬ 24 + i < 20 by omega,
    show ¬ 24 + i < 24 by omega]

theorem slotField_header (o : Op) (slot : Fin 16) (sh : Fin 32) (arg : Byte) :
    slotField (header o slot sh arg) = slot := by
  unfold slotField
  have h : (header o slot sh arg).extractLsb' 20 4 = BitVec.ofFin (w := 4) slot := by
    apply BitVec.eq_of_getLsbD_eq
    intro i hi
    rw [BitVec.getLsbD_extractLsb', header_getLsbD]
    simp [hi, show ¬ 20 + i < 8 by omega, show ¬ 20 + i < 13 by omega, show ¬ 20 + i < 20 by omega,
      show 20 + i < 24 by omega]
  rw [h]

theorem shField_header (o : Op) (slot : Fin 16) (sh : Fin 32) (arg : Byte) :
    shField (header o slot sh arg) = sh := by
  unfold shField
  have h : (header o slot sh arg).extractLsb' 8 5 = BitVec.ofFin (w := 5) sh := by
    apply BitVec.eq_of_getLsbD_eq
    intro i hi
    rw [BitVec.getLsbD_extractLsb', header_getLsbD]
    simp [hi, show ¬ 8 + i < 8 by omega, show 8 + i < 13 by omega]
  rw [h]

theorem modeOfNumber_number (m : VideoMode) : modeOfNumber m.number = some m := by cases m <;> decide

/-- Every mask of R95 covers the OPC field. -/
theorem opcField_maskBits (o : Op) : opcField o.maskBits = 0xFF := by cases o <;> decide

theorem Op.opc_injective {o o' : Op} (h : o.opc = o'.opc) : o = o' := by
  cases o <;> cases o' <;> first | rfl | (exfalso; revert h; decide)

/-- A header that matches a row has the row's OPC. -/
theorem opc_of_match {h : Word} {o : Op} (hm : h &&& o.maskBits = o.matchBits) : opcField h = o.opc := by
  have key := congrArg opcField hm
  have e : opcField (h &&& o.maskBits) = opcField h &&& opcField o.maskBits := by
    unfold opcField
    apply BitVec.eq_of_getLsbD_eq
    intro i hi
    simp [hi]
  rw [e, opcField_maskBits] at key
  rw [show o.opc = opcField o.matchBits from rfl, ← key]
  apply BitVec.eq_of_getLsbD_eq
  intro i hi
  have hff : (0xFF : Byte).getLsbD i = true := by interval_cases i <;> decide
  rw [BitVec.getLsbD_and, hff, Bool.and_true]

/-- R94: the row found is the one row that matches. -/
theorem rowOf_eq_some {h : Word} {o : Op} : rowOf h = some o ↔ h &&& o.maskBits = o.matchBits := by
  unfold rowOf
  constructor
  · intro e
    simpa using List.find?_some e
  · intro e
    cases hf : Op.all.find? (fun o => h &&& o.maskBits == o.matchBits) with
    | none =>
      have hn := List.find?_eq_none.1 hf o (by cases o <;> decide)
      simp [e] at hn
    | some o' =>
      have hs := List.find?_some hf
      simp only [beq_iff_eq] at hs
      rw [Op.opc_injective ((opc_of_match hs).symm.trans (opc_of_match e))]

/-- A command whose header matches a row decodes to that row's instruction. -/
theorem decode_of_row {c : Command} {o : Op} (h : c.h &&& o.maskBits = o.matchBits) : decode c = instrOf o c := by
  unfold decode
  rw [rowOf_eq_some.2 h]

/-- What decodes has a row. -/
theorem decode_cases {c : Command} {i : Instr} (h : decode c = .ok i) :
    ∃ o : Op, c.h &&& o.maskBits = o.matchBits ∧ instrOf o c = .ok i := by
  unfold decode at h
  split at h
  · next o ho => exact ⟨o, rowOf_eq_some.1 ho, h⟩
  · simp at h

end Sys2Proof
end

