-- ==== Sys2Proof/Laws/Effects.lean ====
section
/-! SUPPORT. What an instruction can do, said once: it takes one of the traps of R211 and does nothing else, or it has its
effect, behind the checks that passed. -/

namespace Sys2Proof.Machine

/-- The effect of an instruction whose checks passed, in terms of the shared operations. -/
inductive Effect (s : State) : Instr → State → Prop where
  | read (slot : Fin 16) (d : SlotDef) (h : HasSlot s slot d) :
      Effect s (.regRead slot)
        (respond (setHeld (memRead s d.width d.addr) slot (busValue s d.width d.addr)) (busValue s d.width d.addr))
  | write (slot : Fin 16) (d : SlotDef) (h : HasSlot s slot d) :
      Effect s (.regWrite slot) (respond (memWrite s d.width d.addr (heldAt s slot)) 0)
  | staged (i : Instr) (slot : Fin 16) (d : SlotDef) (v : Word) (hi : regSlot i = some slot) (h : HasSlot s slot d)
      (hv : Fits d v) : Effect s i (respond (setHeld s slot v) 0)
  | query (i : Instr) (r : Word) (hi : i ≠ .vmEnable ∧ ∀ m, i ≠ .vmConstruct m ∧ i ≠ .gfxSwitch m) :
      Effect s i (respond s r)
  | construct (m : VideoMode) (h : RegionsAligned s.cfg m) : Effect s (.vmConstruct m) (respond (constructBody s m) 0)
  | enable (m : VideoMode) (h : s.mode = some m) (he : s.en = false) : Effect s .vmEnable (respond (enableBody s m) 0)
  | set (m : VideoMode) (x y c : Half) (h : s.mode = some m) (hb : InBounds m x y) (hc : m = .m4 → c.toNat < 256) :
      Effect s (.vmSet x y c 0) (respond (setPixel s m x.toNat y.toNat c) 0)
  | get (m : VideoMode) (x y : Half) (h : s.mode = some m) (hb : InBounds m x y) :
      Effect s (.vmGet x y) (respond (memRead s .w16 (cellAddr s m x.toNat y.toNat)) (zext (getPixel s m x.toNat y.toNat)))
  | swap (m : VideoMode) (h : s.mode = some m) (h3 : m ≠ .m3) (he : s.en = true) :
      Effect s .vmSwap (respond (swapBody s) 0)
  | clear (m : VideoMode) (h : s.mode = some m) :
      Effect s .vmClear (clearStep { s with seq := .clearing, cx := 0, cy := 0 } m)
  | setpal (k : Word) (c : Half) (h : s.mode = some .m4) (hk : k.toNat < 256) :
      Effect s (.vmSetpal k c 0) (respond (memWrite s .w16 (s.cfg.palBase + 2 * k.toNat) (zext c)) 0)
  | getpal (k : Word) (h : s.mode = some .m4) (hk : k.toNat < 256) :
      Effect s (.vmGetpal k) (respond (memRead s .w16 (s.cfg.palBase + 2 * k.toNat))
        (busValue s .w16 (s.cfg.palBase + 2 * k.toNat)))
  | vsync : Effect s .vmVsync (vsyncStep { s with seq := .poll })
  | swapv (m : VideoMode) (h : s.mode = some m) (he : m = .m3 ∨ s.en = true) :
      Effect s .vmSwapv (swapvStep { s with seq := .pollSwap })
  | switch (m : VideoMode) (h : RegionsAligned s.cfg m) :
      Effect s (.gfxSwitch m) (respond (enableBody (constructBody s m) m) 0)

/-- A trap an instruction can take: it records a cause, and never REGION_OOB (R121). -/
def InstrTrap (i : Instr) (s t : State) : Prop :=
  ∃ tr : Trap, t = takeTrap s (opcOf i) tr ∧ tr.cause ≠ .none ∧ tr.cause ≠ .regionOob

theorem require_cause {ok : Bool} {c : Cause} {info : Word} {tr : Trap} (h : require ok c info = some tr) :
    tr.cause = c := by
  rw [(require_eq_some.1 h).2]

theorem checkRegions_cause {gs : List Region} {tr : Trap} (h : checkRegions gs = some tr) :
    tr.cause = .misalignedRegion := by
  induction gs with
  | nil => simp [checkRegions] at h
  | cons g rest ih =>
    rcases Option.or_eq_some_iff.1 h with h | ⟨_, h⟩
    · exact require_cause h
    · exact ih h

/-- The OPC a trap records is the instruction's own (R213). -/
theorem opcOf_header {o : Op} {slot : Fin 16} {sh : Fin 32} {arg : Byte} {i : Instr} (h : (encode i).h = header o slot sh arg) :
    opcOf i = o.opc := by
  unfold opcOf
  rw [h, opcField_header]

/-- A guarded meaning takes an instruction's trap, or its effect with every check passed. -/
theorem guarded_effect {i : Instr} {o : Op} {checks : Option Trap} {e s t : State} (ho : opcOf i = o.opc)
    (h : guarded o checks e s = .next t)
    (hc : ∀ tr, checks = some tr → tr.cause ≠ .none ∧ tr.cause ≠ .regionOob)
    (he : checks = none → Effect s i e) : InstrTrap i s t ∨ Effect s i t := by
  rcases guarded_cases h with ⟨tr, h1, h2⟩ | ⟨h1, h2⟩
  · cases h2
    exact .inl ⟨tr, by rw [ho], hc tr h1⟩
  · cases h2
    exact .inr (he h1)

theorem withSlot_effect {i : Instr} {o : Op} {slot : Fin 16} {rest : SlotDef → Result} {s t : State}
    (ho : opcOf i = o.opc) (h : withSlot o slot s rest = .next t)
    (hr : ∀ d, HasSlot s slot d → rest d = .next t → InstrTrap i s t ∨ Effect s i t) :
    InstrTrap i s t ∨ Effect s i t := by
  rcases withSlot_cases h with ⟨d, hd, e⟩ | e
  · exact hr d hd e.symm
  · cases e
    exact .inl ⟨_, by rw [ho], by simp, by simp⟩

theorem withMode_effect {i : Instr} {o : Op} {rest : VideoMode → Result} {s t : State}
    (ho : opcOf i = o.opc) (h : withMode o s rest = .next t)
    (hr : ∀ m, s.mode = some m → rest m = .next t → InstrTrap i s t ∨ Effect s i t) :
    InstrTrap i s t ∨ Effect s i t := by
  rcases withMode_cases h with ⟨m, hm, e⟩ | ⟨_, e⟩
  · exact hr m hm e.symm
  · cases e
    exact .inl ⟨_, by rw [ho], by simp, by simp⟩

theorem checkShift_cause {d : SlotDef} {sh : Fin 32} {tr : Trap} (h : checkShift d sh = some tr) :
    tr.cause ≠ .none ∧ tr.cause ≠ .regionOob := by
  rw [require_cause h]
  simp

theorem checkValue_cause {d : SlotDef} {v : Word} {tr : Trap} (h : checkValue d v = some tr) :
    tr.cause ≠ .none ∧ tr.cause ≠ .regionOob := by
  rw [require_cause h]
  simp

/-- A Region check behind a passing coordinate check is never the one that traps. -/
theorem coord_pixel_cause {s : State} {m : VideoMode} {x y : Half} {tr : Trap}
    (h : (checkCoord m x y).or (checkPixel s m x.toNat y.toNat) = some tr) : tr.cause = .coordOob := by
  rcases Option.or_eq_some_iff.1 h with h | ⟨h, h'⟩
  · exact require_cause h
  · have hb := checkCoord_eq_none.1 h
    rw [checkPixel_eq_none hb.1 hb.2] at h'
    simp at h'

theorem palette_region_cause {s : State} {k : Word} {tr : Trap}
    (h : (checkPalette k).or (checkRegion (rgnPal s.cfg) k.toNat) = some tr) : tr.cause = .paletteOob := by
  rcases Option.or_eq_some_iff.1 h with h | ⟨h, h'⟩
  · exact require_cause h
  · have hk := checkPalette_eq_none.1 h
    have : checkRegion (rgnPal s.cfg) k.toNat = none := by simp [checkRegion, rgnPal, hk]
    rw [this] at h'
    simp at h'

/-- A staged transform of slot `slot` whose check passed. -/
theorem staged_effect {i : Instr} {o : Op} {slot : Fin 16} {d : SlotDef} {checks : Option Trap} {v : Word} {s t : State}
    (ho : opcOf i = o.opc) (hs : regSlot i = some slot) (hd : HasSlot s slot d)
    (h : guarded o checks (respond (setHeld s slot (trunc d.width v)) 0) s = .next t)
    (hc : ∀ tr, checks = some tr → tr.cause ≠ .none ∧ tr.cause ≠ .regionOob) : InstrTrap i s t ∨ Effect s i t :=
  guarded_effect ho h hc fun _ => .staged i slot d _ hs hd (trunc_fits _ _)

/-- Every way an instruction that answers a next state goes. -/
theorem exec_cases {i : Instr} {s t : State} (h : exec i s = .next t) : InstrTrap i s t ∨ Effect s i t := by
  cases i with
  | regRead slot =>
    refine withSlot_effect (opcOf_header rfl) h fun d hd e => ?_
    cases e
    exact .inr (.read slot d hd)
  | regWrite slot =>
    refine withSlot_effect (opcOf_header rfl) h fun d hd e => ?_
    cases e
    exact .inr (.write slot d hd)
  | regZero slot =>
    refine withSlot_effect (opcOf_header rfl) h fun d hd e => ?_
    cases e
    exact .inr (.staged _ slot d 0 rfl hd (Nat.two_pow_pos _))
  | regSet slot v =>
    exact withSlot_effect (opcOf_header rfl) h fun d hd e =>
      staged_effect (opcOf_header rfl) rfl hd e fun _ => checkValue_cause
  | regAnd slot v =>
    exact withSlot_effect (opcOf_header rfl) h fun d hd e =>
      staged_effect (opcOf_header rfl) rfl hd e fun _ => checkValue_cause
  | regOr slot v =>
    exact withSlot_effect (opcOf_header rfl) h fun d hd e =>
      staged_effect (opcOf_header rfl) rfl hd e fun _ => checkValue_cause
  | regClear slot v =>
    exact withSlot_effect (opcOf_header rfl) h fun d hd e =>
      staged_effect (opcOf_header rfl) rfl hd e fun _ => checkValue_cause
  | regGetb slot j =>
    exact withSlot_effect (opcOf_header rfl) h fun d hd e =>
      guarded_effect (opcOf_header rfl) e (fun _ => checkShift_cause) fun _ => .query _ _ (by simp)
  | regSetb slot j bit =>
    exact withSlot_effect (opcOf_header rfl) h fun d hd e =>
      staged_effect (opcOf_header rfl) rfl hd e fun _ => checkShift_cause
  | regGetm slot sh m =>
    exact withSlot_effect (opcOf_header rfl) h fun d hd e =>
      guarded_effect (opcOf_header rfl) e
        (fun _ ht => (Option.or_eq_some_iff.1 ht).elim checkShift_cause fun ht => checkValue_cause ht.2)
        fun _ => .query _ _ (by simp)
  | regSetm slot sh m v =>
    exact withSlot_effect (opcOf_header rfl) h fun d hd e =>
      staged_effect (opcOf_header rfl) rfl hd e fun _ ht =>
        (Option.or_eq_some_iff.1 ht).elim checkShift_cause fun ht =>
          (Option.or_eq_some_iff.1 ht.2).elim checkValue_cause fun ht => checkValue_cause ht.2
  | vmConstruct m =>
    exact guarded_effect (opcOf_header rfl) h (fun _ ht => by simp [checkRegions_cause ht])
      fun hn => .construct m (checkRegions_eq_none.1 hn)
  | vmEnable =>
    exact withMode_effect (opcOf_header rfl) h fun m hm e =>
      guarded_effect (opcOf_header rfl) e (fun _ ht => by simp [require_cause ht])
        fun hn => .enable m hm (by simpa using require_eq_none.1 hn)
  | vmSet x y c hi =>
    refine withMode_effect (opcOf_header rfl) h fun m hm e =>
      guarded_effect (opcOf_header rfl) e (fun _ ht => ?_) fun hn => ?_
    · rcases Option.or_eq_some_iff.1 ht with ht | ⟨_, ht⟩
      · simp [require_cause ht]
      · rcases Option.or_eq_some_iff.1 ht with ht | ⟨_, ht⟩
        · simp [require_cause ht]
        · simp [coord_pixel_cause ht]
    · rw [Option.or_eq_none_iff, Option.or_eq_none_iff, Option.or_eq_none_iff] at hn
      obtain ⟨hz, hv, hb, -⟩ := hn
      have hz' : hi = 0 := by simpa [checkZero] using hz
      subst hz'
      refine .set m x y c hm (checkCoord_eq_none.1 hb) fun h4 => ?_
      have := require_eq_none.1 hv
      simp [h4] at this
      omega
  | vmGet x y =>
    refine withMode_effect (opcOf_header rfl) h fun m hm e =>
      guarded_effect (opcOf_header rfl) e (fun _ ht => by simp [coord_pixel_cause ht]) fun hn => ?_
    rw [Option.or_eq_none_iff] at hn
    rw [regionRead, elementAddr_pixelCell]
    exact .get m x y hm (checkCoord_eq_none.1 hn.1)
  | vmSwap =>
    refine withMode_effect (opcOf_header rfl) h fun m hm e => ?_
    split at e
    · cases e
      exact .inr (.query _ _ (by simp))
    · next h3 =>
      exact guarded_effect (opcOf_header rfl) e (fun _ ht => by simp [require_cause ht])
        fun hn => .swap m hm h3 (require_eq_none.1 hn)
  | vmClear =>
    refine withMode_effect (opcOf_header rfl) h fun m hm e => ?_
    cases e
    exact .inr (.clear m hm)
  | vmBounds =>
    refine withMode_effect (opcOf_header rfl) h fun m hm e => ?_
    cases e
    exact .inr (.query _ _ (by simp))
  | vmSetpal k c hi =>
    refine withMode_effect (opcOf_header rfl) h fun m hm e =>
      guarded_effect (opcOf_header rfl) e (fun _ ht => ?_) fun hn => ?_
    · rcases Option.or_eq_some_iff.1 ht with ht | ⟨_, ht⟩
      · simp [require_cause ht]
      · rcases Option.or_eq_some_iff.1 ht with ht | ⟨_, ht⟩
        · simp [require_cause ht]
        · simp [palette_region_cause ht]
    · rw [Option.or_eq_none_iff, Option.or_eq_none_iff, Option.or_eq_none_iff] at hn
      obtain ⟨h4, hz, hk, -⟩ := hn
      have hz' : hi = 0 := by simpa [checkZero] using hz
      have h4' : m = .m4 := by simpa using h4
      subst hz' h4'
      exact .setpal k c hm (checkPalette_eq_none.1 hk)
  | vmGetpal k =>
    refine withMode_effect (opcOf_header rfl) h fun m hm e =>
      guarded_effect (opcOf_header rfl) e (fun _ ht => ?_) fun hn => ?_
    · rcases Option.or_eq_some_iff.1 ht with ht | ⟨_, ht⟩
      · simp [require_cause ht]
      · simp [palette_region_cause ht]
    · rw [Option.or_eq_none_iff, Option.or_eq_none_iff] at hn
      have h4' : m = .m4 := by simpa using hn.1
      subst h4'
      rw [regionValue, zext_lowHalf (busValue_fits s .w16 _)]
      exact .getpal k hm (checkPalette_eq_none.1 hn.2.1)
  | vmVsync =>
    cases h
    exact .inr .vsync
  | vmSwapv =>
    exact withMode_effect (opcOf_header rfl) h fun m hm e =>
      guarded_effect (opcOf_header rfl) e (fun _ ht => by simp [require_cause ht])
        fun hn => .swapv m hm (by simpa using require_eq_none.1 hn)
  | gfxSwitch m =>
    exact guarded_effect (opcOf_header rfl) h (fun _ ht => by simp [checkRegions_cause ht])
      fun hn => .switch m (checkRegions_eq_none.1 hn)
  | colRgb r g b hi =>
    exact guarded_effect (opcOf_header rfl) h (fun _ ht => by simp [require_cause ht]) fun _ => .query _ _ (by simp)

end Sys2Proof.Machine
end

