-- ==== Sys2Proof/Laws/PerInstr.lean ====
section
/-! SUPPORT. Laws stated of every instruction as syntax, one lemma per constructor: the header an instruction encodes to
matches the instruction's own row of the opcode map (R94, R95). -/

namespace Sys2Proof.Laws

/-- The row of the opcode map an instruction is written by (R95). -/
def rowOfInstr : Instr → Op
  | .regRead _ => .regRead
  | .regWrite _ => .regWrite
  | .regZero _ => .regZero
  | .regSet _ _ => .regSet
  | .regAnd _ _ => .regAnd
  | .regOr _ _ => .regOr
  | .regClear _ _ => .regClear
  | .regGetb _ _ => .regGetb
  | .regSetb _ _ _ => .regSetb
  | .regGetm _ _ _ => .regGetm
  | .regSetm _ _ _ _ => .regSetm
  | .vmConstruct _ => .vmConstruct
  | .vmEnable => .vmEnable
  | .vmSet _ _ _ _ => .vmSet
  | .vmGet _ _ => .vmGet
  | .vmSwap => .vmSwap
  | .vmClear => .vmClear
  | .vmBounds => .vmBounds
  | .vmSetpal _ _ _ => .vmSetpal
  | .vmGetpal _ => .vmGetpal
  | .vmVsync => .vmVsync
  | .vmSwapv => .vmSwapv
  | .gfxSwitch _ => .gfxSwitch
  | .colRgb _ _ _ _ => .colRgb

/-- A header matches its row when each field is one the row's mask leaves open, or zero. -/
theorem header_matches (o : Op) (slot : Fin 16) (sh : Fin 32) (arg : Byte)
    (hs : opcField (o.maskBits <<< 4) = 0xF0 ∨ slot = 0) (hh : byteField o.maskBits 1 &&& 0x1F = 0 ∨ sh = 0)
    (ha : arg &&& byteField o.maskBits 0 = 0) : header o slot sh arg &&& o.maskBits = o.matchBits := by
  apply BitVec.eq_of_getLsbD_eq
  intro j hj
  rw [BitVec.getLsbD_and, header_getLsbD]
  by_cases h1 : j < 8
  · have hj' := congrArg (fun x : Byte => x.getLsbD j) ha
    have e : o.matchBits.getLsbD j = false := by interval_cases j <;> cases o <;> decide
    have e2 : (byteField o.maskBits 0).getLsbD j = o.maskBits.getLsbD j := by
      rw [byteField, BitVec.getLsbD_extractLsb', Nat.mul_zero, Nat.zero_add, decide_eq_true h1, Bool.true_and]
    simp only [BitVec.getLsbD_and, e2] at hj'
    rw [if_pos h1, e]
    exact hj'.trans BitVec.getLsbD_zero
  by_cases h2 : j < 13
  · have e : o.matchBits.getLsbD j = false := by interval_cases j <;> cases o <;> decide
    rw [if_neg h1, if_pos h2, e]
    rcases hh with h | h
    · have hz : o.maskBits.getLsbD j = false := by
        interval_cases j <;> cases o <;> (revert h; decide)
      rw [hz, Bool.and_false]
    · subst h
      simp
  by_cases h3 : j < 20
  · have e : o.matchBits.getLsbD j = false := by interval_cases j <;> cases o <;> decide
    rw [if_neg h1, if_neg h2, if_pos h3, e]
    rfl
  by_cases h4 : j < 24
  · have e : o.matchBits.getLsbD j = false := by interval_cases j <;> cases o <;> decide
    rw [if_neg h1, if_neg h2, if_neg h3, if_pos h4, e]
    rcases hs with h | h
    · have hz : o.maskBits.getLsbD j = false := by
        interval_cases j <;> cases o <;> (revert h; decide)
      rw [hz, Bool.and_false]
    · subst h
      simp
  · have e : o.maskBits.getLsbD j = true := by interval_cases j <;> cases o <;> decide
    have e2 : o.opc.getLsbD (j - 24) = o.matchBits.getLsbD j := by
      rw [Op.opc, opcField, BitVec.getLsbD_extractLsb', show 24 + (j - 24) = j by omega,
        decide_eq_true (show j - 24 < 8 by omega), Bool.true_and]
    rw [if_neg h1, if_neg h2, if_neg h3, if_neg h4, e, Bool.and_true, e2]

end Sys2Proof.Laws

namespace Sys2Proof.Laws.HeaderMatchesRow

/-- The encoded header matches the instruction's own row, and carries its OPC. -/
def Statement (i : Instr) : Prop :=
  (encode i).h &&& (rowOfInstr i).maskBits = (rowOfInstr i).matchBits ∧ opcField (encode i).h = (rowOfInstr i).opc

theorem regRead (slot : Fin 16) : Statement (.regRead slot) :=
  ⟨header_matches _ _ _ _ (.inl (by decide)) (.inr rfl) (by decide), opcField_header _ _ _ _⟩

theorem regWrite (slot : Fin 16) : Statement (.regWrite slot) :=
  ⟨header_matches _ _ _ _ (.inl (by decide)) (.inr rfl) (by decide), opcField_header _ _ _ _⟩

theorem regZero (slot : Fin 16) : Statement (.regZero slot) :=
  ⟨header_matches _ _ _ _ (.inl (by decide)) (.inr rfl) (by decide), opcField_header _ _ _ _⟩

theorem regSet (slot : Fin 16) (v : Word) : Statement (.regSet slot v) :=
  ⟨header_matches _ _ _ _ (.inl (by decide)) (.inr rfl) (by decide), opcField_header _ _ _ _⟩

theorem regAnd (slot : Fin 16) (m : Word) : Statement (.regAnd slot m) :=
  ⟨header_matches _ _ _ _ (.inl (by decide)) (.inr rfl) (by decide), opcField_header _ _ _ _⟩

theorem regOr (slot : Fin 16) (m : Word) : Statement (.regOr slot m) :=
  ⟨header_matches _ _ _ _ (.inl (by decide)) (.inr rfl) (by decide), opcField_header _ _ _ _⟩

theorem regClear (slot : Fin 16) (m : Word) : Statement (.regClear slot m) :=
  ⟨header_matches _ _ _ _ (.inl (by decide)) (.inr rfl) (by decide), opcField_header _ _ _ _⟩

theorem regGetb (slot : Fin 16) (j : Fin 32) : Statement (.regGetb slot j) :=
  ⟨header_matches _ _ _ _ (.inl (by decide)) (.inl (by decide)) (by decide), opcField_header _ _ _ _⟩

theorem regSetb (slot : Fin 16) (j : Fin 32) (bit : Bool) : Statement (.regSetb slot j bit) :=
  ⟨header_matches _ _ _ _ (.inl (by decide)) (.inl (by decide)) (by cases bit <;> decide), opcField_header _ _ _ _⟩

theorem regGetm (slot : Fin 16) (sh : Fin 32) (m : Word) : Statement (.regGetm slot sh m) :=
  ⟨header_matches _ _ _ _ (.inl (by decide)) (.inl (by decide)) (by decide), opcField_header _ _ _ _⟩

theorem regSetm (slot : Fin 16) (sh : Fin 32) (m v : Word) : Statement (.regSetm slot sh m v) :=
  ⟨header_matches _ _ _ _ (.inl (by decide)) (.inl (by decide)) (by decide), opcField_header _ _ _ _⟩

theorem vmConstruct (m : VideoMode) : Statement (.vmConstruct m) :=
  ⟨header_matches _ _ _ _ (.inr rfl) (.inr rfl) (by cases m <;> decide), opcField_header _ _ _ _⟩

theorem vmEnable : Statement .vmEnable :=
  ⟨header_matches _ _ _ _ (.inr rfl) (.inr rfl) (by decide), opcField_header _ _ _ _⟩

theorem vmSet (x y c hi : Half) : Statement (.vmSet x y c hi) :=
  ⟨header_matches _ _ _ _ (.inr rfl) (.inr rfl) (by decide), opcField_header _ _ _ _⟩

theorem vmGet (x y : Half) : Statement (.vmGet x y) :=
  ⟨header_matches _ _ _ _ (.inr rfl) (.inr rfl) (by decide), opcField_header _ _ _ _⟩

theorem vmSwap : Statement .vmSwap :=
  ⟨header_matches _ _ _ _ (.inr rfl) (.inr rfl) (by decide), opcField_header _ _ _ _⟩

theorem vmClear : Statement .vmClear :=
  ⟨header_matches _ _ _ _ (.inr rfl) (.inr rfl) (by decide), opcField_header _ _ _ _⟩

theorem vmBounds : Statement .vmBounds :=
  ⟨header_matches _ _ _ _ (.inr rfl) (.inr rfl) (by decide), opcField_header _ _ _ _⟩

theorem vmSetpal (k : Word) (c hi : Half) : Statement (.vmSetpal k c hi) :=
  ⟨header_matches _ _ _ _ (.inr rfl) (.inr rfl) (by decide), opcField_header _ _ _ _⟩

theorem vmGetpal (k : Word) : Statement (.vmGetpal k) :=
  ⟨header_matches _ _ _ _ (.inr rfl) (.inr rfl) (by decide), opcField_header _ _ _ _⟩

theorem vmVsync : Statement .vmVsync :=
  ⟨header_matches _ _ _ _ (.inr rfl) (.inr rfl) (by decide), opcField_header _ _ _ _⟩

theorem vmSwapv : Statement .vmSwapv :=
  ⟨header_matches _ _ _ _ (.inr rfl) (.inr rfl) (by decide), opcField_header _ _ _ _⟩

theorem gfxSwitch (m : VideoMode) : Statement (.gfxSwitch m) :=
  ⟨header_matches _ _ _ _ (.inr rfl) (.inr rfl) (by cases m <;> decide), opcField_header _ _ _ _⟩

theorem colRgb (r g b hi : Byte) : Statement (.colRgb r g b hi) :=
  ⟨header_matches _ _ _ _ (.inr rfl) (.inr rfl) (by decide), opcField_header _ _ _ _⟩

end Sys2Proof.Laws.HeaderMatchesRow
end

