-- ==== Sys2Proof/Laws/Steps.lean ====
section
/-! SUPPORT. What a step can do, said once (R90, R97, R212, R216, R241). -/

namespace Sys2Proof.Machine

/-- Every way a step of a well-formed configuration goes: nothing presented or an idle step, reset, a command that waits,
a command a halted VMC answers, an illegal command, an instruction, a step with a reset inside it. -/
theorem step_cases {s : State} (hwf : s.cfg.wf = true) :
    (s.port = [] ∧ step s = advance s)
    ∨ (∃ rest, s.port = .idle :: rest ∧ step s = advance { s with port := rest })
    ∨ (∃ rest, s.port = .reset :: rest ∧ step s = .next ({ s with port := rest } : State).resetVmc)
    ∨ (∃ c rest, s.port = .command c :: rest ∧ s.seq ≠ .idle ∧ step s = advance s)
    ∨ (∃ c rest, s.port = .command c :: rest ∧ s.seq = .idle ∧ s.halt = true
        ∧ step s = .next (respondHalted { s with port := rest }))
    ∨ (∃ c rest e, s.port = .command c :: rest ∧ s.seq = .idle ∧ s.halt = false ∧ decode c = .error e
        ∧ step s = .next (takeTrap { s with port := rest } (opcField c.h) ⟨.illegalCommand, c.h⟩))
    ∨ (∃ c rest i, s.port = .command c :: rest ∧ s.seq = .idle ∧ s.halt = false ∧ decode c = .ok i
        ∧ step s = exec i { s with port := rest })
    ∨ (∃ k rest, s.port = .resetInside k :: rest ∧ step s = resetDuring k s (step { s with port := rest })) := by
  have hs : ∀ {u : State}, u.cfg.wf = true → step u = takeInput u.port u := fun h => by
    unfold step configuredStep portStep
    rw [if_pos h]
  rw [hs hwf]
  rcases hp : s.port with _ | ⟨c | _ | _ | k, rest⟩
  · exact .inl ⟨rfl, rfl⟩
  · simp only [takeInput]
    by_cases hq : s.seq = .idle
    · rw [if_pos hq]
      unfold accept
      cases hh : s.halt
      · cases hc : decode c with
        | ok i => exact .inr (.inr (.inr (.inr (.inr (.inr (.inl ⟨c, rest, i, rfl, hq, rfl, hc, by simp⟩))))))
        | error e => exact .inr (.inr (.inr (.inr (.inr (.inl ⟨c, rest, e, rfl, hq, rfl, hc, by simp⟩)))))
      · exact .inr (.inr (.inr (.inr (.inl ⟨c, rest, rfl, hq, rfl, by simp⟩))))
    · rw [if_neg hq]
      exact .inr (.inr (.inr (.inl ⟨c, rest, rfl, hq, rfl⟩)))
  · exact .inr (.inl ⟨rest, rfl, rfl⟩)
  · exact .inr (.inr (.inl ⟨rest, rfl, rfl⟩))
  · refine .inr (.inr (.inr (.inr (.inr (.inr (.inr ⟨k, rest, rfl, ?_⟩))))))
    rw [hs (u := { s with port := rest }) hwf]
    rfl

/-- A run of k + 1 steps is a step, then k steps. -/
theorem run_succ {s u : State} (h : step s = .next u) (k : Nat) :
    Host.Core.run Sys2Proof.core (k + 1) s = Host.Core.run Sys2Proof.core k u := by
  simp only [Host.Core.run]
  rw [show Sys2Proof.core.step s = .next u from h]

end Sys2Proof.Machine
end

