-- ==== Sys2Proof/Laws/Reset.lean ====
section
/-! SUPPORT. The bus accesses of one step, said once: loads, then at most one store; what a reset inside a step leaves
(R241); and that no step changes the configuration or the Quiet premise (R40). -/

namespace Sys2Proof.Machine

/-- Loads issued one after the other from a state, each with the value it answers. -/
def LoadsFrom (s : State) : List BusEvent → Prop
  | [] => True
  | .load a w v :: rest => v = busValue s w a ∧ LoadsFrom (memRead s w a) rest
  | .store _ _ _ :: _ => False

/-- What a load answers depends on memory, the answers, Quiet and the configuration only. -/
theorem busValue_congr {s t : State} (hc : t.cfg = s.cfg) (hm : t.mem = s.mem) (ha : t.answers = s.answers)
    (hf : t.freeIdx = s.freeIdx) (hq : t.quiet = s.quiet) (w : Width) (a : Nat) : busValue t w a = busValue s w a := by
  cases s
  cases t
  simp only at hc hm ha hf hq
  subst hc hm ha hf hq
  cases w <;> rfl

theorem usesOracle_congr {s t : State} (hc : t.cfg = s.cfg) (hq : t.quiet = s.quiet) (w : Width) (a : Nat) :
    usesOracle t w a = usesOracle s w a := by
  cases s
  cases t
  simp only at hc hq
  subst hc hq
  cases w <;> rfl

theorem LoadsFrom.congr {es : List BusEvent} {s t : State} (hc : t.cfg = s.cfg) (hm : t.mem = s.mem)
    (ha : t.answers = s.answers) (hf : t.freeIdx = s.freeIdx) (hq : t.quiet = s.quiet) (h : LoadsFrom s es) :
    LoadsFrom t es := by
  induction es generalizing s t with
  | nil => trivial
  | cons e rest ih =>
    cases e with
    | load a w v =>
      refine ⟨h.1.trans (busValue_congr hc hm ha hf hq w a).symm, ih (s := memRead s w a) hc hm ?_ ?_ hq h.2⟩
      · simp only [memRead_answers, answersAfter, usesOracle_congr hc hq, ha]
      · simp only [memRead_freeIdx, freeIdxAfter, usesOracle_congr hc hq, ha, hf]
    | store a w v => exact h

theorem LoadsFrom.take {es : List BusEvent} {s : State} (h : LoadsFrom s es) (k : Nat) : LoadsFrom s (es.take k) := by
  induction es generalizing s k with
  | nil => simpa using h
  | cons e rest ih =>
    cases k with
    | zero => trivial
    | succ k =>
      cases e with
      | load a w v => exact ⟨h.1, ih h.2 k⟩
      | store a w v => exact h

/-- Loads issued again append themselves to the history, take their answers, and change nothing else. -/
theorem LoadsFrom.reissue {es : List BusEvent} {s : State} (h : LoadsFrom s es) :
    (es.foldl reissue s).events = s.events ++ es
      ∧ ∃ answers freeIdx events, es.foldl Machine.reissue s =
          { s with answers := answers, freeIdx := freeIdx, events := events } := by
  induction es generalizing s with
  | nil => exact ⟨by simp, s.answers, s.freeIdx, s.events, rfl⟩
  | cons e rest ih =>
    cases e with
    | load a w v =>
      obtain ⟨h1, answers, freeIdx, events, h2⟩ := ih h.2
      refine ⟨?_, answers, freeIdx, events, h2⟩
      rw [List.foldl_cons]
      show (rest.foldl Machine.reissue (memRead s w a)).events = _
      rw [h1, memRead_events, h.1, List.append_assoc]
      rfl
    | store a w v => exact h.elim

/-- The accesses from `s` to `t`: loads, then at most one store. -/
def Accesses (s t : State) : Prop :=
  ∃ loads stores, t.events = s.events ++ (loads ++ stores) ∧ LoadsFrom s loads ∧ stores.length ≤ 1

theorem Accesses.none {s t : State} (h : t.events = s.events) : Accesses s t :=
  ⟨[], [], by simp [h], trivial, by simp⟩

theorem Accesses.load {s t : State} {a : Nat} {w : Width} (h : t.events = s.events ++ [.load a w (busValue s w a)]) :
    Accesses s t :=
  ⟨[_], [], by simpa using h, by exact ⟨rfl, trivial⟩, by simp⟩

theorem Accesses.store {s t : State} {a : Nat} {w : Width} {v : Word} (h : t.events = s.events ++ [.store a w v]) :
    Accesses s t :=
  ⟨[], [_], by simpa using h, trivial, by simp⟩

theorem Accesses.loadStore {s t : State} {a b : Nat} {w w' : Width} {v : Word}
    (h : t.events = s.events ++ [.load a w (busValue s w a), .store b w' v]) : Accesses s t :=
  ⟨[_], [_], h, by exact ⟨rfl, trivial⟩, by simp⟩

/-- The accesses do not depend on the parts of the state a load does not read. -/
theorem Accesses.congr {s s' t t' : State} (hc : s'.cfg = s.cfg) (hm : s'.mem = s.mem) (ha : s'.answers = s.answers)
    (hf : s'.freeIdx = s.freeIdx) (hq : s'.quiet = s.quiet) (he : s'.events = s.events) (ht : t'.events = t.events)
    (h : Accesses s t) : Accesses s' t' := by
  obtain ⟨loads, stores, h1, h2, h3⟩ := h
  exact ⟨loads, stores, by rw [ht, he, h1], h2.congr hc hm ha hf hq, h3⟩

theorem Accesses.of_port {s t : State} {port : List HostInput} (h : Accesses { s with port := port } t) : Accesses s t :=
  Accesses.congr (s := { s with port := port }) rfl rfl rfl rfl rfl rfl rfl h

theorem setPixel_accesses (s : State) (m : VideoMode) (x y : Nat) (c : Half) : Accesses s (setPixel s m x y c) := by
  by_cases h4 : m = .m4
  · subst h4
    rw [setPixel_mode4]
    exact .loadStore (by rw [memWrite_events, memRead_events, List.append_assoc]; rfl)
  · rw [setPixel_direct h4]
    exact .store rfl

theorem clearAdvance_events (s : State) (m : VideoMode) : (clearAdvance s m).events = s.events := by
  unfold clearAdvance
  split
  · rfl
  · split <;> rfl

theorem clearStep_accesses (s : State) (m : VideoMode) : Accesses s (clearStep s m) := by
  unfold clearStep
  split
  · exact .none rfl
  · exact (setPixel_accesses s m _ _ 0).congr rfl rfl rfl rfl rfl rfl (clearAdvance_events _ _)

theorem vsyncStep_accesses (s : State) : Accesses s (vsyncStep s) := by
  unfold vsyncStep
  split <;> exact .load rfl

theorem swapBody_accesses (s : State) : Accesses s (swapBody s) := .loadStore (swapBody_issues s)

theorem swapvStep_accesses (s : State) : Accesses s (swapvStep s) := by
  unfold swapvStep
  split
  · split
    · exact .load rfl
    · refine ⟨[.load (s.cfg.addr 1) .w16 (busValue s .w16 (s.cfg.addr 1)),
        .load (s.cfg.addr 0) .w16 (busValue (pollLoad s) .w16 (s.cfg.addr 0))],
        [.store (s.cfg.addr 0) .w16 (swapWord (pollLoad s))], ?_, ⟨rfl, rfl, trivial⟩, by simp⟩
      show (swapBody (pollLoad s)).events = _
      rw [swapBody_issues (pollLoad s), pollLoad_events, List.append_assoc]
      rfl
  · exact .load rfl

theorem advance_accesses {s t : State} (h : advance s = .next t) : Accesses s t := by
  unfold advance at h
  split at h
  · cases h
    exact .none rfl
  · split at h
    · cases h
      exact clearStep_accesses _ _
    · cases h
  · cases h
    exact vsyncStep_accesses s
  · cases h
    exact swapvStep_accesses s

theorem exec_accesses {i : Instr} {s t : State} (h : exec i s = .next t) : Accesses s t := by
  rcases exec_cases h with ⟨tr, rfl, -⟩ | h
  · exact .none rfl
  · cases h with
    | read slot d hd => exact .load rfl
    | write slot d hd => exact .store rfl
    | staged slot d v hi hd hv => exact .none rfl
    | query r hi => exact .none rfl
    | construct m h => exact .none rfl
    | enable m h he => exact .store rfl
    | set m x y c h hb hc => exact setPixel_accesses s m _ _ c
    | get m x y h hb => exact .load rfl
    | swap m h h3 he => exact swapBody_accesses s
    | clear m h => exact Accesses.congr (s := { s with seq := .clearing, cx := 0, cy := 0 }) rfl rfl rfl rfl rfl rfl rfl (clearStep_accesses _ m)
    | setpal k c h hk => exact .store rfl
    | getpal k h hk => exact .load rfl
    | vsync => exact Accesses.congr (s := { s with seq := .poll }) rfl rfl rfl rfl rfl rfl rfl (vsyncStep_accesses _)
    | swapv m h he => exact Accesses.congr (s := { s with seq := .pollSwap }) rfl rfl rfl rfl rfl rfl rfl (swapvStep_accesses _)
    | switch m h => exact .store rfl

/-! ### Reset inside a step -/

theorem resetVmc_vmcReset (s : State) : VmcReset s.resetVmc := by
  refine ⟨fun k => ?_, rfl, rfl, rfl, rfl, rfl, rfl, rfl, rfl, rfl, rfl⟩
  simp [heldAt]

/-- Everything a reset inside a step can leave: with more than `k` accesses, the first `k`, which are loads, and with no more
the whole step; the VMC reset either way. -/
theorem cutByReset_cases {s t : State} {es : List BusEvent} (hacc : Accesses s t) (hes : t.events = s.events ++ es)
    (k : Nat) :
    (es.length ≤ k ∧ cutByReset k s t = t.resetVmc)
    ∨ (k < es.length ∧ LoadsFrom s (es.take k)
        ∧ ∃ answers freeIdx, cutByReset k s t =
            ({ s with events := s.events ++ es.take k, answers := answers, freeIdx := freeIdx, port := t.port } : State).resetVmc) := by
  have hdrop : t.events.drop s.events.length = es := by rw [hes, List.drop_left]
  unfold cutByReset
  simp only [hdrop]
  by_cases hk : k < es.length
  · obtain ⟨loads, stores, h1, h2, h3⟩ := hacc
    have he : es = loads ++ stores := List.append_cancel_left (hes.symm.trans h1)
    have htake : es.take k = loads.take k := by
      rw [he] at hk ⊢
      rw [List.length_append] at hk
      exact List.take_append_of_le_length (by omega)
    have hl : LoadsFrom s (es.take k) := htake ▸ h2.take k
    obtain ⟨r1, answers, freeIdx, events, r2⟩ := hl.reissue
    refine .inr ⟨hk, hl, answers, freeIdx, ?_⟩
    rw [if_pos hk]
    rw [r2] at r1 ⊢
    have : events = s.events ++ es.take k := r1
    rw [this]
  · exact .inl ⟨by omega, by rw [if_neg hk]⟩

theorem resetDuring_next {k : Nat} {s r : State} {o : Result} (h : resetDuring k s o = .next r) :
    ∃ t, o = .next t ∧ r = cutByReset k s t := by
  cases o with
  | next t => exact ⟨t, rfl, (Host.Outcome.next.inj h).symm⟩
  | fault f => cases h
  | refused x => cases h

/-- The accesses of a step: loads, then at most one store. -/
theorem step_accesses {s t : State} (hwf : s.cfg.wf = true) (h : step s = .next t) : Accesses s t := by
  generalize hp : s.port = inputs
  induction inputs generalizing s t with
  | nil =>
    rcases step_cases hwf with ⟨_, e⟩ | ⟨_, hp', _⟩ | ⟨_, hp', _⟩ | ⟨_, _, hp', _⟩ | ⟨_, _, hp', _⟩ | ⟨_, _, _, hp', _⟩
      | ⟨_, _, _, hp', _⟩ | ⟨_, _, hp', _⟩
    · exact advance_accesses (e ▸ h)
    all_goals rw [hp] at hp'; cases hp'
  | cons x rest ih =>
    rcases step_cases hwf with ⟨hp', e⟩ | ⟨_, hp', e⟩ | ⟨_, hp', e⟩ | ⟨_, _, hp', _, e⟩ | ⟨_, _, hp', _, _, e⟩
      | ⟨_, _, _, hp', _, _, _, e⟩ | ⟨_, _, _, hp', _, _, _, e⟩ | ⟨k, _, hp', e⟩ <;> rw [e] at h
    · exact advance_accesses h
    · exact (advance_accesses h).of_port
    · cases h
      exact .none rfl
    · exact advance_accesses h
    · cases h
      exact .none rfl
    · cases h
      exact .none rfl
    · exact (exec_accesses h).of_port
    · rw [hp] at hp'
      cases hp'
      obtain ⟨u, hu, rfl⟩ := resetDuring_next h
      have hacc : Accesses s u := (ih (s := { s with port := rest }) hwf hu rfl).of_port
      obtain ⟨loads, stores, h1, -⟩ := id hacc
      rcases cutByReset_cases hacc h1 k with ⟨_, e⟩ | ⟨_, hl, answers, freeIdx, e⟩
      · rw [e]
        exact hacc.congr rfl rfl rfl rfl rfl rfl rfl
      · rw [e]
        exact ⟨_, [], by rw [List.append_nil]; rfl, hl, by simp⟩

/-! ### What no step changes -/

/-- The configuration and the Quiet premise are unchanged (R40, log 1, log 3). -/
def KeepsParameters (s t : State) : Prop := t.cfg = s.cfg ∧ t.quiet = s.quiet

theorem setPixel_keepsParameters (s : State) (m : VideoMode) (x y : Nat) (c : Half) :
    KeepsParameters s (setPixel s m x y c) := by
  cases m <;> exact ⟨rfl, rfl⟩

theorem clearStep_keepsParameters (s : State) (m : VideoMode) : KeepsParameters s (clearStep s m) := by
  unfold clearStep
  split
  · exact ⟨rfl, rfl⟩
  · have h := setPixel_keepsParameters s m s.cx.toNat s.cy.toNat 0
    unfold clearAdvance
    split
    · exact h
    · split <;> exact h

theorem vsyncStep_keepsParameters (s : State) : KeepsParameters s (vsyncStep s) := by
  unfold vsyncStep
  split <;> exact ⟨rfl, rfl⟩

theorem swapvStep_keepsParameters (s : State) : KeepsParameters s (swapvStep s) := by
  unfold swapvStep
  split
  · split <;> exact ⟨rfl, rfl⟩
  · exact ⟨rfl, rfl⟩

theorem advance_keepsParameters {s t : State} (h : advance s = .next t) : KeepsParameters s t := by
  unfold advance at h
  split at h
  · cases h
    exact ⟨rfl, rfl⟩
  · split at h
    · cases h
      exact clearStep_keepsParameters _ _
    · cases h
  · cases h
    exact vsyncStep_keepsParameters _
  · cases h
    exact swapvStep_keepsParameters _

theorem exec_keepsParameters {i : Instr} {s t : State} (h : exec i s = .next t) : KeepsParameters s t := by
  rcases exec_cases h with ⟨tr, rfl, -⟩ | h
  · exact ⟨rfl, rfl⟩
  · cases h with
    | set m x y c => exact setPixel_keepsParameters s m _ _ c
    | clear m => exact clearStep_keepsParameters { s with seq := .clearing, cx := 0, cy := 0 } m
    | vsync => exact vsyncStep_keepsParameters { s with seq := .poll }
    | swapv => exact swapvStep_keepsParameters { s with seq := .pollSwap }
    | read | write | staged | query | construct | enable | get | swap | setpal | getpal | switch => exact ⟨rfl, rfl⟩

theorem reissue_keepsParameters (es : List BusEvent) (s : State) : KeepsParameters s (es.foldl reissue s) := by
  induction es generalizing s with
  | nil => exact ⟨rfl, rfl⟩
  | cons e rest ih =>
    have h := ih (reissue s e)
    cases e <;> exact h

/-- No step changes the configuration or the Quiet premise. -/
theorem step_keepsParameters {s t : State} (hwf : s.cfg.wf = true) (h : step s = .next t) : KeepsParameters s t := by
  generalize hp : s.port = inputs
  induction inputs generalizing s t with
  | nil =>
    rcases step_cases hwf with ⟨_, e⟩ | ⟨_, hp', _⟩ | ⟨_, hp', _⟩ | ⟨_, _, hp', _⟩ | ⟨_, _, hp', _⟩ | ⟨_, _, _, hp', _⟩
      | ⟨_, _, _, hp', _⟩ | ⟨_, _, hp', _⟩
    · exact advance_keepsParameters (e ▸ h)
    all_goals rw [hp] at hp'; cases hp'
  | cons x rest ih =>
    rcases step_cases hwf with ⟨_, e⟩ | ⟨_, _, e⟩ | ⟨_, _, e⟩ | ⟨_, _, _, _, e⟩ | ⟨_, _, _, _, _, e⟩
      | ⟨_, _, _, _, _, _, _, e⟩ | ⟨_, _, _, _, _, _, _, e⟩ | ⟨k, _, hp', e⟩ <;> rw [e] at h
    · exact advance_keepsParameters h
    · have := advance_keepsParameters h
      exact this
    · cases h
      exact ⟨rfl, rfl⟩
    · exact advance_keepsParameters h
    · cases h
      exact ⟨rfl, rfl⟩
    · cases h
      exact ⟨rfl, rfl⟩
    · have := exec_keepsParameters h
      exact this
    · rw [hp] at hp'
      cases hp'
      obtain ⟨u, hu, rfl⟩ := resetDuring_next h
      have hk := ih (s := { s with port := rest }) hwf hu rfl
      unfold cutByReset
      simp only
      split
      · exact reissue_keepsParameters _ s
      · exact hk

end Sys2Proof.Machine
end

