-- ==== Sys2Proof/Tests/Slice0.lean ====
section
/-! SUPPORT. Tests. Expected values are the spec's own: encodings from spec/30_encoding.md R95, results from the vectors of
spec/95_test_vectors.md (the vector's name stands at each test), conditions from spec/00_scope.md R6. -/

namespace Sys2Proof.Tests

open Sys2Proof Sys2Proof.Machine

set_option maxRecDepth 8000

/-! ### Decoding: words written out from the opcode map -/

theorem test_decode_regRead : decode ⟨0x10F00000, 0, 0⟩ = .ok (.regRead 15) := by decide
theorem test_decode_regWrite : decode ⟨0x11300000, 7, 7⟩ = .ok (.regWrite 3) := by decide
theorem test_decode_regZero : decode ⟨0x12000000, 0, 0⟩ = .ok (.regZero 0) := by decide
theorem test_decode_regSet : decode ⟨0x13300000, 0xDEADBEEF, 0⟩ = .ok (.regSet 3 0xDEADBEEF) := by decide
theorem test_decode_regAnd : decode ⟨0x14000000, 0x0FF0, 0⟩ = .ok (.regAnd 0 0x0FF0) := by decide
theorem test_decode_regOr : decode ⟨0x15000000, 0x8001, 0⟩ = .ok (.regOr 0 0x8001) := by decide
theorem test_decode_regClear : decode ⟨0x16300000, 0xFFFF0000, 0⟩ = .ok (.regClear 3 0xFFFF0000) := by decide
theorem test_decode_regGetb : decode ⟨0x17F01F00, 0, 0⟩ = .ok (.regGetb 15 31) := by decide
theorem test_decode_regSetb : decode ⟨0x18000F00, 0, 0⟩ = .ok (.regSetb 0 15 false) := by decide
theorem test_decode_regGetm : decode ⟨0x19301F00, 3, 0⟩ = .ok (.regGetm 3 31 3) := by decide
theorem test_decode_regSetm : decode ⟨0x1A301000, 0xFFFF, 0x1234⟩ = .ok (.regSetm 3 16 0xFFFF 0x1234) := by decide
theorem test_decode_vmConstruct : decode ⟨0x20000004, 0, 0⟩ = .ok (.vmConstruct .m4) := by decide
theorem test_decode_vmEnable : decode ⟨0x21000000, 0, 0⟩ = .ok .vmEnable := by decide
theorem test_decode_vmSet : decode ⟨0x22000000, 0x00010003, 0x00010012⟩ = .ok (.vmSet 3 1 0x12 1) := by decide
theorem test_decode_vmGet : decode ⟨0x23000000, 0x009F00EF, 0⟩ = .ok (.vmGet 239 159) := by decide
theorem test_decode_vmSwap : decode ⟨0x24000000, 0, 0⟩ = .ok .vmSwap := by decide
theorem test_decode_vmClear : decode ⟨0x25000000, 0, 0⟩ = .ok .vmClear := by decide
theorem test_decode_vmBounds : decode ⟨0x26000000, 0, 0⟩ = .ok .vmBounds := by decide
theorem test_decode_vmSetpal : decode ⟨0x27000000, 0x00000100, 0x00010000⟩ = .ok (.vmSetpal 0x100 0 1) := by decide
theorem test_decode_vmGetpal : decode ⟨0x28000000, 0x0000012C, 0⟩ = .ok (.vmGetpal 300) := by decide
theorem test_decode_vmVsync : decode ⟨0x29000000, 0, 0⟩ = .ok .vmVsync := by decide
theorem test_decode_vmSwapv : decode ⟨0x2A000000, 0, 0⟩ = .ok .vmSwapv := by decide
theorem test_decode_gfxSwitch : decode ⟨0x30000005, 0, 0⟩ = .ok (.gfxSwitch .m5) := by decide
theorem test_decode_colRgb : decode ⟨0x40000000, 0x01110221, 0⟩ = .ok (.colRgb 33 2 17 1) := by decide

/-- Vectors E-1 to E-10 and G-3: the illegal headers. -/
theorem test_decode_illegal :
    ([0x00000000, 0x10002000, 0x10000100, 0x18000002, 0x2000000B, 0x21100000, 0x1B000000, 0xFFFFFFFF] : List Word).all
      (fun h => rowOf h == none) = true
    ∧ decode ⟨0x20000002, 0, 0⟩ = .error .badModeNumber ∧ decode ⟨0x20000006, 0, 0⟩ = .error .badModeNumber
    ∧ decode ⟨0x30000007, 0, 0⟩ = .error .badModeNumber := by decide

/-- The table's numbering of a command's bits: A is bits 63:32, B bits 95:64. -/
theorem test_decodeTableWord :
    decodeTableWord 96 (0x12 * 2 ^ 64 + 0x00010003 * 2 ^ 32 + 0x22000000) = some (.vmSet 3 1 0x12 0)
    ∧ decodeTableWord 32 0x29000000 = some .vmVsync ∧ decodeTableWord 96 0 = none := by decide

theorem test_withFetchWord : step (State.reset.withFetchWord 96 0x29000000) = exec .vmVsync State.reset := rfl

/-! ### The assembler (R99, R100) -/

theorem test_assemble_regSetm :
    (assemble Cfg.ref "REG.SETM 3, 16, 0xFFFF, 0x1234".toList).map encodingText
      = some "1A301000 0000FFFF 00001234".toList := by decide

theorem test_assemble_pseudo :
    (assemble Cfg.ref "DC.BLANK 1".toList).map encodingText = some "18000701 00000000 00000000".toList := by decide

/-- G-3: a mode number of three bits is encoded; the command is illegal. A wider one is no operand. -/
theorem test_assemble_mode :
    (assemble Cfg.ref "GFX.SWITCH 7".toList).map encodingText = some "30000007 00000000 00000000".toList
    ∧ (assemble Cfg.ref "GFX.SWITCH 7".toList).map decode = some (.error .badModeNumber)
    ∧ assemble Cfg.ref "VM.CONSTRUCT 8".toList = none := by decide

/-! ### Well-formedness: a configuration or an instruction that each check refuses -/

theorem test_wf_ref : Cfg.ref.wf = true := by decide
theorem test_wf_a : ({ Cfg.ref with regtab := [⟨0x04000000, .w16⟩] } : Cfg).wfCount = false := by decide
theorem test_wf_b :
    ({ Cfg.ref with regtab := [⟨0x04000000, .w16⟩, ⟨0x04000004, .w32⟩] } : Cfg).wfWidths = false := by decide
theorem test_wf_c :
    ({ Cfg.ref with regtab := [⟨0x04000000, .w16⟩, ⟨0x04000005, .w16⟩] } : Cfg).wfSlotAlign = false := by decide
theorem test_wf_d : ({ Cfg.ref with vblankBit := 16 } : Cfg).wfBits = false := by decide
theorem test_wf_e_field : ({ Cfg.ref with modeShift := 14 } : Cfg).wfModeCodes = false := by decide
theorem test_wf_e_code : ({ Cfg.ref with code5 := 13 } : Cfg).wfModeCodes = false := by decide
theorem test_wf_e_distinct : ({ Cfg.ref with code5 := 4 } : Cfg).wfModeCodes = false := by decide
theorem test_wf_f : ({ Cfg.ref with bufselBit := 2 } : Cfg).wfControlBits = false := by decide
theorem test_wf_g : ({ Cfg.ref with frameBOffset := 40958 } : Cfg).wfFrameB = false := by decide
theorem test_wf_h : ({ Cfg.ref with palBase := 0xFFFFFC01 } : Cfg).wfAddressSpace = false := by decide
theorem test_wf_i : ({ Cfg.ref with palBase := 0x06017FFF } : Cfg).wfDisjoint = false := by decide
theorem test_wf_i_slot :
    ({ Cfg.ref with regtab := [⟨0x04000000, .w16⟩, ⟨0x050003FE, .w16⟩] } : Cfg).wfDisjoint = false := by decide

/-- R93: a must-be-zero operand field that is not zero. -/
theorem test_wf_instr :
    (Instr.vmSet 0 0 0 1).wf = false ∧ (Instr.vmSetpal 0 0 1).wf = false ∧ (Instr.colRgb 0 0 0 1).wf = false := by decide

/-- R37: the windows whose bases the configuration names, and the slots of CFG_REF inside the I/O window. -/
theorem test_addressMap (cfg : Cfg) :
    ((addressMap cfg).filter (·.reached)).map (fun w => (w.base, w.size))
      = [(cfg.ioBase, 1024), (cfg.palBase, palBytes), (cfg.vramBase, vramBytes)] := rfl

/-- R37: the rows whose size is "up to" a bound. -/
theorem test_addressMap_upTo (cfg : Cfg) :
    ((addressMap cfg).filter (·.upTo)).map (fun w => (w.name, w.size))
      = [("Cartridge ROM", 32 * 2 ^ 20), ("Cartridge save RAM", 64 * 2 ^ 10)] := rfl

theorem test_ref_slots_in_io :
    (Cfg.ref.regtab.all fun d => Cfg.ref.ioBase ≤ d.addr && d.addr + d.width.bytes ≤ Cfg.ref.ioBase + 1024) = true := by
  decide

/-! ### One step each -/

/-- Present a command to a state and look at what the step leaves. -/
def after (s : State) (h a b : Word) (p : State → Bool) : Bool :=
  match step { s with port := [.command ⟨h, a, b⟩] } with
  | .next t => p t
  | .fault _ => false
  | .refused _ => false

/-- The last response. -/
def answered (t : State) (st : Status) (c : Cause) (r : Word) : Bool := t.responses == [⟨st, c, r⟩]

/-- Reset, with slot 0 (or 3) holding a word, under Quiet. -/
def holding (slot : Fin 16) (v : Word) : State := setHeld { State.reset with quiet := true } slot v

/-- (m, en, x) under Quiet, with memory as given. -/
def inMode (m : VideoMode) (en : Bool) (x : Buffer) (mem : Memory := []) : State :=
  { State.reset with mode := some m, en := en, active := x, quiet := true, mem := mem }

/-- A 16-bit word in memory. -/
def word (a : Nat) (v : Half) : Memory := Memory.write16 [] a v

/-- R-40 -/
theorem test_regRead : after { State.reset with quiet := true, mem := word 0x04000000 0x0404 } 0x10000000 0 0
    (fun t => answered t .ok .none 0x0404 && heldAt t 0 == 0x0404 && t.events == [.load 0x04000000 .w16 0x0404]) = true := by
  decide
/-- R-52 -/
theorem test_regRead_badSlot : after State.reset 0x10400000 0 0
    (fun t => answered t .trap .badSlot 4 && t.halt && t.fopc == 0x10 && t.events == []) = true := by decide
/-- R-36 -/
theorem test_regWrite : after (holding 3 0x0000BEEF) 0x11300000 0 0
    (fun t => answered t .ok .none 0 && t.events == [.store 0x040000D4 .w32 0x0000BEEF]
      && t.mem == [(0x040000D4, 0xEF), (0x040000D5, 0xBE), (0x040000D6, 0), (0x040000D7, 0)]) = true := by decide
/-- R-11 -/
theorem test_regZero : after (holding 0 0x0B53) 0x12000000 0 0 (fun t => heldAt t 0 == 0 && t.events == []) = true := by
  decide
/-- R-1 -/
theorem test_regSet : after State.reset 0x13000000 0xABCD 0
    (fun t => answered t .ok .none 0 && heldAt t 0 == 0xABCD) = true := by decide
/-- R-51 -/
theorem test_regSet_badValue : after State.reset 0x13000000 0x00010000 0
    (fun t => answered t .trap .badValue 0x00010000 && heldAt t 0 == 0) = true := by decide
/-- R-2 -/
theorem test_regAnd : after (holding 0 0xABCD) 0x14000000 0x0FF0 0 (fun t => heldAt t 0 == 0x0BC0) = true := by decide
/-- R-3 -/
theorem test_regOr : after (holding 0 0x0BC0) 0x15000000 0x8001 0 (fun t => heldAt t 0 == 0x8BC1) = true := by decide
/-- R-4 -/
theorem test_regClear : after (holding 0 0x8BC1) 0x16000000 0x00C0 0 (fun t => heldAt t 0 == 0x8B01) = true := by decide
/-- R-5 -/
theorem test_regGetb : after (holding 0 0x8B01) 0x17000F00 0 0
    (fun t => answered t .ok .none 1 && heldAt t 0 == 0x8B01) = true := by decide
/-- R-53 -/
theorem test_regGetb_slot_first : after State.reset 0x17F01F00 0 0 (fun t => answered t .trap .badSlot 0xF) = true := by
  decide
/-- R-7 -/
theorem test_regSetb_one : after (holding 0 0x8B01) 0x18000101 0 0 (fun t => heldAt t 0 == 0x8B03) = true := by decide
/-- R-8 -/
theorem test_regSetb_zero : after (holding 0 0x8B03) 0x18000F00 0 0 (fun t => heldAt t 0 == 0x0B03) = true := by decide
/-- R-13 -/
theorem test_regGetm : after (holding 0 0xF000) 0x19000C00 0xFF 0 (fun t => answered t .ok .none 0x0F) = true := by decide
/-- R-33 -/
theorem test_regSetm : after (holding 3 0x1234BEEF) 0x1A301F00 3 3 (fun t => heldAt t 3 == 0x9234BEEF) = true := by decide
/-- R-54 -/
theorem test_regSetm_shift_first : after State.reset 0x1A001000 0x00010000 0
    (fun t => answered t .trap .badShift 0x10) = true := by decide
/-- V-1 -/
theorem test_vmConstruct : after State.reset 0x20000004 0 0
    (fun t => answered t .ok .none 0 && t.mode == some .m4 && !t.en && t.active == .a && t.events == []) = true := by decide
/-- R162: the first misaligned Region, here buffer B. -/
theorem test_vmConstruct_misaligned :
    after { State.reset with cfg := { Cfg.ref with frameBOffset := 0xA001 } } 0x20000004 0 0
      (fun t => answered t .trap .misalignedRegion 0x0600A001 && t.mode == none) = true := by decide
/-- V-2 -/
theorem test_vmEnable : after (inMode .m4 false .a) 0x21000000 0 0
    (fun t => t.en && heldAt t 0 == 0x0404 && t.events == [.store 0x04000000 .w16 0x0404]) = true := by decide
/-- V-8 -/
theorem test_vmEnable_badState : after (inMode .m4 true .b) 0x21000000 0 0
    (fun t => answered t .trap .badState 0x1C) = true := by decide
/-- V-26 -/
theorem test_vmSet : after (inMode .m4 true .a (word 0x0600A0F2 0xBBAA)) 0x22000000 0x00010003 0x12
    (fun t => answered t .ok .none 0 && t.mem == word 0x0600A0F2 0x12AA
      && t.events == [.load 0x0600A0F2 .w16 0xBBAA, .store 0x0600A0F2 .w16 0x12AA]) = true := by decide
/-- V-33 -/
theorem test_vmSet_value_first : after (inMode .m4 true .a) 0x22000000 0x000000F0 0x00010000
    (fun t => answered t .trap .badValue 0x00010000) = true := by decide
/-- V-28 -/
theorem test_vmGet : after (inMode .m4 true .a (word 0x0600A0F2 0x12AA)) 0x23000000 0x00010002 0
    (fun t => answered t .ok .none 0xAA && t.events == [.load 0x0600A0F2 .w16 0x12AA]) = true := by decide
/-- V-12 -/
theorem test_vmSwap : after (inMode .m4 true .a (word 0x04000000 0x0494)) 0x24000000 0 0
    (fun t => t.active == .b && heldAt t 0 == 0x0494
      && t.events == [.load 0x04000000 .w16 0x0494, .store 0x04000000 .w16 0x0494]) = true := by decide
/-- V-11 -/
theorem test_vmSwap_mode3 : after (inMode .m3 false .a) 0x24000000 0 0
    (fun t => answered t .ok .none 0 && t.events == [] && t.active == .a) = true := by decide
/-- V-42, its first pixel -/
theorem test_vmClear : after (inMode .m4 true .a (word 0x0600A000 0xEEEE)) 0x25000000 0 0
    (fun t => t.seq == .clearing && t.cx == 1 && t.cy == 0 && t.responses == []
      && t.events == [.load 0x0600A000 .w16 0xEEEE, .store 0x0600A000 .w16 0xEE00]) = true := by decide
/-- V-42, its last pixel -/
theorem test_vmClear_last :
    (match advance { inMode .m4 true .a (word 0x060135FE 0xEE00) with seq := .clearing, cx := 239, cy := 159 } with
      | .next t => t.seq == .idle && answered t .ok .none 0
          && t.events == [.load 0x060135FE .w16 0xEE00, .store 0x060135FE .w16 0] && t.mem == word 0x060135FE 0
      | .fault _ => false
      | .refused _ => false) = true := by decide
/-- V-35 -/
theorem test_vmBounds : after (inMode .m4 false .a) 0x26000000 0 0 (fun t => answered t .ok .none 0x080A00F0) = true := by
  decide
/-- V-50 -/
theorem test_vmSetpal : after (inMode .m4 false .a) 0x27000000 0xFF 0x7FFF
    (fun t => answered t .ok .none 0 && t.events == [.store 0x050001FE .w16 0x7FFF]) = true := by decide
/-- V-55 -/
theorem test_vmSetpal_value_first : after (inMode .m4 false .a) 0x27000000 0x100 0x00010000
    (fun t => answered t .trap .badValue 0x00010000) = true := by decide
/-- V-51 -/
theorem test_vmGetpal : after (inMode .m4 false .a (word 0x050001FE 0x7FFF)) 0x28000000 0xFF 0
    (fun t => answered t .ok .none 0x7FFF) = true := by decide
/-- V-57 -/
theorem test_vmGetpal_mode_first : after (inMode .m5 true .a) 0x28000000 0x12C 0
    (fun t => answered t .trap .notPaletteMode 0x0D) = true := by decide
/-- V-15 -/
theorem test_vmVsync : after { State.reset with answers := [1] } 0x29000000 0 0
    (fun t => t.seq == .idle && answered t .ok .none 0 && heldAt t 1 == 1
      && t.events == [.load 0x04000004 .w16 1]) = true := by decide
/-- V-19, its first poll -/
theorem test_vmVsync_waits : after { State.reset with answers := [0] } 0x29000000 0 0
    (fun t => t.seq == .poll && t.responses == []) = true := by decide
/-- V-18, with a first poll that sees the bit -/
theorem test_vmSwapv : after { inMode .m4 true .a (word 0x04000000 0x0404) with answers := [1] } 0x2A000000 0 0
    (fun t => t.seq == .idle && t.active == .b && t.events == [.load 0x04000004 .w16 1, .load 0x04000000 .w16 0x0404,
      .store 0x04000000 .w16 0x0414]) = true := by decide
/-- V-10 -/
theorem test_vmSwapv_badState : after (inMode .m5 false .a) 0x2A000000 0 0
    (fun t => answered t .trap .badState 5 && t.events == []) = true := by decide
/-- G-2 -/
theorem test_gfxSwitch : after (inMode .m4 true .b) 0x30000004 0 0
    (fun t => t.mode == some .m4 && t.en && t.active == .a && t.events == [.store 0x04000000 .w16 0x0404]) = true := by decide
/-- C-1 -/
theorem test_colRgb : after State.reset 0x40000000 0x00110221 0 (fun t => answered t .ok .none 0x4441) = true := by decide
/-- C-10 -/
theorem test_colRgb_badValue : after State.reset 0x40000000 0x01000000 0
    (fun t => answered t .trap .badValue 0x01000000 && t.fopc == 0x40) = true := by decide

/-- (M3, 1, A) halted by V-20. -/
def haltedState : State :=
  { inMode .m3 true .a with halt := true, fcause := .coordOob, finfo := 0xF0, fopc := 0x22 }

/-- H-2 -/
theorem test_halted : after haltedState 0 0 0
    (fun t => answered t .halted .coordOob 0xF0 && t.halt && t.fopc == 0x22) = true := by decide
/-- E-2 -/
theorem test_illegal : after State.reset 0x10002000 0 0
    (fun t => answered t .trap .illegalCommand 0x10002000 && t.fopc == 0x10) = true := by decide
/-- H-3 -/
theorem test_reset :
    (match step { haltedState with port := [.reset], mem := word 0x04000000 0x0403 } with
      | .next t => !t.halt && t.mode == none && t.mem == word 0x04000000 0x0403
      | .fault _ => false
      | .refused _ => false) = true := by decide
/-- R241, R171: a reset between the load and the store of VM.SWAP: the load stays, no store, no response. -/
theorem test_resetInside_swap :
    (match step { inMode .m4 true .a (word 0x04000000 0x0404) with
        port := [.resetInside 1, .command ⟨0x24000000, 0, 0⟩] } with
      | .next t => t.mode == none && t.active == .a && t.events == [.load 0x04000000 .w16 0x0404] && t.responses == []
          && t.mem == word 0x04000000 0x0404 && t.port == []
      | .fault _ => false
      | .refused _ => false) = true := by decide
/-- R241, R178: a reset between the successful poll of a VM.SWAPV in flight and its swap. -/
theorem test_resetInside_swapv :
    (match step { inMode .m4 true .a (word 0x04000000 0x0404) with
        seq := .pollSwap, answers := [1], port := [.resetInside 1] } with
      | .next t => t.seq == .idle && t.mode == none && t.events == [.load 0x04000004 .w16 1] && t.responses == []
          && t.mem == word 0x04000000 0x0404 && t.answers == []
      | .fault _ => false
      | .refused _ => false) = true := by decide
/-- R6: a configuration that is not well-formed is refused. -/
theorem test_refused :
    (match step { State.reset with cfg := { Cfg.ref with palBase := 0x06000000 } } with
      | .refused r => r == .illFormedConfiguration
      | .fault _ => false
      | .next _ => false) = true := by decide

/-! ### Witnesses: a concrete state and operands for the hypotheses of each statement, clause by clause -/

/-- A state of the reference configuration with all held words 0 is one of the invariant when its other fields are. -/
theorem inv_of (s : State) (hcfg : s.cfg = Cfg.ref) (hheld : s.held = Vector.replicate 16 0) (hmem : s.mem.wf = true)
    (hspace : ∀ c ∈ s.mem, c.1 < addressSpace) (htriple : legalTriple s.mode s.en s.active = true)
    (hhalt : s.halt = true → s.seq = .idle ∧ s.fcause ≠ .none)
    (hrun : s.halt = false → s.fcause = .none ∧ s.finfo = 0 ∧ s.fopc = 0)
    (hcount : s.cx.toNat < 240 ∧ s.cy.toNat < 160)
    (hclear : s.seq = .clearing → ∃ m, s.mode = some m ∧ s.cx.toNat < wd m ∧ s.cy.toNat < ht m)
    (hswap : s.seq = .pollSwap → ∃ m, s.mode = some m ∧ (m = .m3 ∨ s.en = true)) : MachineInv s := by
  refine ⟨by rw [hcfg]; decide, hmem, hspace, ?_, htriple, ?_, hhalt, hrun, hcount, hclear, hswap⟩
  · intro slot d _
    have h0 : heldAt s slot = 0 := by simp [heldAt, hheld]
    unfold Fits
    rw [h0]
    exact Nat.two_pow_pos _
  · intro m _
    rw [hcfg]
    cases m <;> simp [RegionsAligned, regionsOf, rgnM3, rgnM4A, rgnM4B, rgnM5A, rgnM5B, rgnPal, Cfg.ref]

/-- Mode4, Enabled, buffer A presented, in sync. -/
def shown4 : State := inMode .m4 true .a (word 0x04000000 0x0404)

/-- Mode5, Enabled, buffer B presented, in sync. -/
def shown5 : State := inMode .m5 true .b (word 0x04000000 0x0415)

theorem shown4_inv (port : List HostInput) : MachineInv { shown4 with port := port } :=
  inv_of _ rfl rfl (by show (word 0x04000000 0x0404).wf = true; decide)
    (by show ∀ c ∈ word 0x04000000 0x0404, _; decide) rfl
    (by simp [shown4, inMode, State.reset, State.resetIn])
    (fun _ => ⟨rfl, rfl, rfl⟩) ⟨by show (0 : BitVec 8).toNat < _; decide, by show (0 : BitVec 8).toNat < _; decide⟩
    (by simp [shown4, inMode, State.reset, State.resetIn]) (by simp [shown4, inMode, State.reset, State.resetIn])

theorem shown5_inv (port : List HostInput) : MachineInv { shown5 with port := port } :=
  inv_of _ rfl rfl (by show (word 0x04000000 0x0415).wf = true; decide)
    (by show ∀ c ∈ word 0x04000000 0x0415, _; decide) rfl
    (by simp [shown5, inMode, State.reset, State.resetIn])
    (fun _ => ⟨rfl, rfl, rfl⟩) ⟨by show (0 : BitVec 8).toNat < _; decide, by show (0 : BitVec 8).toNat < _; decide⟩
    (by simp [shown5, inMode, State.reset, State.resetIn]) (by simp [shown5, inMode, State.reset, State.resetIn])

theorem shown4_inSync : InSync shown4 :=
  ⟨rfl, rfl, .m4, rfl, by decide, by unfold bitIs; decide, fun _ => by unfold bitIs; decide⟩

theorem shown5_inSync : InSync shown5 :=
  ⟨rfl, rfl, .m5, rfl, by decide, by unfold bitIs; decide, fun _ => by unfold bitIs; decide⟩

/-- The 16-bit slot 0 and the 32-bit slot 3 of the reference configuration. -/
def slot16 : SlotDef := ⟨0x04000000, .w16⟩
def slot32 : SlotDef := ⟨0x040000D4, .w32⟩

theorem hasSlot16 (s : State) (h : s.cfg = Cfg.ref) : HasSlot s 0 slot16 := by
  unfold HasSlot
  rw [h]
  decide

theorem hasSlot32 (s : State) (h : s.cfg = Cfg.ref) : HasSlot s 3 slot32 := by
  unfold HasSlot
  rw [h]
  decide

theorem fits16_top : Fits slot16 0xFFFF ∧ ¬ Fits slot16 0x10000 ∧ Fits slot32 0xFFFFFFFF := by
  unfold Fits
  decide

theorem inBounds_corners : InBounds .m3 239 159 ∧ InBounds .m4 239 159 ∧ InBounds .m5 159 127 ∧ InBounds .m4 0 0
    ∧ ¬ InBounds .m3 240 0 ∧ ¬ InBounds .m4 0 160 ∧ ¬ InBounds .m5 0 128 := by
  unfold InBounds
  decide

theorem aligned_ref (m : VideoMode) : RegionsAligned Cfg.ref m := by
  cases m <;> simp [RegionsAligned, regionsOf, rgnM3, rgnM4A, rgnM4B, rgnM5A, rgnM5B, rgnPal, Cfg.ref]

/-- Slots that exist, the first slot number that does not (and the last), operands at the edge of the width, and held words
at the edge: the premises of the REG statements. -/
theorem witness_RegReadLatchesLoadedWord :
    HasSlot State.reset 0 slot16 ∧ HasSlot State.reset 3 slot32 ∧ State.reset.cfg.nreg ≤ (4 : Fin 16).val
      ∧ State.reset.cfg.nreg ≤ (15 : Fin 16).val :=
  ⟨hasSlot16 _ rfl, hasSlot32 _ rfl, by decide, by decide⟩

theorem witness_RegWriteStoresHeldWord :
    (HasSlot (holding 0 0xFFFF) 0 slot16 ∧ Fits slot16 (heldAt (holding 0 0xFFFF) 0) ∧ (holding 0 0xFFFF).mem.wf = true)
    ∧ (HasSlot (holding 3 0xFFFFFFFF) 3 slot32 ∧ Fits slot32 (heldAt (holding 3 0xFFFFFFFF) 3)
      ∧ (holding 3 0xFFFFFFFF).mem.wf = true) :=
  ⟨⟨hasSlot16 _ rfl, by unfold Fits; decide, by decide⟩, ⟨hasSlot32 _ rfl, by unfold Fits; decide, by decide⟩⟩

theorem witness_RegZeroAndSetReplaceHeldWord :
    HasSlot State.reset 0 slot16 ∧ Fits slot16 0xFFFF ∧ ¬ Fits slot16 0x10000 :=
  ⟨hasSlot16 _ rfl, fits16_top.1, fits16_top.2.1⟩

theorem witness_RegBitwiseTransforms :
    HasSlot (holding 0 0xFFFF) 0 slot16 ∧ Fits slot16 (heldAt (holding 0 0xFFFF) 0) ∧ Fits slot16 0xFFFF :=
  ⟨hasSlot16 _ rfl, by unfold Fits; decide, fits16_top.1⟩

theorem witness_RegGetbReadsHeldBit :
    (HasSlot State.reset 0 slot16 ∧ (15 : Fin 32).val < slot16.width.bits ∧ slot16.width.bits ≤ (16 : Fin 32).val)
    ∧ (HasSlot State.reset 3 slot32 ∧ (31 : Fin 32).val < slot32.width.bits) :=
  ⟨⟨hasSlot16 _ rfl, by decide, by decide⟩, hasSlot32 _ rfl, by decide⟩

theorem witness_RegSetbChangesOneBit :
    HasSlot (holding 0 0xFFFF) 0 slot16 ∧ (15 : Fin 32).val < slot16.width.bits
      ∧ Fits slot16 (heldAt (holding 0 0xFFFF) 0) :=
  ⟨hasSlot16 _ rfl, by decide, by unfold Fits; decide⟩

theorem witness_RegGetmReadsShiftedField :
    HasSlot State.reset 0 slot16 ∧ (15 : Fin 32).val < slot16.width.bits ∧ Fits slot16 0xFFFF :=
  ⟨hasSlot16 _ rfl, by decide, fits16_top.1⟩

theorem witness_RegSetmWritesMaskedField :
    HasSlot (holding 0 0xFFFF) 0 slot16 ∧ (15 : Fin 32).val < slot16.width.bits ∧ Fits slot16 0xFFFF
      ∧ Fits slot16 (heldAt (holding 0 0xFFFF) 0) :=
  ⟨hasSlot16 _ rfl, by decide, fits16_top.1, by unfold Fits; decide⟩

/-- The precondition of law (a) of R134 holds for a mask that is not shifted out, and fails for one that is. -/
theorem witness_BitFieldLaws :
    HasSlot (holding 0 0xFFFF) 0 slot16 ∧ Fits slot16 (heldAt (holding 0 0xFFFF) 0) ∧ 12 < slot16.width.bits
      ∧ Fits slot16 0xFFFF ∧ trunc slot16.width ((0xF : Word) <<< 12) >>> 12 = 0xF
      ∧ trunc slot16.width ((0xFF : Word) <<< 12) >>> 12 ≠ 0xFF :=
  ⟨hasSlot16 _ rfl, by unfold Fits; decide, by decide, fits16_top.1, by decide, by decide⟩

/-- Each check of R135: the slot, the shift, operand A, operand B behind a passing A. -/
theorem witness_RegChecksTrapInOrder :
    (regSlot (.regSetm 4 0 0 0) = some 4 ∧ State.reset.cfg.nreg ≤ (4 : Fin 16).val)
    ∧ (HasSlot State.reset 0 slot16 ∧ regShift (.regSetm 0 16 0x10000 0) = some 16
      ∧ slot16.width.bits ≤ (16 : Fin 32).val)
    ∧ (regOperands (.regSetm 0 15 0x10000 0x10000) = [] ++ 0x10000 :: [0x10000] ∧ ¬ Fits slot16 0x10000)
    ∧ (regOperands (.regSetm 0 15 0xFFFF 0x10000) = [0xFFFF] ++ 0x10000 :: [] ∧ ∀ v ∈ [(0xFFFF : Word)], Fits slot16 v) := by
  refine ⟨⟨rfl, by decide⟩, ⟨hasSlot16 _ rfl, rfl, by decide⟩, ⟨rfl, fits16_top.2.1⟩, rfl, fun v hv => ?_⟩
  rw [List.mem_singleton.1 hv]
  exact fits16_top.1

/-- The reference configuration with one odd Region base. -/
def oddA : State := { State.reset with cfg := { Cfg.ref with vramBase := 0x06000001 } }
def oddB : State := { State.reset with cfg := { Cfg.ref with frameBOffset := 0xA001 } }
def oddPal : State := { State.reset with cfg := { Cfg.ref with palBase := 0x05000001 } }

theorem witness_VmConstructMakesDisabledMode :
    RegionsAligned State.reset.cfg .m4
    ∧ (regionsOf oddB.cfg .m4 = [rgnM4A oddB.cfg] ++ rgnM4B oddB.cfg :: [rgnPal oddB.cfg]
      ∧ (∀ g' ∈ [rgnM4A oddB.cfg], g'.base % 2 = 0) ∧ (rgnM4B oddB.cfg).base % 2 = 1) := by
  refine ⟨aligned_ref .m4, rfl, ?_, by decide⟩
  simp [rgnM4A, oddB, Cfg.ref]

theorem witness_MisalignedRegionTraps :
    oddA.cfg.vramBase % 2 = 1
    ∧ (oddB.cfg.vramBase % 2 = 0 ∧ (oddB.cfg.vramBase + oddB.cfg.frameBOffset) % 2 = 1 ∧ VideoMode.m5 ≠ .m3)
    ∧ (oddPal.cfg.vramBase % 2 = 0 ∧ (oddPal.cfg.vramBase + oddPal.cfg.frameBOffset) % 2 = 0
      ∧ oddPal.cfg.palBase % 2 = 1)
    ∧ oddA.cfg.wf = true ∧ oddB.cfg.wf = true ∧ oddPal.cfg.wf = true := by decide

theorem witness_VmEnableCommitsControlWord :
    State.reset.mode = none ∧ (inMode .m4 true .a).en = true
    ∧ ((inMode .m4 false .a).cfg.wf = true ∧ (inMode .m4 false .a).mem.wf = true ∧ (inMode .m4 false .a).mode = some .m4
      ∧ (inMode .m4 false .a).en = false) := by decide

theorem witness_GfxSwitchConstructsAndEnables :
    State.reset.cfg.wf = true ∧ State.reset.mem.wf = true ∧ RegionsAligned State.reset.cfg .m5 :=
  ⟨by decide, by decide, aligned_ref .m5⟩

theorem witness_BadStateTraps :
    (needsMode .vmBounds = true ∧ State.reset.mode = none)
    ∧ ((inMode .m3 true .a).mode ≠ none ∧ (inMode .m3 true .a).en = true)
    ∧ ((inMode .m5 false .a).mode = some .m5 ∧ (inMode .m5 false .a).en = false) := by decide

theorem witness_VmSetStoresColour :
    (inMode .m5 true .b).mode = some .m5 ∧ VideoMode.m5 ≠ .m4 ∧ InBounds .m5 159 127 ∧ (inMode .m5 true .b).mem.wf = true :=
  ⟨rfl, by decide, inBounds_corners.2.2.1, by decide⟩

theorem witness_VmSetReplacesMode4Byte :
    shown4.mode = some .m4 ∧ InBounds .m4 239 159 ∧ (255 : Half).toNat < 256 ∧ shown4.mem.wf = true
      ∧ (239 : Half).toNat % 2 = 1 ∧ InBounds .m4 0 0 ∧ (0 : Half).toNat % 2 = 0 :=
  ⟨rfl, inBounds_corners.2.1, by decide, by decide, by decide, inBounds_corners.2.2.2.1, by decide⟩

theorem witness_VmGetReadsDrawBuffer :
    (shown4.mode = some .m4 ∧ InBounds .m4 239 159) ∧ ((inMode .m3 false .a).mode = some .m3 ∧ InBounds .m3 239 159) :=
  ⟨⟨rfl, inBounds_corners.2.1⟩, rfl, inBounds_corners.1⟩

theorem witness_PixelOperandsTrap :
    shown4.mode = some .m4 ∧ (1 : Half) ≠ 0 ∧ 256 ≤ (0x100 : Half).toNat ∧ (255 : Half).toNat < 256
      ∧ ¬ InBounds .m4 0 160 ∧ ¬ InBounds .m3 240 0 :=
  ⟨rfl, by decide, by decide, by decide, inBounds_corners.2.2.2.2.2.1, inBounds_corners.2.2.2.2.1⟩

theorem witness_SetThenGetReturnsPixel :
    shown4.cfg.wf = true ∧ shown4.mem.wf = true ∧ Quiet shown4 ∧ shown4.mode = some .m4 ∧ InBounds .m4 239 159
      ∧ (255 : Half).toNat < 256 :=
  ⟨by decide, by decide, rfl, rfl, inBounds_corners.2.1, by decide⟩

theorem witness_VmSwapFlipsBitAndActive :
    shown5.cfg.wf = true ∧ shown5.mem.wf = true ∧ shown5.mode = some .m5 ∧ shown5.en = true := by decide

theorem witness_VmSwapIsNoOpInMode3 :
    (inMode .m3 false .a).mode = some .m3 ∧ (inMode .m3 true .a).mode = some .m3 := by decide

theorem witness_TwoSwapsRestoreBuffer :
    (MachineInv shown4 ∧ Quiet shown4 ∧ InSync shown4 ∧ shown4.mode = some .m4 ∧ InBounds .m4 239 159
      ∧ (255 : Half).toNat < 256)
    ∧ (MachineInv shown5 ∧ Quiet shown5 ∧ InSync shown5 ∧ shown5.mode = some .m5 ∧ InBounds .m5 159 127) :=
  ⟨⟨shown4_inv [], rfl, shown4_inSync, rfl, inBounds_corners.2.1, by decide⟩,
    shown5_inv [], rfl, shown5_inSync, rfl, inBounds_corners.2.2.1⟩

theorem witness_VmBoundsPacksGeometry : State.reset.mode = none ∧ shown5.mode = some .m5 := by decide

theorem witness_PaletteAccessesEntry :
    shown4.mode = some .m4 ∧ (255 : Word).toNat < 256 ∧ shown4.mem.wf = true := by decide

theorem witness_PaletteOperandsTrap :
    (shown5.mode = some .m5 ∧ VideoMode.m5 ≠ .m4) ∧ (shown4.mode = some .m4 ∧ (1 : Half) ≠ 0)
      ∧ 256 ≤ (256 : Word).toNat := by decide

theorem witness_VmClearStartsWithFirstPixel :
    (shown4.mode = some .m4 ∧ shown4.mem.wf = true) ∧ (shown5.mode = some .m5 ∧ shown5.mem.wf = true) := by decide

/-- VM.CLEAR presented to an idle VMC. -/
def clearing4 : State := { shown4 with port := [.command ⟨0x25000000, 0, 0⟩] }

theorem witness_VmClearZeroesDrawBuffer :
    MachineInv clearing4 ∧ Quiet clearing4 ∧ clearing4.mode = some .m4 ∧ clearing4.seq = .idle ∧ clearing4.halt = false
      ∧ clearing4.port = [.command ⟨0x25000000, 0, 0⟩] :=
  ⟨shown4_inv _, rfl, rfl, rfl, rfl, rfl⟩

/-- A clear in flight: inside a row, at a row's end, at the last pixel, of an even and of an odd pixel; Mode4 and Mode5. -/
theorem witness_VmClearStepSetsOnePixel :
    let at4 (x y : BitVec 8) := { shown4 with seq := .clearing, cx := x, cy := y }
    ((at4 0 0).mem.wf = true ∧ (at4 0 0).seq = .clearing ∧ (at4 0 0).mode = some .m4
      ∧ (at4 0 0).cx.toNat + 1 < wd .m4 ∧ (at4 0 0).cy.toNat < ht .m4 ∧ (at4 0 0).cx.toNat % 2 = 0)
    ∧ ((at4 239 0).cx.toNat + 1 = wd .m4 ∧ (at4 239 0).cy.toNat + 1 < ht .m4 ∧ (at4 239 0).cx.toNat % 2 = 1)
    ∧ ((at4 239 159).cx.toNat + 1 = wd .m4 ∧ (at4 239 159).cy.toNat + 1 = ht .m4)
    ∧ (shown5.mem.wf = true ∧ shown5.mode = some .m5 ∧ (159 : BitVec 8).toNat < wd .m5 ∧ (127 : BitVec 8).toNat < ht .m5) := by
  decide

/-- Display-status answers without the vertical-blank bit (bit 0), and with it. -/
theorem blank_words : (∀ u ∈ [(0 : Word), 6], BlankClear Cfg.ref u) ∧ BlankSet Cfg.ref 1 := by
  refine ⟨fun u hu => ?_, by unfold BlankSet; decide⟩
  rcases List.mem_pair.1 hu with rfl | rfl <;> unfold BlankClear <;> decide

theorem witness_VmVsyncCompletesAtFirstBlank :
    let s := { State.reset with port := [.command ⟨0x29000000, 5, 6⟩], answers := [0, 6] ++ 1 :: [0] }
    s.cfg.wf = true ∧ s.halt = false ∧ s.seq = .idle ∧ s.port = [.command ⟨0x29000000, 5, 6⟩]
      ∧ s.answers = [0, 6] ++ 1 :: [0] ∧ (∀ u ∈ [(0 : Word), 6], BlankClear s.cfg u)
      ∧ BlankSet s.cfg 1 :=
  ⟨by decide, rfl, rfl, rfl, rfl, blank_words.1, blank_words.2⟩

theorem witness_VmVsyncHangsWhileNoBlank :
    let s := { State.reset with seq := .poll, answers := [0, 6] }
    s.cfg.wf = true ∧ s.halt = false ∧ s.seq = .poll ∧ s.port = [] ∧ s.answers = [0, 6]
      ∧ s.answers.length = 2 ∧ ∀ u ∈ [(0 : Word), 6], BlankClear s.cfg u :=
  ⟨by decide, rfl, rfl, rfl, rfl, rfl, blank_words.1⟩

/-- Mode3 Disabled, Mode4 Enabled, at acceptance and in flight; the answers 0 and 1 of the environment meet the two cases of
the poll. -/
theorem witness_VmSwapvPollsThenSwaps :
    ((inMode .m3 false .a).cfg.wf = true ∧ (inMode .m3 false .a).mem.wf = true ∧ (inMode .m3 false .a).mode = some .m3)
    ∧ (shown4.cfg.wf = true ∧ shown4.mem.wf = true ∧ shown4.mode = some .m4 ∧ shown4.en = true)
    ∧ ({ shown4 with seq := .pollSwap } : State).seq = .pollSwap
    ∧ (busValue { shown4 with answers := [0] } .w16 (shown4.cfg.addr 1)).getLsbD shown4.cfg.vblankBit = false
    ∧ (busValue { shown4 with answers := [1] } .w16 (shown4.cfg.addr 1)).getLsbD shown4.cfg.vblankBit = true
    ∧ Quiet shown4 ∧ shown4.cfg.addr 0 ≠ shown4.cfg.addr 1
    ∧ ¬ Quiet { shown4 with quiet := false, answers := [1, 0x0404] } := by
  unfold Quiet
  decide

/-- VM.SWAPV presented to an idle VMC with answers, in Mode4 Enabled and in Mode3 Disabled. -/
def presentedSwapv (s : State) (answers : List Word) : State :=
  { s with port := [.command ⟨0x2A000000, 5, 6⟩], answers := answers }

def swapvShown4 : State := presentedSwapv shown4 ([0, 6] ++ 1 :: [0])
def swapvMode3 : State := presentedSwapv (inMode .m3 false .a) ([] ++ 1 :: [])

theorem witness_VmSwapvCompletesAtFirstBlank :
    ((swapvShown4.cfg.wf = true ∧ swapvShown4.mem.wf = true ∧ swapvShown4.halt = false ∧ swapvShown4.seq = .idle
        ∧ swapvShown4.mode = some .m4 ∧ swapvShown4.en = true ∧ swapvShown4.port = [.command ⟨0x2A000000, 5, 6⟩])
      ∧ swapvShown4.answers = [0, 6] ++ 1 :: [0] ∧ (∀ u ∈ [(0 : Word), 6], BlankClear swapvShown4.cfg u)
      ∧ BlankSet swapvShown4.cfg 1 ∧ Quiet swapvShown4 ∧ swapvShown4.cfg.addr 0 ≠ swapvShown4.cfg.addr 1)
    ∧ (swapvMode3.cfg.wf = true ∧ swapvMode3.mem.wf = true ∧ swapvMode3.halt = false ∧ swapvMode3.seq = .idle
        ∧ swapvMode3.mode = some .m3 ∧ swapvMode3.answers = [] ++ 1 :: [] ∧ BlankSet swapvMode3.cfg 1) :=
  ⟨⟨by decide, rfl, blank_words.1, blank_words.2, rfl, by decide⟩,
    by decide, by decide, rfl, rfl, rfl, rfl, blank_words.2⟩

theorem witness_ColRgbPacksChannels : (1 : Byte) ≠ 0 ∧ (0 : Byte) = 0 := by decide

/-- VM.VSYNC presented to an idle VMC that is not halted. -/
def presentedVsync : State := { State.reset with port := [.command ⟨0x29000000, 0, 0⟩] }

theorem witness_StepRunsDecodedInstruction :
    (presentedVsync.cfg.wf = true ∧ presentedVsync.seq = .idle ∧ presentedVsync.halt = false
      ∧ presentedVsync.port = .command ⟨0x29000000, 0, 0⟩ :: [] ∧ decode ⟨0x29000000, 0, 0⟩ = .ok .vmVsync)
    ∧ (State.reset.cfg.wf = true ∧ State.reset.halt = false ∧ decodeTableWord 96 0x29000000 = some .vmVsync) := by decide

theorem witness_IllegalCommandTraps :
    let s := { State.reset with port := [.command ⟨0x2000000B, 0, 0⟩] }
    s.cfg.wf = true ∧ s.seq = .idle ∧ s.halt = false ∧ s.port = .command ⟨0x2000000B, 0, 0⟩ :: []
      ∧ decode ⟨0x2000000B, 0, 0⟩ = .error .noMatchingRow := by decide

theorem witness_HaltedAnswersEveryCommand :
    let s := { haltedState with port := [.command ⟨0, 0, 0⟩] }
    s.cfg.wf = true ∧ s.seq = .idle ∧ s.halt = true ∧ s.port = .command ⟨0, 0, 0⟩ :: [] := by decide

/-- A clear in flight at its first pixel, with a command waiting. -/
def busy : State := { shown4 with seq := .clearing, port := [.command ⟨0x26000000, 0, 0⟩] }

theorem busy_inv : MachineInv busy :=
  inv_of _ rfl rfl (by decide) (by show ∀ c ∈ word 0x04000000 0x0404, _; decide) rfl
    (by simp [busy, shown4, inMode, State.reset, State.resetIn]) (fun _ => ⟨rfl, rfl, rfl⟩) (by decide)
    (fun _ => ⟨.m4, rfl, by decide, by decide⟩) (by simp [busy])

theorem witness_BusyPortLeavesCommandWaiting :
    MachineInv busy ∧ busy.seq ≠ .idle ∧ busy.port = .command ⟨0x26000000, 0, 0⟩ :: [] :=
  ⟨busy_inv, by decide, rfl⟩

theorem witness_ResetInputClearsVmc :
    ({ busy with port := [.reset] } : State).cfg.wf = true ∧ ({ busy with port := [.reset] } : State).port = .reset :: [] := by
  decide

/-- A reset inside a Mode4 VM.CLEAR's first step, which has two accesses: after the first, and after both. -/
theorem witness_ResetInsideStepAbandonsIt :
    (∀ k, MachineInv { shown4 with port := .resetInside k :: [.command ⟨0x25000000, 0, 0⟩] })
    ∧ ∃ t es, step clearing4 = .next t ∧ Issues clearing4 t es ∧ 1 < es.length ∧ es.length ≤ 2 :=
  ⟨fun _ => shown4_inv _, _, [_, _], rfl, rfl, by decide, by decide⟩

theorem witness_IllFormedConfigurationRefused :
    ({ State.reset with cfg := { Cfg.ref with palBase := 0x06000000 } } : State).cfg.wf = false := by decide

theorem witness_QuietLoadsReadMemory :
    Quiet shown4 ∧ 0x04000000 ≠ shown4.cfg.addr 1 ∧ (0x040000D4 ≠ shown4.cfg.addr 1 ∧ 0x040000D4 + 2 ≠ shown4.cfg.addr 1)
      ∧ ({ shown4 with answers := [1] } : State).answers = 1 :: [] :=
  ⟨rfl, by decide, by decide, rfl⟩

theorem witness_IssuedAddressesAreAllowed :
    MachineInv clearing4 ∧ ∃ t, step clearing4 = .next t ∧ t.events ≠ clearing4.events :=
  ⟨shown4_inv _, _, rfl, by decide⟩

theorem witness_HeaderIsDeterminedByInstruction : decode ⟨0x1A301000, 5, 6⟩ = .ok (.regSetm 3 16 5 6) := by decide

theorem witness_LegalHeadersMatchOneRow :
    (0x20000005 : Word) &&& Op.vmConstruct.maskBits = Op.vmConstruct.matchBits ∧ (0x20000005 : Word) &&& 7 = 5 := by decide

theorem witness_InvAfterReset : Cfg.ref.wf = true := by decide

theorem witness_InvKeptByStep : MachineInv busy ∧ ∃ t, step busy = .next t ∧ t.seq = .clearing :=
  ⟨busy_inv, _, rfl, by decide⟩

theorem witness_StepNeverStopsFromInv : MachineInv busy := busy_inv

/-- A VM.SWAPV in flight whose next poll sees the bit. -/
def swapping : State := { shown4 with seq := .pollSwap, answers := [1] }

theorem swapping_inv : MachineInv swapping :=
  inv_of _ rfl rfl (by decide) (by show ∀ c ∈ word 0x04000000 0x0404, _; decide) rfl
    (by simp [swapping, shown4, inMode, State.reset, State.resetIn]) (fun _ => ⟨rfl, rfl, rfl⟩) (by decide)
    (by simp [swapping]) (fun _ => ⟨.m4, rfl, .inr rfl⟩)

theorem witness_OnlyTableTransitionsChangeMode :
    ((∃ t, exec .vmSwap shown4 = .next t ∧ t.active = .b)
      ∧ ∃ t, exec (.gfxSwitch .m5) shown4 = .next t ∧ t.mode = some .m5)
    ∧ (MachineInv swapping ∧ (∃ t, advance swapping = .next t ∧ t.active = .b) ∧ ∃ t, step swapping = .next t ∧ t.active = .b)
    ∧ MachineInv { shown4 with port := [.reset] } :=
  ⟨⟨⟨_, rfl, rfl⟩, _, rfl, rfl⟩, ⟨swapping_inv, ⟨_, rfl, by decide⟩, _, rfl, by decide⟩, shown4_inv _⟩

/-- VM.SET outside the bounds, presented. -/
def presentedOob : State := { shown4 with port := [.command ⟨0x22000000, 0x00A00000, 0⟩] }

theorem witness_TrapsArePrecise :
    MachineInv presentedOob ∧ presentedOob.halt = false ∧ ∃ t, step presentedOob = .next t ∧ t.halt = true :=
  ⟨shown4_inv _, rfl, _, rfl, by decide⟩

theorem haltedState_inv (port : List HostInput) : MachineInv { haltedState with port := port } :=
  inv_of _ rfl rfl rfl (by simp [haltedState, inMode]) rfl (fun _ => ⟨rfl, by simp [haltedState]⟩)
    (by simp [haltedState]) ⟨by show (0 : BitVec 8).toNat < _; decide, by show (0 : BitVec 8).toNat < _; decide⟩
    (by simp [haltedState, inMode, State.reset, State.resetIn]) (by simp [haltedState, inMode, State.reset, State.resetIn])

theorem witness_HaltEndsOnlyByReset :
    let s := { haltedState with port := [.command ⟨0, 0, 0⟩] }
    MachineInv s ∧ s.halt = true ∧ (∀ rest, s.port ≠ .reset :: rest) ∧ (∀ k rest, s.port ≠ .resetInside k :: rest)
      ∧ ∃ t, step s = .next t :=
  ⟨haltedState_inv _, rfl, by simp, by simp, _, rfl⟩

/-- R259, R90: a program presented while a VM.SWAPV is in flight is not over with the response of that one. -/
theorem test_runOver_in_flight :
    match step { swapping with port := [.command ⟨0x26000000, 0, 0⟩] } with
    | .next t => t.seq = .idle ∧ t.responses.length = 1 ∧ ¬ RunOver [⟨0x26000000, 0, 0⟩] swapping t
    | _ => False :=
  ⟨rfl, rfl, fun h => absurd h.2.2 (by decide)⟩

/-- A program of two commands, the second of which traps: the run to its end; and one that begins with a VM.SWAPV in flight. -/
theorem witness_RunAnswersEveryCommandOnce :
    (MachineInv swapping ∧ swapping.halt = false
      ∧ ∃ t, EndedWell [⟨0x26000000, 0, 0⟩] swapping t)
    ∧ MachineInv { shown4 with port := [] } ∧ shown4.halt = false
    ∧ ∃ t, RunOver [⟨0x26000000, 0, 0⟩, ⟨0x21000000, 0, 0⟩] shown4 t
        ∧ EndedInTrap [⟨0x26000000, 0, 0⟩, ⟨0x21000000, 0, 0⟩] shown4 t :=
  ⟨⟨swapping_inv, rfl, _, ⟨⟨2, rfl⟩, rfl, rfl⟩, rfl, by decide⟩, shown4_inv [], rfl, _, ⟨⟨2, rfl⟩, by decide, by decide⟩,
    ⟨2, rfl⟩, by decide⟩

theorem disabled4_inv : MachineInv (inMode .m4 false .a) :=
  inv_of _ rfl rfl rfl (by simp [inMode]) rfl (by simp [inMode, State.reset, State.resetIn]) (fun _ => ⟨rfl, rfl, rfl⟩)
    (by decide) (by simp [inMode, State.reset, State.resetIn]) (by simp [inMode, State.reset, State.resetIn])

theorem witness_EnableEstablishesInSync :
    MachineInv (inMode .m4 false .a) ∧ (inMode .m4 false .a).halt = false
      ∧ (∃ t, exec .vmEnable (inMode .m4 false .a) = .next t ∧ t.halt = false)
      ∧ ∃ t, exec (.gfxSwitch .m3) (inMode .m4 false .a) = .next t ∧ t.halt = false :=
  ⟨disabled4_inv, rfl, ⟨_, rfl, rfl⟩, _, rfl, rfl⟩

/-- Under the premises a swap completes, a REG.WRITE of slot 3 completes, and a clear in flight advances. -/
theorem witness_InSyncKept :
    (MachineInv shown4 ∧ Quiet shown4 ∧ InSync shown4 ∧ shown4.cfg.addr 0 ≠ shown4.cfg.addr 1)
    ∧ (∃ t, exec .vmSwap shown4 = .next t ∧ t.halt = false)
    ∧ (∃ t, exec (.regWrite 3) shown4 = .next t ∧ t.halt = false) ∧ HasSlot shown4 3 slot32
    ∧ shown4.cfg.addr 0 + 2 ≤ slot32.addr ∧ ∃ t, advance busy = .next t :=
  ⟨⟨shown4_inv [], rfl, shown4_inSync, by decide⟩, ⟨_, rfl, rfl⟩, ⟨_, rfl, rfl⟩, hasSlot32 _ rfl, by decide, _, rfl⟩

theorem witness_PresentedBufferIsNeverTouched :
    (MachineInv busy ∧ InSync busy ∧ busy.mode = some .m4 ∧ VideoMode.m4 ≠ .m3)
    ∧ (∃ t, exec (.vmSet 239 159 255 0) shown4 = .next t ∧ t.events ≠ shown4.events)
    ∧ busy.seq = .clearing ∧ (∃ t, advance busy = .next t ∧ t.events ≠ busy.events) ∧ ∃ t, step busy = .next t :=
  ⟨⟨busy_inv, shown4_inSync, rfl, by decide⟩, ⟨_, rfl, by decide⟩, rfl, ⟨_, rfl, by decide⟩, _, rfl⟩

end Sys2Proof.Tests
end

section
/-! Well-formedness of a configuration read off its nine conditions (spec/00_scope.md R6), and the refusal of a
configuration that fails one. The lemmas of Laws/Configuration.lean give what a well-formed configuration has; these say
when a condition holds, both ways. -/

namespace Sys2Proof.Machine

/-- A property of every mode is its three instances (R29). -/
theorem forall_videoMode {P : VideoMode → Prop} : (∀ m, P m) ↔ P .m3 ∧ P .m4 ∧ P .m5 := by
  constructor
  · intro h
    exact ⟨h .m3, h .m4, h .m5⟩
  · rintro ⟨h3, h4, h5⟩ m
    cases m with
    | m3 => exact h3
    | m4 => exact h4
    | m5 => exact h5

/-- Modes have different codes exactly when the three codes are pairwise different. -/
theorem modeCode_injective_iff (cfg : Cfg) :
    (∀ m m', modeCode cfg m = modeCode cfg m' → m = m')
      ↔ cfg.code3 ≠ cfg.code4 ∧ cfg.code3 ≠ cfg.code5 ∧ cfg.code4 ≠ cfg.code5 := by
  constructor
  · intro h
    exact ⟨(nomatch h .m3 .m4 ·), (nomatch h .m3 .m5 ·), (nomatch h .m4 .m5 ·)⟩
  · rintro ⟨h34, h35, h45⟩
    simp [forall_videoMode, modeCode, h34, h35, h45, Ne.symm h34, Ne.symm h35, Ne.symm h45]

theorem disjointRanges_iff (lo n lo' n' : Nat) :
    disjointRanges lo n lo' n' = true ↔ lo + n ≤ lo' ∨ lo' + n' ≤ lo := by
  simp [disjointRanges]

/-- R6: well-formedness is the nine conditions, the converse of `wf_parts` included. -/
theorem wf_iff_parts (cfg : Cfg) :
    cfg.wf = true ↔
      cfg.wfCount = true ∧ cfg.wfWidths = true ∧ cfg.wfSlotAlign = true ∧ cfg.wfBits = true ∧ cfg.wfModeCodes = true
        ∧ cfg.wfControlBits = true ∧ cfg.wfFrameB = true ∧ cfg.wfAddressSpace = true ∧ cfg.wfDisjoint = true := by
  simp only [Cfg.wf, Bool.and_eq_true, and_assoc]

/-- R6 (a). -/
theorem wfCount_iff (cfg : Cfg) : cfg.wfCount = true ↔ 2 ≤ cfg.regtab.length ∧ cfg.regtab.length ≤ 16 := by
  simp only [Cfg.wfCount, Bool.and_eq_true, decide_eq_true_eq]
  rfl

/-- R6 (b). -/
theorem wfWidths_iff (cfg : Cfg) :
    cfg.wfWidths = true ↔ (cfg.slotDef 0).width = .w16 ∧ (cfg.slotDef 1).width = .w16 := by
  simp [Cfg.wfWidths]

/-- R6 (c). -/
theorem wfSlotAlign_iff (cfg : Cfg) : cfg.wfSlotAlign = true ↔ ∀ d ∈ cfg.regtab, d.width.bytes ∣ d.addr := by
  simp [Cfg.wfSlotAlign, Nat.dvd_iff_mod_eq_zero]

/-- R6 (d). -/
theorem wfBits_iff (cfg : Cfg) :
    cfg.wfBits = true ↔
      cfg.modeShift < 16 ∧ cfg.bufselBit < 16 ∧ cfg.bg2Bit < 16 ∧ cfg.blankBit < 16 ∧ cfg.vblankBit < 16 := by
  simp [Cfg.wfBits, and_assoc]

/-- R6 (e): the three checks of a code, and the three of a pair of codes, are the statements over all modes. -/
theorem wfModeCodes_iff (cfg : Cfg) :
    cfg.wfModeCodes = true ↔
      cfg.modeMask.toNat * 2 ^ cfg.modeShift < 2 ^ 16 ∧ (∀ m, modeCode cfg m &&& cfg.modeMask = modeCode cfg m)
        ∧ ∀ m m', modeCode cfg m = modeCode cfg m' → m = m' := by
  rw [modeCode_injective_iff, forall_videoMode]
  simp only [Cfg.wfModeCodes, Bool.and_eq_true, decide_eq_true_eq, beq_iff_eq, bne_iff_ne, and_assoc]
  rfl

/-- R6 (f). -/
theorem wfControlBits_iff (cfg : Cfg) :
    cfg.wfControlBits = true ↔
      cfg.bufselBit ≠ cfg.bg2Bit ∧ (cfg.modeMask.toNat * 2 ^ cfg.modeShift).testBit cfg.bufselBit = false
        ∧ (cfg.modeMask.toNat * 2 ^ cfg.modeShift).testBit cfg.bg2Bit = false := by
  simp only [Cfg.wfControlBits, Cfg.modeField, Bool.and_eq_true, decide_eq_true_eq, Bool.not_eq_true', and_assoc]

/-- R6 (g). -/
theorem wfFrameB_iff (cfg : Cfg) :
    cfg.wfFrameB = true ↔ 40960 ≤ cfg.frameBOffset ∧ cfg.frameBOffset + 40960 ≤ 98304 := by
  simp only [Cfg.wfFrameB, Bool.and_eq_true, decide_eq_true_eq]
  rfl

/-- R6 (h). -/
theorem wfAddressSpace_iff (cfg : Cfg) :
    cfg.wfAddressSpace = true ↔
      cfg.vramBase + 98304 ≤ 2 ^ 32 ∧ cfg.palBase + 1024 ≤ 2 ^ 32
        ∧ ∀ d ∈ cfg.regtab, d.addr + d.width.bytes ≤ 2 ^ 32 := by
  simp only [Cfg.wfAddressSpace, Bool.and_eq_true, List.all_eq_true, decide_eq_true_eq, and_assoc]
  rfl

/-- R6 (i), with no condition on two slots (log 9). -/
theorem wfDisjoint_iff (cfg : Cfg) :
    cfg.wfDisjoint = true ↔
      (cfg.vramBase + 98304 ≤ cfg.palBase ∨ cfg.palBase + 1024 ≤ cfg.vramBase)
        ∧ ∀ d ∈ cfg.regtab,
          (cfg.vramBase + 98304 ≤ d.addr ∨ d.addr + d.width.bytes ≤ cfg.vramBase)
            ∧ (cfg.palBase + 1024 ≤ d.addr ∨ d.addr + d.width.bytes ≤ cfg.palBase) := by
  simp only [Cfg.wfDisjoint, Bool.and_eq_true, List.all_eq_true, disjointRanges_iff]
  rfl

/-- A step in a configuration that is not well-formed is refused, whatever the port presents: the configuration is
looked at first. -/
theorem step_refused_of_not_wf {s : State} (h : s.cfg.wf = false) : step s = .refused .illFormedConfiguration := by
  simp [step, configuredStep, h]

/-- Settles O40: the refusal of a step, CFG_REF by evaluation, and R6 condition by condition. -/
theorem illFormedConfigurationRefused : Obligations.IllFormedConfigurationRefused := by
  refine ⟨fun _ => step_refused_of_not_wf, by decide, fun cfg => ?_⟩
  rw [wf_iff_parts, wfCount_iff, wfWidths_iff, wfSlotAlign_iff, wfBits_iff, wfModeCodes_iff, wfControlBits_iff,
    wfFrameB_iff, wfAddressSpace_iff, wfDisjoint_iff]

end Sys2Proof.Machine
end

section
/-! The machine's invariant and the shared operations: one rule per operation, each with the side condition it needs (R22
for a held word, R37 for a store, R161 for the triple, R213 for trap entry). No field of the invariant speaks of the event
history, the responses, the answers or the port, so a change of those alone keeps it field by field. -/

namespace Sys2Proof.Machine

/-! ### The slots and addresses the rules ask about -/

theorem HasSlot.mem {s : State} {slot : Fin 16} {d : SlotDef} (h : HasSlot s slot d) : d ∈ s.cfg.regtab :=
  List.mem_of_getElem? h

/-- R37, R6 (h): a slot's bytes lie in the address space. -/
theorem HasSlot.inSpace {s : State} {slot : Fin 16} {d : SlotDef} (h : HasSlot s slot d) (hwf : s.cfg.wf = true) :
    d.addr + d.width.bytes ≤ addressSpace :=
  (windows_in_space hwf).2.2 d h.mem

/-- Slot 0 is the 16-bit display-control word (R6 (b), R34). -/
theorem hasSlot_control {s : State} (hwf : s.cfg.wf = true) :
    ∃ d, HasSlot s 0 d ∧ d.width = .w16 ∧ s.cfg.addr 0 = d.addr := by
  obtain ⟨d0, d1, rest, hr, h0, -, ha, -⟩ := first_slots hwf
  exact ⟨d0, by simp [HasSlot, hr], h0, ha⟩

/-- Slot 1 is the 16-bit display-status word (R6 (b), R35). -/
theorem hasSlot_status {s : State} (hwf : s.cfg.wf = true) :
    ∃ d, HasSlot s 1 d ∧ d.width = .w16 := by
  obtain ⟨d0, d1, rest, hr, -, h1, -, -⟩ := first_slots hwf
  exact ⟨d1, by simp [HasSlot, hr], h1⟩

theorem controlAddr_inSpace {s : State} (hwf : s.cfg.wf = true) :
    s.cfg.addr 0 + Width.w16.bytes ≤ addressSpace := by
  obtain ⟨d, hd, hw, ha⟩ := hasSlot_control hwf
  have h := hd.inSpace hwf
  rwa [hw, ← ha] at h

/-- A pixel's cell lies in Video RAM, and so in the address space. -/
theorem cellAddr_inSpace {s : State} (hwf : s.cfg.wf = true) {m : VideoMode} {x y : Nat} (hx : x < wd m) (hy : y < ht m) :
    cellAddr s m x y + Width.w16.bytes ≤ addressSpace := by
  have hc := cellAddr_bounds hwf hx hy
  have hv := (windows_in_space hwf).1
  simp only [Width.bytes]
  omega

theorem wd_le (m : VideoMode) : wd m ≤ 240 := by cases m <;> decide

theorem ht_le (m : VideoMode) : ht m ≤ 160 := by cases m <;> decide

theorem wd_pos (m : VideoMode) : 0 < wd m := by cases m <;> decide

theorem ht_pos (m : VideoMode) : 0 < ht m := by cases m <;> decide

/-- A counter below a bound of at most 255 does not wrap when it advances (R172). -/
theorem counter_succ {c : BitVec 8} {n : Nat} (h : c.toNat + 1 < n) (hn : n ≤ 255) : (c + 1).toNat = c.toNat + 1 := by
  rw [BitVec.toNat_add, show (1 : BitVec 8).toNat = 1 from rfl]
  omega

/-- The ranges of CX and CY at their reset value, which is also where a clear starts (R20, R41, R172). -/
theorem zero_counters : (0 : BitVec 8).toNat < 240 ∧ (0 : BitVec 8).toNat < 160 := by decide

/-! ### One rule per operation -/

theorem port_inv {s : State} (h : MachineInv s) (port : List HostInput) : MachineInv { s with port := port } := { h with }

theorem respond_inv {s : State} (h : MachineInv s) (v : Word) : MachineInv (respond s v) := { h with }

theorem respondHalted_inv {s : State} (h : MachineInv s) : MachineInv (respondHalted s) := { h with }

theorem memRead_inv {s : State} (h : MachineInv s) (w : Width) (a : Nat) : MachineInv (memRead s w a) := { h with }

/-- A held word that fits its slot keeps the width invariant (R22). -/
theorem setHeld_inv {s : State} {slot : Fin 16} {d : SlotDef} {v : Word} (h : MachineInv s) (hd : HasSlot s slot d)
    (hv : Fits d v) : MachineInv (setHeld s slot v) :=
  { h with
    width := fun k e (he : HasSlot s k e) => by
      by_cases hk : k = slot
      · subst hk
        obtain rfl : d = e := Option.some.inj (hd.symm.trans he)
        rwa [heldAt_setHeld_same]
      · rw [heldAt_setHeld_other s hk]
        exact h.width k e he }

/-- A store inside the address space keeps memory canonical and in range (R37). -/
theorem memWrite_inv {s : State} {w : Width} {a : Nat} (h : MachineInv s) (ha : a + w.bytes ≤ addressSpace) (v : Word) :
    MachineInv (memWrite s w a v) :=
  { h with
    memory := memWrite_wf h.memory w a v
    inSpace := fun c hc => by
      rcases Memory.mem_writeWord hc with hin | hold
      · omega
      · exact h.inSpace c hold }

/-- Trap entry records a cause and ends the command (R213). -/
theorem takeTrap_inv {s : State} (h : MachineInv s) (opc : Byte) {tr : Trap} (hc : tr.cause ≠ .none) :
    MachineInv (takeTrap s opc tr) :=
  { h with
    halted := fun _ => ⟨rfl, hc⟩
    running := nofun
    clearing := nofun
    swapping := nofun }

/-- The end of a multi-step command (R28). -/
theorem finish_inv {s : State} (h : MachineInv s) : MachineInv (finish s) :=
  { h with
    halted := fun hh => ⟨rfl, (h.halted hh).2⟩
    clearing := nofun
    swapping := nofun }

/-- Reset gives every piece of VMC state a value of the invariant, whatever it was before (R41, R242): only the
configuration and memory are kept. -/
theorem resetVmc_inv {s : State} (hwf : s.cfg.wf = true) (hmem : s.mem.wf = true) (hspace : ∀ c ∈ s.mem, c.1 < addressSpace) :
    MachineInv s.resetVmc where
  configured := hwf
  memory := hmem
  inSpace := hspace
  width := fun slot _ _ => by
    rw [Fits, (resetVmc_vmcReset s).1 slot]
    exact Nat.two_pow_pos _
  triple := rfl
  aligned := nofun
  halted := nofun
  running := fun _ => ⟨rfl, rfl, rfl⟩
  counters := zero_counters
  clearing := nofun
  swapping := nofun

/-- Construction needs an idle sequencer: a command in flight relies on the mode it started in. -/
theorem constructBody_inv {s : State} {m : VideoMode} (h : MachineInv s) (hseq : s.seq = .idle)
    (ha : RegionsAligned s.cfg m) : MachineInv (constructBody s m) :=
  { h with
    triple := by cases m <;> rfl
    aligned := fun _ hm => Option.some.inj hm ▸ ha
    clearing := fun hs => nomatch hseq.symm.trans hs
    swapping := fun hs => nomatch hseq.symm.trans hs }

/-- EN = 1 in a constructed mode is a reachable triple with the buffer unchanged (R161). -/
theorem enabled_inv {s : State} {m : VideoMode} (h : MachineInv s) (hm : s.mode = some m) :
    MachineInv { s with en := true } :=
  { h with
    triple := by
      have ht := h.triple
      rw [hm] at ht ⊢
      cases m with
      | m3 => exact ht
      | m4 => rfl
      | m5 => rfl
    swapping := fun _ => ⟨m, hm, .inr rfl⟩ }

/-- Either buffer is reachable in an Enabled double-buffered mode (R161). -/
theorem active_inv {s : State} {m : VideoMode} (h : MachineInv s) (hm : s.mode = some m) (h3 : m ≠ .m3) (he : s.en = true)
    (x : Buffer) : MachineInv { s with active := x } :=
  { h with
    triple := by
      show legalTriple s.mode s.en x = true
      rw [hm, he]
      cases m with
      | m3 => exact absurd rfl h3
      | m4 => rfl
      | m5 => rfl }

theorem enableBody_inv {s : State} {m : VideoMode} (h : MachineInv s) (hm : s.mode = some m) :
    MachineInv (enableBody s m) := by
  obtain ⟨d, hd, hw, -⟩ := hasSlot_control h.configured
  have hfit : Fits d (controlWord s.cfg m s.active) := by
    rw [Fits, hw]
    exact controlWord_fits _ _ _
  have hheld := setHeld_inv h hd hfit
  exact enabled_inv (memWrite_inv hheld (controlAddr_inSpace h.configured) _) hm

theorem swapBody_inv {s : State} {m : VideoMode} (h : MachineInv s) (hm : s.mode = some m) (h3 : m ≠ .m3)
    (he : s.en = true) : MachineInv (swapBody s) := by
  obtain ⟨d, hd, hw, -⟩ := hasSlot_control h.configured
  have hfit : Fits d (swapWord s) := by
    rw [Fits, hw]
    exact swapWord_fits s
  have hheld := setHeld_inv (memRead_inv h .w16 (s.cfg.addr 0)) hd hfit
  exact active_inv (memWrite_inv hheld (controlAddr_inSpace h.configured) _) hm h3 he _

theorem pollLoad_inv {s : State} (h : MachineInv s) : MachineInv (pollLoad s) := by
  obtain ⟨d, hd, hw⟩ := hasSlot_status h.configured
  refine setHeld_inv (memRead_inv h _ _) hd ?_
  rw [Fits, hw]
  exact busValue_fits s .w16 _

theorem setPixel_inv {s : State} {m : VideoMode} {x y : Nat} (h : MachineInv s) (hx : x < wd m) (hy : y < ht m)
    (c : Half) : MachineInv (setPixel s m x y c) := by
  have ha := cellAddr_inSpace h.configured hx hy
  by_cases h4 : m = .m4
  · subst h4
    rw [setPixel_mode4]
    exact memWrite_inv (memRead_inv h _ _) ha _
  · rw [setPixel_direct h4]
    exact memWrite_inv h ha _

/-! ### The sequencer (R28) -/

/-- A clear starts at pixel (0, 0) of a constructed mode (R172). -/
theorem startClear_inv {s : State} {m : VideoMode} (h : MachineInv s) (hrun : s.halt = false) (hm : s.mode = some m) :
    MachineInv { s with seq := .clearing, cx := 0, cy := 0 } :=
  { h with
    halted := fun hh => nomatch hrun.symm.trans hh
    counters := zero_counters
    clearing := fun _ => ⟨m, hm, wd_pos m, ht_pos m⟩
    swapping := nofun }

theorem startPoll_inv {s : State} (h : MachineInv s) (hrun : s.halt = false) : MachineInv { s with seq := .poll } :=
  { h with
    halted := fun hh => nomatch hrun.symm.trans hh
    clearing := nofun
    swapping := nofun }

theorem startPollSwap_inv {s : State} {m : VideoMode} (h : MachineInv s) (hrun : s.halt = false) (hm : s.mode = some m)
    (he : m = .m3 ∨ s.en = true) : MachineInv { s with seq := .pollSwap } :=
  { h with
    halted := fun hh => nomatch hrun.symm.trans hh
    clearing := nofun
    swapping := fun _ => ⟨m, hm, he⟩ }

/-- Moving to another pixel inside the bounds keeps the invariant of a clear in flight. -/
theorem movePixel_inv {s : State} {m : VideoMode} {cx cy : BitVec 8} (h : MachineInv s) (hseq : s.seq = .clearing)
    (hm : s.mode = some m) (hx : cx.toNat < wd m) (hy : cy.toNat < ht m) : MachineInv { s with cx := cx, cy := cy } :=
  { h with
    counters := ⟨hx.trans_le (wd_le m), hy.trans_le (ht_le m)⟩
    clearing := fun _ => ⟨m, hm, hx, hy⟩
    swapping := fun hs => nomatch hseq.symm.trans hs }

/-- The mode of a clear in flight, and its pixel inside the bounds. -/
theorem clearing_bounds {s : State} {m : VideoMode} (h : MachineInv s) (hseq : s.seq = .clearing) (hm : s.mode = some m) :
    s.cx.toNat < wd m ∧ s.cy.toNat < ht m := by
  obtain ⟨m', hm', hx, hy⟩ := h.clearing hseq
  obtain rfl : m = m' := Option.some.inj (hm.symm.trans hm')
  exact ⟨hx, hy⟩

theorem clearAdvance_inv {s : State} {m : VideoMode} (h : MachineInv s) (hseq : s.seq = .clearing) (hm : s.mode = some m) :
    MachineInv (clearAdvance s m) := by
  obtain ⟨hx, hy⟩ := clearing_bounds h hseq hm
  have hw := wd_le m
  have hh := ht_le m
  unfold clearAdvance
  split
  · next hnext =>
    refine movePixel_inv h hseq hm ?_ hy
    rwa [counter_succ hnext (by omega)]
  · split
    · next hnext =>
      refine movePixel_inv h hseq hm (wd_pos m) ?_
      rwa [counter_succ hnext (by omega)]
    · exact finish_inv h

/-- A step of a clear in flight takes no trap: its pixel is inside the bounds (R121, R172). -/
theorem clearStep_of_bounds {s : State} {m : VideoMode} (hx : s.cx.toNat < wd m) (hy : s.cy.toNat < ht m) :
    clearStep s m = clearAdvance (setPixel s m s.cx.toNat s.cy.toNat 0) m := by
  simp only [clearStep, checkPixel_eq_none hx hy]

theorem setPixel_mode (s : State) (m : VideoMode) (x y : Nat) (c : Half) : (setPixel s m x y c).mode = s.mode := by
  cases m <;> rfl

theorem setPixel_seq (s : State) (m : VideoMode) (x y : Nat) (c : Half) : (setPixel s m x y c).seq = s.seq := by
  cases m <;> rfl

theorem clearStep_inv {s : State} {m : VideoMode} (h : MachineInv s) (hseq : s.seq = .clearing) (hm : s.mode = some m) :
    MachineInv (clearStep s m) := by
  obtain ⟨hx, hy⟩ := clearing_bounds h hseq hm
  rw [clearStep_of_bounds hx hy]
  exact clearAdvance_inv (setPixel_inv h hx hy 0) ((setPixel_seq ..).trans hseq) ((setPixel_mode ..).trans hm)

theorem vsyncStep_inv {s : State} (h : MachineInv s) : MachineInv (vsyncStep s) := by
  unfold vsyncStep
  split
  · exact finish_inv (pollLoad_inv h)
  · exact pollLoad_inv h

theorem swapvStep_inv {s : State} (h : MachineInv s) (hseq : s.seq = .pollSwap) : MachineInv (swapvStep s) := by
  obtain ⟨m, hm, he⟩ := h.swapping hseq
  have hpoll := pollLoad_inv h
  unfold swapvStep
  split
  · split
    · exact finish_inv hpoll
    · next h3 =>
      have h3' : m ≠ .m3 := fun e => h3 (hm.trans (congrArg some e))
      exact finish_inv (swapBody_inv hpoll hm h3' (he.resolve_left h3'))
  · exact hpoll

end Sys2Proof.Machine
end

section
/-! The machine's invariant along steps (R22, R33, R161, R162): an accepted instruction, a step of the command in flight, and
a whole step, with a reset inside it or not. -/

namespace Sys2Proof.Machine

/-- An accepted instruction keeps the invariant. It is accepted on a VMC that is not halted, with no command in flight
(R90, R212). -/
theorem exec_inv {i : Instr} {s t : State} (h : MachineInv s) (hrun : s.halt = false) (hseq : s.seq = .idle)
    (he : exec i s = .next t) : MachineInv t := by
  rcases exec_cases he with ⟨tr, rfl, hc, -⟩ | heff
  · exact takeTrap_inv h _ hc
  · cases heff with
    | read slot d hd => exact respond_inv (setHeld_inv (memRead_inv h _ _) hd (busValue_fits s _ _)) _
    | write slot d hd => exact respond_inv (memWrite_inv h (hd.inSpace h.configured) _) _
    | staged _ slot d v _ hd hv => exact respond_inv (setHeld_inv h hd hv) _
    | query => exact respond_inv h _
    | construct m ha => exact respond_inv (constructBody_inv h hseq ha) _
    | enable m hm => exact respond_inv (enableBody_inv h hm) _
    | set m x y c hm hb => exact respond_inv (setPixel_inv h hb.1 hb.2 c) _
    | get m x y => exact respond_inv (memRead_inv h _ _) _
    | swap m hm h3 hen => exact respond_inv (swapBody_inv h hm h3 hen) _
    | clear m hm => exact clearStep_inv (startClear_inv h hrun hm) rfl hm
    | setpal k c _ hk =>
      refine respond_inv (memWrite_inv h ?_ _) _
      have hp := (windows_in_space h.configured).2.1
      simp only [Width.bytes]
      omega
    | getpal k => exact respond_inv (memRead_inv h _ _) _
    | vsync => exact vsyncStep_inv (startPoll_inv h hrun)
    | swapv m hm hen => exact swapvStep_inv (startPollSwap_inv h hrun hm hen) rfl
    | switch m ha => exact respond_inv (enableBody_inv (constructBody_inv h hseq ha) rfl) _

/-- A step of the command in flight keeps the invariant. -/
theorem advance_inv {s t : State} (h : MachineInv s) (ha : advance s = .next t) : MachineInv t := by
  unfold advance at ha
  split at ha
  · cases ha
    exact h
  · next hseq =>
    split at ha
    · next m hm =>
      cases ha
      exact clearStep_inv h hseq hm
    · cases ha
  · cases ha
    exact vsyncStep_inv h
  · next hseq =>
    cases ha
    exact swapvStep_inv h hseq

/-- A reset inside a step leaves memory as the state before the step or as the whole step has it, and resets the VMC. -/
theorem cutByReset_inv {s t : State} (h : MachineInv s) (ht : MachineInv t) (hacc : Accesses s t) (k : Nat) :
    MachineInv (cutByReset k s t) := by
  obtain ⟨loads, stores, hes, -⟩ := id hacc
  rcases cutByReset_cases hacc hes k with ⟨-, e⟩ | ⟨-, -, answers, freeIdx, e⟩
  · rw [e]
    exact resetVmc_inv ht.configured ht.memory ht.inSpace
  · rw [e]
    exact resetVmc_inv h.configured h.memory h.inSpace

/-- One step keeps the invariant, when the step that a reset lands in does. -/
theorem step_inv_of_resetInside {s t : State} (h : MachineInv s) (hs : step s = .next t)
    (hinside : ∀ k rest u, s.port = .resetInside k :: rest → step { s with port := rest } = .next u → MachineInv u) :
    MachineInv t := by
  rcases step_cases h.configured with ⟨_, e⟩ | ⟨rest, _, e⟩ | ⟨rest, _, e⟩ | ⟨_, _, _, _, e⟩ | ⟨_, rest, _, _, _, e⟩
    | ⟨_, rest, _, _, _, _, _, e⟩ | ⟨_, rest, _, _, hseq, hrun, _, e⟩ | ⟨k, rest, hp, e⟩ <;> rw [e] at hs
  · exact advance_inv h hs
  · exact advance_inv (port_inv h rest) hs
  · cases hs
    exact resetVmc_inv h.configured h.memory h.inSpace
  · exact advance_inv h hs
  · cases hs
    exact respondHalted_inv (port_inv h rest)
  · cases hs
    exact takeTrap_inv (port_inv h rest) _ nofun
  · exact exec_inv (port_inv h rest) hrun hseq hs
  · obtain ⟨u, hu, rfl⟩ := resetDuring_next hs
    exact cutByReset_inv h (hinside k rest u hp hu) (step_accesses (s := { s with port := rest }) h.configured hu).of_port k

/-- Every step keeps the invariant, by induction on what the host still does: a reset inside a step looks behind it. -/
theorem step_inv {s t : State} (h : MachineInv s) (hs : step s = .next t) : MachineInv t := by
  generalize hp : s.port = inputs
  induction inputs generalizing s t with
  | nil => exact step_inv_of_resetInside h hs fun k rest u hp' _ => nomatch hp.symm.trans hp'
  | cons x rest ih =>
    refine step_inv_of_resetInside h hs fun k rest' u hp' hu => ?_
    obtain ⟨-, rfl⟩ := List.cons.inj (hp.symm.trans hp')
    exact ih (port_inv h rest) hu rfl

/-- The state after reset is one of the invariant: it is its own reset (R41). -/
theorem resetIn_inv {cfg : Cfg} (hwf : cfg.wf = true) : MachineInv (State.resetIn cfg) :=
  resetVmc_inv (s := State.resetIn cfg) hwf rfl nofun

/-- Settles O48: the rules of the operations, along the cases of a step. -/
theorem invKeptByStep : Obligations.InvKeptByStep := fun _ _ => step_inv

/-- Settles O47: reset of any state with a well-formed configuration and canonical memory, at the state after reset. -/
theorem invAfterReset : Obligations.InvAfterReset :=
  ⟨resetIn_inv (by decide), fun _ => resetIn_inv⟩

/-- Settles O39: the values reset gives, at the state after reset, and CFG_REF by evaluation. -/
theorem resetStateMatchesTable : Obligations.ResetStateMatchesTable := by
  obtain ⟨hheld, hmode, hen, hactive, hseq, hcx, hcy, hhalt, hcause, hinfo, hopc⟩ := resetVmc_vmcReset State.reset
  exact ⟨hheld, hmode, hen, hactive, hseq, hcx, hcy, hhalt, hcause, hinfo, hopc, by decide⟩

end Sys2Proof.Machine
end

section
/-! The synchronisation invariant (R36): what the display-control word shows of a mode and a buffer, how the words that enable
and swap store show it, and the operations that leave it alone. -/

namespace Sys2Proof.Machine

/-- The display-control word `w` shows mode `m` with buffer `x` presented: the three conditions of R36 on the word. -/
def ShowsMode (cfg : Cfg) (m : VideoMode) (x : Buffer) (w : Half) : Prop :=
  ((w >>> cfg.modeShift) &&& cfg.modeMask = modeCode cfg m) ∧ bitIs w cfg.bg2Bit true
    ∧ (doubleBuffered m = true → bitIs w cfg.bufselBit (activeBit x))

/-- R36: InSync is that the VMC is Enabled, not halted, and the word in memory shows its mode and ACTIVE. -/
theorem inSync_iff (s : State) :
    InSync s ↔
      s.en = true ∧ s.halt = false ∧ ∃ m, s.mode = some m ∧ ShowsMode s.cfg m s.active (controlInMemory s) :=
  Iff.rfl

/-! ### The words that show a mode -/

/-- A bit of the mode field is neither the buffer-select nor the BG2 bit (R6 (f)). -/
theorem modeField_bit_ne {cfg : Cfg} (hwf : cfg.wf = true) {j : Nat} (hj : cfg.modeMask.getLsbD j = true) :
    cfg.modeShift + j ≠ cfg.bufselBit ∧ cfg.modeShift + j ≠ cfg.bg2Bit := by
  obtain ⟨-, hbuf, hbg⟩ := control_bits_apart hwf
  have hset : cfg.modeField.testBit (cfg.modeShift + j) = true := by simp [modeField_testBit, hj]
  exact ⟨fun e => by simp [e, hbuf] at hset, fun e => by simp [e, hbg] at hset⟩

/-- The mode field of a word, read off its bits inside the mask. -/
theorem modeField_eq_of_bits {cfg : Cfg} {w c : Half} (hc : c &&& cfg.modeMask = c)
    (h : ∀ j, cfg.modeMask.getLsbD j = true → w.getLsbD (cfg.modeShift + j) = c.getLsbD j) :
    (w >>> cfg.modeShift) &&& cfg.modeMask = c := by
  rw [← hc]
  apply BitVec.eq_of_getLsbD_eq
  intro j _
  rw [BitVec.getLsbD_and, BitVec.getLsbD_and, BitVec.getLsbD_ushiftRight]
  cases hj : cfg.modeMask.getLsbD j with
  | false => simp
  | true => rw [h j hj]

/-- R164: the word enable stores is the control word of its mode and buffer. -/
theorem controlWord_isControlWord {cfg : Cfg} (hwf : cfg.wf = true) (m : VideoMode) (x : Buffer) :
    IsControlWord cfg m x (lowHalf (controlWord cfg m x)) := by
  obtain ⟨hbuf, hbg, -⟩ := control_bits_lt hwf
  obtain ⟨hne, -, -⟩ := control_bits_apart hwf
  have hbit : ∀ {j}, j < 16 → (lowHalf (controlWord cfg m x)).getLsbD j = (controlWord cfg m x).getLsbD j := fun hj => by
    rw [lowHalf_getLsbD, decide_eq_true hj, Bool.true_and]
  refine ⟨modeField_eq_of_bits (modeCode_and_mask hwf m) fun j hj => ?_, ?_, fun hd => ?_, fun j hj => ?_⟩
  · have hlt := modeMask_bit_lt hwf hj
    obtain ⟨h1, h2⟩ := modeField_bit_ne hwf hj
    simp [hbit hlt, controlWord_getLsbD cfg m x hlt, h1, h2, hj]
  · simp [hbit hbg, controlWord_getLsbD cfg m x hbg, hne.symm]
  · simp [hbit hbuf, controlWord_getLsbD cfg m x hbuf, hd]
  · have hlt : j < 16 := by
      by_contra hge
      simp [lowHalf_getLsbD, hge] at hj
    rw [hbit hlt, controlWord_getLsbD cfg m x hlt] at hj
    rw [modeField_testBit]
    split at hj
    · next h => exact .inr (.inl h)
    · split at hj
      · next h => exact .inl h
      · split at hj
        · next h => exact .inr (.inr (by simp [h]))
        · exact nomatch hj

theorem IsControlWord.showsMode {cfg : Cfg} {m : VideoMode} {x : Buffer} {w : Half} (h : IsControlWord cfg m x w) :
    ShowsMode cfg m x w := by
  obtain ⟨hmode, hbg, hbuf, -⟩ := h
  exact ⟨hmode, hbg, hbuf⟩

/-- A word that shows a mode with one buffer, its buffer-select bit replaced, shows it with the other (R171). -/
theorem ShowsMode.of_bufsel {cfg : Cfg} {m : VideoMode} {x y : Buffer} {w w' : Half} (hwf : cfg.wf = true)
    (h : ShowsMode cfg m x w)
    (hw : ∀ j, j < 16 → w'.getLsbD j = if j = cfg.bufselBit then activeBit y else w.getLsbD j) :
    ShowsMode cfg m y w' := by
  obtain ⟨hmode, hbg, -⟩ := h
  obtain ⟨hbufLt, hbgLt, -⟩ := control_bits_lt hwf
  obtain ⟨hne, -, -⟩ := control_bits_apart hwf
  refine ⟨modeField_eq_of_bits (modeCode_and_mask hwf m) fun j hj => ?_, ?_, fun _ => ?_⟩
  · rw [hw _ (modeMask_bit_lt hwf hj), if_neg (modeField_bit_ne hwf hj).1, ← hmode]
    simp [hj]
  · rw [bitIs, hw _ hbgLt, if_neg hne.symm]
    exact hbg
  · rw [bitIs, hw _ hbufLt, if_pos rfl]

/-! ### Enable and swap -/

theorem enableBody_control (s : State) (m : VideoMode) :
    controlInMemory (enableBody s m) = lowHalf (controlWord s.cfg m s.active) := by
  show (enableBody s m).mem.read16 (s.cfg.addr 0) = _
  rw [enableBody_mem, trunc_of_fits (controlWord_fits _ _ _)]
  exact Memory.read16_write16_same _ _

/-- Enabling the constructed mode establishes InSync (R36, R164). -/
theorem enableBody_inSync {s : State} {m : VideoMode} (hwf : s.cfg.wf = true) (hm : s.mode = some m)
    (hrun : s.halt = false) : InSync (enableBody s m) := by
  refine (inSync_iff _).2 ⟨rfl, hrun, m, hm, ?_⟩
  rw [enableBody_control]
  exact (controlWord_isControlWord hwf m s.active).showsMode

/-- Under Quiet, with slots 0 and 1 naming different words, the swap loads the word in memory and changes its
buffer-select bit along with ACTIVE, which keeps InSync (R36, R171). -/
theorem swapBody_inSync {s : State} (hwf : s.cfg.wf = true) (hq : Quiet s) (hne : s.cfg.addr 0 ≠ s.cfg.addr 1)
    (h : InSync s) : InSync (swapBody s) := by
  obtain ⟨hen, hrun, m, hm, hw⟩ := (inSync_iff s).1 h
  refine (inSync_iff _).2 ⟨hen, hrun, m, hm, hw.of_bufsel hwf fun j hj => ?_⟩
  rw [show controlInMemory (swapBody s) = lowHalf (swapWord s) from swapBody_control s, swapWord_getLsbD s hj,
    busValue_quiet hq hne, lowHalf_zext]
  rfl

/-! ### What leaves InSync alone -/

/-- Everything InSync speaks of is unchanged: MODE, EN, ACTIVE, HALT, the configuration and the display-control word. -/
structure KeepsDisplay (s t : State) : Prop where
  video : KeepsVideo s t
  halt : t.halt = s.halt
  cfg : t.cfg = s.cfg
  control : controlInMemory t = controlInMemory s

theorem InSync.of_keepsDisplay {s t : State} (h : InSync s) (hk : KeepsDisplay s t) : InSync t := by
  obtain ⟨⟨hmode, hen, hactive⟩, hhalt, hcfg, hcontrol⟩ := hk
  obtain ⟨hen', hrun, m, hm, hw⟩ := (inSync_iff s).1 h
  refine (inSync_iff t).2 ⟨hen.trans hen', hhalt.trans hrun, m, hmode.trans hm, ?_⟩
  rwa [hcfg, hactive, hcontrol]

/-- A change of the held words, the sequencer, the history, the responses or the answers alone leaves the display alone. -/
theorem KeepsDisplay.of_mem {s t : State} (hv : KeepsVideo s t) (hh : t.halt = s.halt) (hc : t.cfg = s.cfg)
    (hm : t.mem = s.mem) : KeepsDisplay s t :=
  ⟨hv, hh, hc, by rw [controlInMemory, controlInMemory, hc, hm]⟩

theorem InSync.respond {s : State} (h : InSync s) (v : Word) : InSync (Machine.respond s v) :=
  h.of_keepsDisplay (.of_mem ⟨rfl, rfl, rfl⟩ rfl rfl rfl)

theorem InSync.withSequencer {s : State} (h : InSync s) (seq : Seq) (cx cy : BitVec 8) :
    InSync { s with seq := seq, cx := cx, cy := cy } :=
  h.of_keepsDisplay (.of_mem ⟨rfl, rfl, rfl⟩ rfl rfl rfl)

theorem InSync.finish {s : State} (h : InSync s) : InSync (Machine.finish s) :=
  (h.withSequencer .idle s.cx s.cy).respond 0

theorem KeepsDisplay.trans {s t u : State} (h : KeepsDisplay s t) (h' : KeepsDisplay t u) : KeepsDisplay s u := by
  obtain ⟨⟨hmode, hen, hactive⟩, hhalt, hcfg, hcontrol⟩ := h
  obtain ⟨⟨hmode', hen', hactive'⟩, hhalt', hcfg', hcontrol'⟩ := h'
  exact ⟨⟨hmode'.trans hmode, hen'.trans hen, hactive'.trans hactive⟩, hhalt'.trans hhalt, hcfg'.trans hcfg,
    hcontrol'.trans hcontrol⟩

/-- A store of n bytes leaves every 16-bit word it does not overlap. -/
theorem memWrite_read16_outside (s : State) (w : Width) {a b : Nat} (v : Word) (h : b + 2 ≤ a ∨ a + w.bytes ≤ b) :
    (memWrite s w a v).mem.read16 b = s.mem.read16 b := by
  have hframe := memWrite_frame (s := s) w a v
  simp only [Memory.read16, hframe b (by omega), hframe (b + 1) (by omega)]

/-- A store that does not overlap the display-control word leaves the display alone. -/
theorem memWrite_keepsDisplay (s : State) {w : Width} {a : Nat} (v : Word)
    (h : a + w.bytes ≤ s.cfg.addr 0 ∨ s.cfg.addr 0 + 2 ≤ a) : KeepsDisplay s (memWrite s w a v) :=
  ⟨⟨rfl, rfl, rfl⟩, rfl, rfl, memWrite_read16_outside s w v h.symm⟩

theorem setPixel_keepsDisplay {s : State} (hwf : s.cfg.wf = true) {m : VideoMode} {x y : Nat} (hx : x < wd m)
    (hy : y < ht m) (c : Half) : KeepsDisplay s (setPixel s m x y c) := by
  have ha := (cellAddr_apart hwf hx hy).2.symm
  by_cases h4 : m = .m4
  · subst h4
    rw [setPixel_mode4]
    have hload : KeepsDisplay s (memRead s .w16 (cellAddr s .m4 x y)) := .of_mem ⟨rfl, rfl, rfl⟩ rfl rfl rfl
    exact hload.trans (memWrite_keepsDisplay _ _ ha)
  · rw [setPixel_direct h4]
    exact memWrite_keepsDisplay _ _ ha

/-- After a pixel only CX, CY, SEQ and the response may change (R172). -/
theorem clearAdvance_keepsDisplay (s : State) (m : VideoMode) : KeepsDisplay s (clearAdvance s m) := by
  unfold clearAdvance
  split
  · exact .of_mem ⟨rfl, rfl, rfl⟩ rfl rfl rfl
  · split <;> exact .of_mem ⟨rfl, rfl, rfl⟩ rfl rfl rfl

theorem clearStep_keepsDisplay {s : State} (hwf : s.cfg.wf = true) {m : VideoMode} (hx : s.cx.toNat < wd m)
    (hy : s.cy.toNat < ht m) : KeepsDisplay s (clearStep s m) := by
  rw [clearStep_of_bounds hx hy]
  exact (setPixel_keepsDisplay hwf hx hy 0).trans (clearAdvance_keepsDisplay _ m)

theorem vsyncStep_keepsDisplay (s : State) : KeepsDisplay s (vsyncStep s) := by
  unfold vsyncStep
  split <;> exact .of_mem ⟨rfl, rfl, rfl⟩ rfl rfl rfl

/-- The poll changes nothing of the display, and the swap behind it keeps InSync (R178). -/
theorem swapvStep_inSync {s : State} (hwf : s.cfg.wf = true) (hq : Quiet s) (hne : s.cfg.addr 0 ≠ s.cfg.addr 1)
    (h : InSync s) : InSync (swapvStep s) := by
  have hpoll : InSync (pollLoad s) := h.of_keepsDisplay (.of_mem ⟨rfl, rfl, rfl⟩ rfl rfl rfl)
  unfold swapvStep
  split
  · split
    · exact hpoll.finish
    · exact (swapBody_inSync (s := pollLoad s) hwf hq hne hpoll).finish
  · exact hpoll

end Sys2Proof.Machine
end

section
/-! InSync along instructions and steps (R36, R249): what establishes it, and what keeps it. -/

namespace Sys2Proof.Machine

/-- Settles O53: the two effects that store the control word. A trap halts, and no other effect is of these instructions. -/
theorem enableEstablishesInSync : Obligations.EnableEstablishesInSync := by
  intro s t i hinv hrun hi hexec hhalt
  rcases exec_cases hexec with ⟨tr, rfl, -⟩ | heff
  · exact nomatch hhalt
  · rcases hi with rfl | ⟨m, rfl⟩
    · cases heff with
      | enable m hm => exact (enableBody_inSync hinv.configured hm hrun).respond 0
      | staged _ _ _ _ hslot => exact nomatch hslot
      | query _ _ hne => exact absurd rfl hne.1
    · cases heff with
      | switch => exact (enableBody_inSync (s := constructBody s m) hinv.configured rfl hrun).respond 0
      | staged _ _ _ _ hslot => exact nomatch hslot
      | query _ _ hne => exact absurd rfl (hne.2 m).2

/-- Every instruction that completes keeps InSync, but VM.CONSTRUCT and a REG.WRITE over the display-control word: its effect
leaves the display alone, or it swaps, or it switches. -/
theorem exec_inSync {i : Instr} {s t : State} (hwf : s.cfg.wf = true) (hq : Quiet s) (h : InSync s)
    (hne : s.cfg.addr 0 ≠ s.cfg.addr 1) (hexec : exec i s = .next t) (hhalt : t.halt = false)
    (hconstruct : ∀ m, i ≠ .vmConstruct m)
    (hwrite : ∀ slot d, i = .regWrite slot → HasSlot s slot d →
      d.addr + d.width.bytes ≤ s.cfg.addr 0 ∨ s.cfg.addr 0 + 2 ≤ d.addr) : InSync t := by
  obtain ⟨hen, hrun, -⟩ := (inSync_iff s).1 h
  rcases exec_cases hexec with ⟨tr, rfl, -⟩ | heff
  · exact nomatch hhalt
  · cases heff with
    | read | staged | query | get | getpal => exact h.of_keepsDisplay (.of_mem ⟨rfl, rfl, rfl⟩ rfl rfl rfl)
    | write slot d hd => exact (h.of_keepsDisplay (memWrite_keepsDisplay s _ (hwrite slot d rfl hd))).respond 0
    | construct m => exact absurd rfl (hconstruct m)
    | enable m hm he => exact nomatch hen.symm.trans he
    | set m x y c hm hb => exact (h.of_keepsDisplay (setPixel_keepsDisplay hwf hb.1 hb.2 c)).respond 0
    | swap => exact (swapBody_inSync hwf hq hne h).respond 0
    | clear m hm =>
      have hpixel := clearStep_keepsDisplay (s := { s with seq := .clearing, cx := 0, cy := 0 }) hwf (wd_pos m) (ht_pos m)
      exact (h.withSequencer .clearing 0 0).of_keepsDisplay hpixel
    | setpal k c hm hk =>
      refine (h.of_keepsDisplay (memWrite_keepsDisplay s _ ?_)).respond 0
      have hpal := (display_words_outside hwf (k := 0) (by decide)).2
      simp only [Width.bytes]
      omega
    | vsync => exact (h.withSequencer .poll s.cx s.cy).of_keepsDisplay (vsyncStep_keepsDisplay _)
    | swapv => exact swapvStep_inSync hwf hq hne (h.withSequencer .pollSwap s.cx s.cy)
    | switch m => exact (enableBody_inSync (s := constructBody s m) hwf rfl hrun).respond 0

/-- A step of the command in flight keeps InSync. -/
theorem advance_inSync {s t : State} (hinv : MachineInv s) (hq : Quiet s) (h : InSync s)
    (hne : s.cfg.addr 0 ≠ s.cfg.addr 1) (hadv : advance s = .next t) : InSync t := by
  unfold advance at hadv
  split at hadv
  · cases hadv
    exact h
  · next hseq =>
    split at hadv
    · next m hm =>
      cases hadv
      obtain ⟨hx, hy⟩ := clearing_bounds hinv hseq hm
      exact h.of_keepsDisplay (clearStep_keepsDisplay hinv.configured hx hy)
    · cases hadv
  · cases hadv
    exact h.of_keepsDisplay (vsyncStep_keepsDisplay s)
  · cases hadv
    exact swapvStep_inSync hinv.configured hq hne h

/-- Settles O54: an instruction by its effect, a step of a command in flight by the sequencer. -/
theorem inSyncKept : Obligations.InSyncKept := fun _ hinv hq h hne =>
  ⟨fun _ _ hexec hhalt hconstruct hwrite => exec_inSync hinv.configured hq h hne hexec hhalt hconstruct hwrite,
    fun _ hadv => advance_inSync hinv hq h hne hadv⟩

end Sys2Proof.Machine
end

section
/-! The addresses the VMC issues (R62, R78), along operations, instructions and steps: each register slot at its own width,
the cells of the draw buffer and the palette entries at 2 bytes. And what a load answers under Quiet (R64, R68, R73). -/

namespace Sys2Proof.Machine

/-! ### Histories that grow by events of one kind -/

/-- From `s` to `t` the history only grows, and by events that satisfy `P` (R66). -/
def IssuesOnly (P : BusEvent → Prop) (s t : State) : Prop := ∃ es, Issues s t es ∧ ∀ e ∈ es, P e

section
variable {P : BusEvent → Prop} {s t u : State}

theorem IssuesOnly.of_events_eq (h : t.events = s.events) : IssuesOnly P s t :=
  ⟨[], by rw [Issues, List.append_nil, h], nofun⟩

theorem IssuesOnly.single {e : BusEvent} (h : Issues s t [e]) (he : P e) : IssuesOnly P s t :=
  ⟨[e], h, List.forall_mem_singleton.2 he⟩

theorem IssuesOnly.trans (h : IssuesOnly P s t) (h' : IssuesOnly P t u) : IssuesOnly P s u := by
  obtain ⟨es, hes, hall⟩ := h
  obtain ⟨es', hes', hall'⟩ := h'
  refine ⟨es ++ es', ?_, List.forall_mem_append.2 ⟨hall, hall'⟩⟩
  rw [Issues, hes', hes, List.append_assoc]

/-- What the host does next plays no part. -/
theorem IssuesOnly.of_port {port : List HostInput} (h : IssuesOnly P { s with port := port } t) : IssuesOnly P s t := h

/-- A reset inside a step issues nothing of its own: it leaves the step's first accesses, or all of them (R241). -/
theorem IssuesOnly.cutByReset (h : IssuesOnly P s t) (hacc : Accesses s t) (k : Nat) :
    IssuesOnly P s (cutByReset k s t) := by
  obtain ⟨es, hes, hall⟩ := h
  rcases cutByReset_cases hacc hes k with ⟨-, e⟩ | ⟨-, -, answers, freeIdx, e⟩ <;> rw [e]
  · exact ⟨es, hes, hall⟩
  · exact ⟨es.take k, rfl, fun e he => hall e (List.mem_of_mem_take he)⟩

end

/-! ### The addresses -/

/-- A register slot is accessed at its own address and width (R62). -/
theorem HasSlot.allowedAccess {s : State} {slot : Fin 16} {d : SlotDef} (h : HasSlot s slot d) :
    AllowedAccess s.cfg d.width d.addr :=
  .inl ⟨d, h.mem, rfl, rfl⟩

/-- The display-control and display-status words are the 16-bit slots 0 and 1 (R6 (b)). -/
theorem displayWord_allowedAccess {cfg : Cfg} (hwf : cfg.wf = true) :
    AllowedAccess cfg .w16 (cfg.addr 0) ∧ AllowedAccess cfg .w16 (cfg.addr 1) := by
  obtain ⟨d0, d1, rest, hr, h0, h1, ha0, ha1⟩ := first_slots hwf
  exact ⟨.inl ⟨d0, by simp [hr], ha0, h0.symm⟩, .inl ⟨d1, by simp [hr], ha1, h1.symm⟩⟩

theorem drawBuffer_mem_regionsOf (s : State) (m : VideoMode) : drawBuffer s m ∈ regionsOf s.cfg m := by
  cases m <;> cases h : s.active <;> simp [drawBuffer, drawRegion, bufferRegion, otherBuffer, regionsOf, h]

/-- The draw buffer is one of the two frames R78 lists: at the start of Video RAM, or frame B. -/
theorem drawBase_cases (s : State) (m : VideoMode) :
    drawBase s m = s.cfg.vramBase ∧ frameBytes m ≤ 76800
      ∨ drawBase s m = s.cfg.vramBase + s.cfg.frameBOffset ∧ frameBytes m ≤ 40960 := by
  cases m <;> cases h : s.active <;> simp [drawBase, bufferBase, otherBuffer, frameBytes, h]

/-- A cell address is even, as its Region's base is (R124, R162). -/
theorem cellAddr_even {s : State} {m : VideoMode} (ha : RegionsAligned s.cfg m) (x y : Nat) : cellAddr s m x y % 2 = 0 := by
  have hbase := ha _ (drawBuffer_mem_regionsOf s m)
  rw [← elementAddr_pixelCell, elementAddr]
  omega

/-- The cell of a pixel inside the bounds of the constructed mode is one the VMC can issue (R167). -/
theorem cellAddr_allowedAccess {s : State} {m : VideoMode} {x y : Nat} (h : MachineInv s) (hm : s.mode = some m)
    (hx : x < wd m) (hy : y < ht m) : AllowedAccess s.cfg .w16 (cellAddr s m x y) := by
  have hbounds := cellAddr_bounds h.configured hx hy
  have hframe := drawBase_cases s m
  exact .inr ⟨rfl, cellAddr_even (h.aligned m hm) x y, by omega⟩

/-- A palette entry in Mode4, whose construction checked the palette's alignment (R162, R175). -/
theorem paletteEntry_allowedAccess {s : State} {k : Nat} (h : MachineInv s) (hm : s.mode = some .m4) (hk : k < 256) :
    AllowedAccess s.cfg .w16 (s.cfg.palBase + 2 * k) := by
  have hbase : s.cfg.palBase % 2 = 0 := h.aligned .m4 hm (rgnPal s.cfg) (by simp [regionsOf])
  exact .inr ⟨rfl, by omega, by omega⟩

/-! ### Along operations, instructions and steps -/

/-- From `s` to `t` the VMC issues only accesses of R78. -/
abbrev IssuesAllowed (s t : State) : Prop := IssuesOnly (AllowedEvent s.cfg) s t

theorem setPixel_issuesAllowed {s : State} {m : VideoMode} {x y : Nat} (ha : AllowedAccess s.cfg .w16 (cellAddr s m x y))
    (c : Half) : IssuesAllowed s (setPixel s m x y c) := by
  by_cases h4 : m = .m4
  · subst h4
    rw [setPixel_mode4]
    have hload : IssuesAllowed s (memRead s .w16 (cellAddr s .m4 x y)) := .single rfl ha
    exact hload.trans (.single rfl ha)
  · rw [setPixel_direct h4]
    exact .single rfl ha

theorem clearStep_issuesAllowed {s : State} {m : VideoMode} (h : MachineInv s) (hm : s.mode = some m)
    (hx : s.cx.toNat < wd m) (hy : s.cy.toNat < ht m) : IssuesAllowed s (clearStep s m) := by
  rw [clearStep_of_bounds hx hy]
  exact (setPixel_issuesAllowed (cellAddr_allowedAccess h hm hx hy) 0).trans (.of_events_eq (clearAdvance_events _ m))

theorem swapBody_issuesAllowed {s : State} (hwf : s.cfg.wf = true) : IssuesAllowed s (swapBody s) := by
  have ha := (displayWord_allowedAccess hwf).1
  exact ⟨_, swapBody_issues s, by simp [AllowedEvent, ha]⟩

theorem pollLoad_issuesAllowed {s : State} (hwf : s.cfg.wf = true) : IssuesAllowed s (pollLoad s) :=
  .single rfl (displayWord_allowedAccess hwf).2

theorem vsyncStep_issuesAllowed {s : State} (hwf : s.cfg.wf = true) : IssuesAllowed s (vsyncStep s) := by
  have hpoll := pollLoad_issuesAllowed hwf
  unfold vsyncStep
  split <;> exact hpoll

theorem swapvStep_issuesAllowed {s : State} (hwf : s.cfg.wf = true) : IssuesAllowed s (swapvStep s) := by
  have hpoll := pollLoad_issuesAllowed hwf
  unfold swapvStep
  split
  · split
    · exact hpoll
    · exact hpoll.trans (swapBody_issuesAllowed (s := pollLoad s) hwf)
  · exact hpoll

/-- An accepted instruction. VM.CLEAR starts at pixel (0, 0), inside the bounds of every mode. -/
theorem exec_issuesAllowed {i : Instr} {s t : State} (h : MachineInv s) (hrun : s.halt = false) (he : exec i s = .next t) :
    IssuesAllowed s t := by
  rcases exec_cases he with ⟨tr, rfl, -⟩ | heff
  · exact .of_events_eq rfl
  · cases heff with
    | staged | query | construct => exact .of_events_eq rfl
    | read slot d hd => exact .single rfl hd.allowedAccess
    | write slot d hd => exact .single rfl hd.allowedAccess
    | enable | switch => exact .single rfl (displayWord_allowedAccess h.configured).1
    | set m x y c hm hb => exact setPixel_issuesAllowed (cellAddr_allowedAccess h hm hb.1 hb.2) c
    | get m x y hm hb => exact .single rfl (cellAddr_allowedAccess h hm hb.1 hb.2)
    | swap => exact swapBody_issuesAllowed h.configured
    | clear m hm => exact clearStep_issuesAllowed (startClear_inv h hrun hm) hm (wd_pos m) (ht_pos m)
    | setpal k c hm hk => exact .single rfl (paletteEntry_allowedAccess h hm hk)
    | getpal k hm hk => exact .single rfl (paletteEntry_allowedAccess h hm hk)
    | vsync => exact vsyncStep_issuesAllowed (s := { s with seq := .poll }) h.configured
    | swapv => exact swapvStep_issuesAllowed (s := { s with seq := .pollSwap }) h.configured

/-- A step of the command in flight. -/
theorem advance_issuesAllowed {s t : State} (h : MachineInv s) (ha : advance s = .next t) : IssuesAllowed s t := by
  unfold advance at ha
  split at ha
  · cases ha
    exact .of_events_eq rfl
  · next hseq =>
    split at ha
    · next m hm =>
      cases ha
      obtain ⟨hx, hy⟩ := clearing_bounds h hseq hm
      exact clearStep_issuesAllowed h hm hx hy
    · cases ha
  · cases ha
    exact vsyncStep_issuesAllowed h.configured
  · cases ha
    exact swapvStep_issuesAllowed h.configured

/-- Every step, by recursion on what the host still does: a reset inside a step looks at the inputs behind it. -/
theorem step_issuesAllowed {s t : State} (h : MachineInv s) (hs : step s = .next t) : IssuesAllowed s t := by
  rcases step_cases h.configured with ⟨_, e⟩ | ⟨rest, _, e⟩ | ⟨rest, _, e⟩ | ⟨_, _, _, _, e⟩ | ⟨_, rest, _, _, _, e⟩
    | ⟨_, rest, _, _, _, _, _, e⟩ | ⟨_, rest, _, _, _, hrun, _, e⟩ | ⟨k, rest, hp, e⟩ <;> rw [e] at hs
  · exact advance_issuesAllowed h hs
  · exact (advance_issuesAllowed (port_inv h rest) hs).of_port
  · cases hs
    exact .of_events_eq rfl
  · exact advance_issuesAllowed h hs
  · cases hs
    exact .of_events_eq rfl
  · cases hs
    exact .of_events_eq rfl
  · exact (exec_issuesAllowed (port_inv h rest) hrun hs).of_port
  · obtain ⟨u, hu, rfl⟩ := resetDuring_next hs
    have hwhole : IssuesAllowed s u := (step_issuesAllowed (port_inv h rest) hu).of_port
    exact hwhole.cutByReset (step_accesses (s := { s with port := rest }) h.configured hu).of_port k
termination_by s.port.length
decreasing_by simp [hp]

/-- Settles O42: the accesses of each operation, along the cases of a step. -/
theorem issuedAddressesAreAllowed : Obligations.IssuedAddressesAreAllowed := fun _ _ => step_issuesAllowed

/-! ### What a load answers under Quiet -/

/-- R73: under Quiet memory answers for every word but the display-status word, whatever the environment says. -/
theorem answerHalf_quiet {s : State} (hq : Quiet s) {a : Nat} (ha : a ≠ s.cfg.addr 1) (v : Half) :
    answerHalf s a v = s.mem.read16 a := by
  simp [answerHalf, oracleHalf, show s.quiet = true from hq, ha]

/-- R68, R73: a 4-byte load that does not touch the display-status word is the two words of memory, the low one first. -/
theorem busValue_w32_quiet {s : State} (hq : Quiet s) {a : Nat} (ha : a ≠ s.cfg.addr 1) (ha' : a + 2 ≠ s.cfg.addr 1) :
    busValue s .w32 a = s.mem.read16 (a + 2) ++ s.mem.read16 a := by
  rw [busValue, answerHalf_quiet hq ha, answerHalf_quiet hq ha']

/-- R64: a pending answer is the one the environment gives next. -/
theorem oracle_of_answers {s : State} {v : Word} {rest : List Word} (h : s.answers = v :: rest) : oracle s = v := by
  simp [oracle, h]

/-- Settles O41: memory answers for each half of a load, the environment for the display-status word. -/
theorem quietLoadsReadMemory : Obligations.QuietLoadsReadMemory := fun s _ hq =>
  ⟨busValue_quiet hq, busValue_w32_quiet hq, fun _ _ h => by rw [busValue_status, oracle_of_answers h]⟩

end Sys2Proof.Machine
end

section
/-! The encoder and the decoder (R92 to R97): decoding inverts encoding, a header is its row's masked bits and its open fields,
and the legal headers are those of the rows. -/

namespace Sys2Proof.Machine

/-! ### The fields of an encoded command -/

theorem argByte_header (o : Op) (slot : Fin 16) (sh : Fin 32) (arg : Byte) :
    (header o slot sh arg).extractLsb' 0 8 = arg :=
  BitVec.extractLsb'_append_eq_right

theorem argBit_header (o : Op) (slot : Fin 16) (sh : Fin 32) (bit : Bool) :
    argBit (header o slot sh (if bit then 1 else 0)) = bit := by
  rw [argBit, header_getLsbD, if_pos (by decide)]
  cases bit <;> rfl

theorem argMode_header (o : Op) (slot : Fin 16) (sh : Fin 32) (number : BitVec 3) :
    argMode (header o slot sh ((0 : BitVec 5) ++ number)) = number := by
  rw [argMode, header, BitVec.extractLsb'_append_eq_of_add_le (by decide)]
  exact BitVec.extractLsb'_append_eq_right

/-- The operand word of COL.RGB carries each channel in its own byte (R92). -/
theorem byteField_channels (r g b hi : Byte) :
    byteField (hi ++ b ++ g ++ r) 0 = r ∧ byteField (hi ++ b ++ g ++ r) 1 = g
      ∧ byteField (hi ++ b ++ g ++ r) 2 = b ∧ byteField (hi ++ b ++ g ++ r) 3 = hi :=
  ⟨BitVec.extractLsb'_append_eq_right,
    (BitVec.extractLsb'_append_eq_of_le (by decide)).trans BitVec.extractLsb'_append_eq_right,
    (BitVec.extractLsb'_append_eq_of_le (by decide)).trans
      ((BitVec.extractLsb'_append_eq_of_le (by decide)).trans BitVec.extractLsb'_append_eq_right),
    (BitVec.extractLsb'_append_eq_of_le (by decide)).trans
      ((BitVec.extractLsb'_append_eq_of_le (by decide)).trans BitVec.extractLsb'_append_eq_left)⟩

/-! ### Decoding inverts encoding -/

/-- The header an instruction encodes to matches the instruction's own row. -/
theorem encode_headerMatchesRow (i : Instr) : Laws.HeaderMatchesRow.Statement i := by
  cases i with
  | regRead slot => exact Laws.HeaderMatchesRow.regRead slot
  | regWrite slot => exact Laws.HeaderMatchesRow.regWrite slot
  | regZero slot => exact Laws.HeaderMatchesRow.regZero slot
  | regSet slot v => exact Laws.HeaderMatchesRow.regSet slot v
  | regAnd slot m => exact Laws.HeaderMatchesRow.regAnd slot m
  | regOr slot m => exact Laws.HeaderMatchesRow.regOr slot m
  | regClear slot m => exact Laws.HeaderMatchesRow.regClear slot m
  | regGetb slot j => exact Laws.HeaderMatchesRow.regGetb slot j
  | regSetb slot j bit => exact Laws.HeaderMatchesRow.regSetb slot j bit
  | regGetm slot sh m => exact Laws.HeaderMatchesRow.regGetm slot sh m
  | regSetm slot sh m v => exact Laws.HeaderMatchesRow.regSetm slot sh m v
  | vmConstruct m => exact Laws.HeaderMatchesRow.vmConstruct m
  | vmEnable => exact Laws.HeaderMatchesRow.vmEnable
  | vmSet x y c hi => exact Laws.HeaderMatchesRow.vmSet x y c hi
  | vmGet x y => exact Laws.HeaderMatchesRow.vmGet x y
  | vmSwap => exact Laws.HeaderMatchesRow.vmSwap
  | vmClear => exact Laws.HeaderMatchesRow.vmClear
  | vmBounds => exact Laws.HeaderMatchesRow.vmBounds
  | vmSetpal k c hi => exact Laws.HeaderMatchesRow.vmSetpal k c hi
  | vmGetpal k => exact Laws.HeaderMatchesRow.vmGetpal k
  | vmVsync => exact Laws.HeaderMatchesRow.vmVsync
  | vmSwapv => exact Laws.HeaderMatchesRow.vmSwapv
  | gfxSwitch m => exact Laws.HeaderMatchesRow.gfxSwitch m
  | colRgb r g b hi => exact Laws.HeaderMatchesRow.colRgb r g b hi

/-- An instruction's own row reads every operand back from the encoded fields. -/
theorem instrOf_encode (i : Instr) : instrOf (Laws.rowOfInstr i) (encode i) = .ok i := by
  cases i with
  | regRead | regWrite | regZero | regSet | regAnd | regOr | regClear =>
    simp only [Laws.rowOfInstr, encode, instrOf, slotField_header]
  | regGetb | regGetm | regSetm => simp only [Laws.rowOfInstr, encode, instrOf, slotField_header, shField_header]
  | regSetb => simp only [Laws.rowOfInstr, encode, instrOf, slotField_header, shField_header, argBit_header]
  | vmConstruct m | gfxSwitch m =>
    simp only [Laws.rowOfInstr, encode, instrOf, modeCommand, argMode_header, modeOfNumber_number]
  | vmEnable | vmSwap | vmClear | vmBounds | vmGetpal | vmVsync | vmSwapv => rfl
  | vmSet | vmGet | vmSetpal => simp only [Laws.rowOfInstr, encode, instrOf, plainCommand, lowHalf_append, highHalf_append]
  | colRgb r g b hi =>
    obtain ⟨h0, h1, h2, h3⟩ := byteField_channels r g b hi
    simp only [Laws.rowOfInstr, encode, instrOf, plainCommand, h0, h1, h2, h3]

/-- Settles O43: the encoded header finds the instruction's own row, and that row reads the operands back. -/
theorem decodeOfEncode : Obligations.DecodeOfEncode := fun i =>
  (decode_of_row (encode_headerMatchesRow i).1).trans (instrOf_encode i)

/-! ### A header that matches a row -/

section
variable {h : Word} {o : Op}

/-- Where the row's mask covers a field, the header has the row's bits (R94). -/
theorem field_of_match (hm : h &&& o.maskBits = o.matchBits) {start len : Nat}
    (hmask : o.maskBits.extractLsb' start len = BitVec.allOnes len) :
    h.extractLsb' start len = o.matchBits.extractLsb' start len := by
  rw [← hm, BitVec.extractLsb'_and, hmask, BitVec.and_allOnes]

/-- The bits of R95's column `match` below OPC are 0. -/
theorem matchBits_eq_header (o : Op) : o.matchBits = header o 0 0 0 := by cases o <;> decide

theorem slotField_of_match (hm : h &&& o.maskBits = o.matchBits)
    (hmask : o.maskBits.extractLsb' 20 4 = BitVec.allOnes 4) : slotField h = 0 := by
  rw [slotField, field_of_match hm hmask, matchBits_eq_header]
  exact slotField_header o 0 0 0

theorem shField_of_match (hm : h &&& o.maskBits = o.matchBits)
    (hmask : o.maskBits.extractLsb' 8 5 = BitVec.allOnes 5) : shField h = 0 := by
  rw [shField, field_of_match hm hmask, matchBits_eq_header]
  exact shField_header o 0 0 0

theorem argByte_of_match (hm : h &&& o.maskBits = o.matchBits)
    (hmask : o.maskBits.extractLsb' 0 8 = BitVec.allOnes 8) : h.extractLsb' 0 8 = 0 := by
  rw [field_of_match hm hmask, matchBits_eq_header, argByte_header]

/-- Where ARG[0] is the one open bit of ARG, the byte is that bit. -/
theorem argByte_of_match_bit (hm : h &&& o.maskBits = o.matchBits)
    (hmask : o.maskBits.extractLsb' 1 7 = BitVec.allOnes 7) : h.extractLsb' 0 8 = if argBit h then 1 else 0 := by
  have hhigh : h.extractLsb' 1 7 = 0 := by
    rw [field_of_match hm hmask]
    cases o <;> decide
  have hlow : h.extractLsb' 0 1 = BitVec.ofBool (argBit h) := by
    rw [argBit]
    ext i hi
    simp [show i = 0 by omega]
  have hsplit : h.extractLsb' 1 7 ++ h.extractLsb' 0 1 = h.extractLsb' 0 8 :=
    BitVec.extractLsb'_append_extractLsb'_eq_extractLsb' (by decide)
  rw [← hsplit, hhigh, hlow]
  cases argBit h <;> rfl

/-- Where ARG[2:0] is the one open field of ARG, the byte is that field. -/
theorem argByte_of_match_mode (hm : h &&& o.maskBits = o.matchBits)
    (hmask : o.maskBits.extractLsb' 3 5 = BitVec.allOnes 5) : h.extractLsb' 0 8 = (0 : BitVec 5) ++ argMode h := by
  have hhigh : h.extractLsb' 3 5 = 0 := by
    rw [field_of_match hm hmask]
    cases o <;> decide
  rw [← hhigh, argMode, BitVec.extractLsb'_append_extractLsb'_eq_extractLsb' (by decide)]

/-- R92: a header that matches a row is made of the row's OPC and the fields SLOT, SH and ARG. -/
theorem header_of_match (hm : h &&& o.maskBits = o.matchBits) :
    header o (slotField h) (shField h) (h.extractLsb' 0 8) = h := by
  have hrsv : (0 : BitVec 7) = h.extractLsb' 13 7 := by
    rw [field_of_match hm (by cases o <;> decide)]
    cases o <;> decide
  rw [header, ← opc_of_match hm, hrsv]
  show h.extractLsb' 24 8 ++ h.extractLsb' 20 4 ++ h.extractLsb' 13 7 ++ h.extractLsb' 8 5 ++ h.extractLsb' 0 8 = h
  rw [BitVec.extractLsb'_append_extractLsb'_eq_extractLsb' (by decide), BitVec.extractLsb'_append_extractLsb'_eq_extractLsb' (by decide),
    BitVec.extractLsb'_append_extractLsb'_eq_extractLsb' (by decide), BitVec.extractLsb'_append_extractLsb'_eq_extractLsb' (by decide)]
  exact BitVec.extractLsb'_eq_self

/-- The header of a row whose one open field is SLOT. -/
theorem header_slot_of_match (hm : h &&& o.maskBits = o.matchBits)
    (hsh : o.maskBits.extractLsb' 8 5 = BitVec.allOnes 5) (harg : o.maskBits.extractLsb' 0 8 = BitVec.allOnes 8) :
    header o (slotField h) 0 0 = h := by
  have hh := header_of_match hm
  rwa [shField_of_match hm hsh, argByte_of_match hm harg] at hh

/-- The header of a row whose open fields are SLOT and SH. -/
theorem header_slot_sh_of_match (hm : h &&& o.maskBits = o.matchBits)
    (harg : o.maskBits.extractLsb' 0 8 = BitVec.allOnes 8) : header o (slotField h) (shField h) 0 = h := by
  have hh := header_of_match hm
  rwa [argByte_of_match hm harg] at hh

/-- The header of a row whose open fields are SLOT, SH and ARG[0]. -/
theorem header_bit_of_match (hm : h &&& o.maskBits = o.matchBits)
    (harg : o.maskBits.extractLsb' 1 7 = BitVec.allOnes 7) :
    header o (slotField h) (shField h) (if argBit h then 1 else 0) = h := by
  have hh := header_of_match hm
  rwa [argByte_of_match_bit hm harg] at hh

/-- The header of a row whose one open field is ARG[2:0]. -/
theorem header_mode_of_match (hm : h &&& o.maskBits = o.matchBits) (hslot : o.maskBits.extractLsb' 20 4 = BitVec.allOnes 4)
    (hsh : o.maskBits.extractLsb' 8 5 = BitVec.allOnes 5) (harg : o.maskBits.extractLsb' 3 5 = BitVec.allOnes 5) :
    header o 0 0 ((0 : BitVec 5) ++ argMode h) = h := by
  have hh := header_of_match hm
  rwa [slotField_of_match hm hslot, shField_of_match hm hsh, argByte_of_match_mode hm harg] at hh

/-- The header of a row with no open field. -/
theorem header_plain_of_match (hm : h &&& o.maskBits = o.matchBits) (hmask : o.maskBits = BitVec.allOnes 32) :
    header o 0 0 0 = h := by
  rw [← matchBits_eq_header, ← hm, hmask, BitVec.and_allOnes]

end

/-! ### Legal commands -/

/-- The mode numbers of R95 are those of the three modes. -/
theorem modeOfNumber_eq_some {n : BitVec 3} {m : VideoMode} : modeOfNumber n = some m ↔ n = m.number := by
  constructor
  · intro h
    unfold modeOfNumber at h
    split_ifs at h with h3 h4 h5 <;> cases h <;> assumption
  · rintro rfl
    exact modeOfNumber_number m

/-- A mode-number row answers its instruction exactly when ARG[2:0] is the number of a mode. -/
theorem instrOf_vmConstruct {c : Command} {i : Instr} :
    instrOf .vmConstruct c = .ok i ↔ ∃ m, argMode c.h = m.number ∧ i = .vmConstruct m := by
  simp only [← modeOfNumber_eq_some, instrOf]
  cases modeOfNumber (argMode c.h) <;> simp [eq_comm]

theorem instrOf_gfxSwitch {c : Command} {i : Instr} :
    instrOf .gfxSwitch c = .ok i ↔ ∃ m, argMode c.h = m.number ∧ i = .gfxSwitch m := by
  simp only [← modeOfNumber_eq_some, instrOf]
  cases modeOfNumber (argMode c.h) <;> simp [eq_comm]

/-- The instruction a matching row reads from a command encodes to the command's header. -/
theorem encode_header_of_instrOf {c : Command} {o : Op} {i : Instr} (hm : c.h &&& o.maskBits = o.matchBits)
    (hi : instrOf o c = .ok i) : (encode i).h = c.h := by
  cases o with
  | regRead | regWrite | regZero | regSet | regAnd | regOr | regClear =>
    cases hi
    exact header_slot_of_match hm (by decide) (by decide)
  | regGetb | regGetm | regSetm =>
    cases hi
    exact header_slot_sh_of_match hm (by decide)
  | regSetb =>
    cases hi
    exact header_bit_of_match hm (by decide)
  | vmConstruct =>
    obtain ⟨m, hnumber, rfl⟩ := instrOf_vmConstruct.1 hi
    have hh := header_mode_of_match hm (by decide) (by decide) (by decide)
    rwa [hnumber] at hh
  | gfxSwitch =>
    obtain ⟨m, hnumber, rfl⟩ := instrOf_gfxSwitch.1 hi
    have hh := header_mode_of_match hm (by decide) (by decide) (by decide)
    rwa [hnumber] at hh
  | vmEnable | vmSet | vmGet | vmSwap | vmClear | vmBounds | vmSetpal | vmGetpal | vmVsync | vmSwapv | colRgb =>
    cases hi
    exact header_plain_of_match hm (by decide)

/-- Settles O44: a header that decodes is made of its row's bits and its open fields, all of which the instruction keeps. -/
theorem headerIsDeterminedByInstruction : Obligations.HeaderIsDeterminedByInstruction := fun _ _ hc => by
  obtain ⟨o, hm, hi⟩ := decode_cases hc
  exact encode_header_of_instrOf hm hi

/-- ARG[2:0], as the low three bits of the header. -/
theorem and_seven_eq (h : Word) : h &&& 7 = (argMode h).setWidth 32 := by
  apply BitVec.eq_of_getLsbD_eq
  intro j hj
  have h7 : (7 : Word).getLsbD j = decide (j < 3) := by interval_cases j <;> decide
  rw [BitVec.getLsbD_and, h7, BitVec.getLsbD_setWidth, argMode, BitVec.getLsbD_extractLsb', Nat.zero_add, Bool.and_comm]
  simp [hj]

/-- ARG[2:0] is the number of a mode exactly when it is 3, 4 or 5 (R95). -/
theorem exists_mode_number (h : Word) : (∃ m : VideoMode, argMode h = m.number) ↔ h &&& 7 = 3 ∨ h &&& 7 = 4 ∨ h &&& 7 = 5 := by
  have hlow : ∀ n : BitVec 3, n.setWidth 32 = (3 : Word) ∨ n.setWidth 32 = (4 : Word) ∨ n.setWidth 32 = (5 : Word)
      → n = 3 ∨ n = 4 ∨ n = 5 := by decide
  rw [and_seven_eq]
  constructor
  · rintro ⟨m, hnumber⟩
    rw [hnumber]
    cases m <;> decide
  · intro hmode
    rcases hlow _ hmode with h3 | h4 | h5
    · exact ⟨.m3, h3⟩
    · exact ⟨.m4, h4⟩
    · exact ⟨.m5, h5⟩

/-- What a matching row needs to answer an instruction: a mode number of R95, where the row has one. -/
theorem exists_instrOf (o : Op) (c : Command) :
    (∃ i, instrOf o c = .ok i) ↔ (o = .vmConstruct ∨ o = .gfxSwitch → ∃ m : VideoMode, argMode c.h = m.number) := by
  cases o with
  | vmConstruct => simp [instrOf_vmConstruct]
  | gfxSwitch => simp [instrOf_gfxSwitch]
  | regRead | regWrite | regZero | regSet | regAnd | regOr | regClear | regGetb | regSetb | regGetm | regSetm | vmEnable | vmSet
  | vmGet | vmSwap | vmClear | vmBounds | vmSetpal | vmGetpal | vmVsync | vmSwapv | colRgb => simp [instrOf]

/-- Settles O45: a row's bits fix OPC, which no two rows share, and each row answers behind its mode-number constraint. -/
theorem legalHeadersMatchOneRow : Obligations.LegalHeadersMatchOneRow := by
  refine ⟨fun h o o' hm hm' => Op.opc_injective ((opc_of_match hm).symm.trans (opc_of_match hm')), fun c => ?_⟩
  simp only [← exists_mode_number, ← exists_instrOf]
  constructor
  · rintro ⟨i, hc⟩
    obtain ⟨o, hm, hi⟩ := decode_cases hc
    exact ⟨o, hm, i, hi⟩
  · rintro ⟨o, hm, i, hi⟩
    exact ⟨i, (decode_of_row hm).trans hi⟩

/-- Settles O46: the decoder and the encoder, evaluated on the words. -/
theorem sampleWordsDecode : Obligations.SampleWordsDecode := by
  unfold Obligations.SampleWordsDecode
  decide

end Sys2Proof.Machine
end

section
/-! The command port and the progress of a step (R90, R94, R97, R210): an accepted command runs or traps, a busy VMC leaves it
at the port, and no step stops the machine. -/

namespace Sys2Proof.Machine

/-! ### Acceptance -/

/-- A step of a well-formed configuration takes what the host does next. -/
theorem step_eq_takeInput {s : State} (hwf : s.cfg.wf = true) : step s = takeInput s.port s := by
  rw [step, configuredStep, if_pos hwf, portStep]

/-- R90: an idle VMC accepts the command presented. -/
theorem step_of_command {s : State} {c : Command} {rest : List HostInput} (hwf : s.cfg.wf = true) (hseq : s.seq = .idle)
    (hp : s.port = .command c :: rest) : step s = accept c { s with port := rest } := by
  rw [step_eq_takeInput hwf, hp, takeInput, if_pos hseq]

/-- R90: while a command is in flight, a step with another at the port is a step of the one in flight. -/
theorem step_of_busy {s : State} {c : Command} {rest : List HostInput} (hwf : s.cfg.wf = true) (hseq : s.seq ≠ .idle)
    (hp : s.port = .command c :: rest) : step s = advance s := by
  rw [step_eq_takeInput hwf, hp, takeInput, if_neg hseq]

/-- R94: an accepted command that decodes is run. -/
theorem accept_of_decode {c : Command} {i : Instr} {s : State} (hrun : s.halt = false) (hc : decode c = .ok i) :
    accept c s = exec i s := by
  simp [accept, hrun, hc]

/-- R97: an accepted command that does not decode traps. -/
theorem accept_of_error {c : Command} {e : DecodeError} {s : State} (hrun : s.halt = false) (hc : decode c = .error e) :
    accept c s = .next (takeTrap s (opcField c.h) ⟨.illegalCommand, c.h⟩) := by
  simp [accept, hrun, hc]

theorem step_runs_decoded {s : State} {c : Command} {i : Instr} {rest : List HostInput} (hwf : s.cfg.wf = true)
    (hseq : s.seq = .idle) (hrun : s.halt = false) (hp : s.port = .command c :: rest) (hc : decode c = .ok i) :
    step s = exec i { s with port := rest } :=
  (step_of_command hwf hseq hp).trans (accept_of_decode hrun hc)

theorem decode_of_decodeTableWord {nbits w : Nat} {i : Instr} (h : decodeTableWord nbits w = some i) :
    decode (commandOfTableWord nbits w) = .ok i := by
  unfold decodeTableWord at h
  cases hc : decode (commandOfTableWord nbits w) with
  | ok j => simpa [hc, Except.toOption] using h
  | error e => simp [hc, Except.toOption] at h

/-- Settles O34: acceptance, then the decoded instruction; `withFetchWord` presents its command to an idle VMC. -/
theorem stepRunsDecodedInstruction : Obligations.StepRunsDecodedInstruction :=
  ⟨fun _ _ _ _ => step_runs_decoded, fun s nbits w _ hwf hrun hw =>
    step_runs_decoded (s := s.withFetchWord nbits w) hwf rfl hrun rfl (decode_of_decodeTableWord hw)⟩

/-- Settles O35: acceptance, then trap entry with H as info. -/
theorem illegalCommandTraps : Obligations.IllegalCommandTraps := fun s _ _ rest hwf hseq hrun hp hc =>
  ⟨_, (step_of_command hwf hseq hp).trans (accept_of_error hrun hc), takeTrap_traps { s with port := rest } _ _⟩

/-! ### The command in flight and the port -/

section
variable {s : State}

theorem advance_idle (h : s.seq = .idle) : advance s = .next s := by simp [advance, h]

theorem advance_clearing {m : VideoMode} (h : s.seq = .clearing) (hm : s.mode = some m) :
    advance s = .next (clearStep s m) := by simp [advance, h, hm]

theorem advance_poll (h : s.seq = .poll) : advance s = .next (vsyncStep s) := by simp [advance, h]

theorem advance_pollSwap (h : s.seq = .pollSwap) : advance s = .next (swapvStep s) := by simp [advance, h]

/-- Every way a step of the command in flight goes. -/
theorem advance_cases {t : State} (h : advance s = .next t) :
    (s.seq = .idle ∧ t = s) ∨ (∃ m, s.seq = .clearing ∧ s.mode = some m ∧ t = clearStep s m)
      ∨ (s.seq = .poll ∧ t = vsyncStep s) ∨ (s.seq = .pollSwap ∧ t = swapvStep s) := by
  unfold advance at h
  split at h
  · next hseq => exact .inl ⟨hseq, (Host.Outcome.next.inj h).symm⟩
  · next hseq =>
    split at h
    · next m hm => exact .inr (.inl ⟨m, hseq, hm, (Host.Outcome.next.inj h).symm⟩)
    · cases h
  · next hseq => exact .inr (.inr (.inl ⟨hseq, (Host.Outcome.next.inj h).symm⟩))
  · next hseq => exact .inr (.inr (.inr ⟨hseq, (Host.Outcome.next.inj h).symm⟩))

end

section
variable (s : State) (port : List HostInput)

theorem setPixel_port (m : VideoMode) (x y : Nat) (c : Half) :
    setPixel { s with port := port } m x y c = { setPixel s m x y c with port := port } := by
  cases m <;> rfl

theorem clearAdvance_port (m : VideoMode) :
    clearAdvance { s with port := port } m = { clearAdvance s m with port := port } := by
  unfold clearAdvance
  split
  · rfl
  · split <;> rfl

theorem checkPixel_port (m : VideoMode) (x y : Nat) : checkPixel { s with port := port } m x y = checkPixel s m x y := rfl

theorem pollSeesVblank_port : pollSeesVblank { s with port := port } = pollSeesVblank s := rfl

theorem clearStep_port (m : VideoMode) : clearStep { s with port := port } m = { clearStep s m with port := port } := by
  unfold clearStep
  rw [checkPixel_port]
  cases checkPixel s m s.cx.toNat s.cy.toNat with
  | some tr => rfl
  | none => simp only [setPixel_port, clearAdvance_port]

theorem vsyncStep_port : vsyncStep { s with port := port } = { vsyncStep s with port := port } := by
  unfold vsyncStep
  rw [pollSeesVblank_port]
  split <;> rfl

theorem swapvStep_port : swapvStep { s with port := port } = { swapvStep s with port := port } := by
  unfold swapvStep
  rw [pollSeesVblank_port]
  split
  · split <;> rfl
  · rfl

end

/-- A step of the command in flight is the same whatever waits at the port, and leaves the port as it is. -/
theorem advance_port {s t : State} (h : advance s = .next t) (port : List HostInput) :
    advance { s with port := port } = .next { t with port := port } := by
  rcases advance_cases h with ⟨hseq, rfl⟩ | ⟨m, hseq, hm, rfl⟩ | ⟨hseq, rfl⟩ | ⟨hseq, rfl⟩
  · exact advance_idle hseq
  · rw [← clearStep_port]
    exact advance_clearing hseq hm
  · rw [← vsyncStep_port]
    exact advance_poll hseq
  · rw [← swapvStep_port]
    exact advance_pollSwap hseq

theorem advance_keeps_port {s t : State} (h : advance s = .next t) : t.port = s.port := by
  have hsame : advance s = .next { t with port := s.port } := advance_port h s.port
  have ht : t = { t with port := s.port } := Host.Outcome.next.inj (h.symm.trans hsame)
  rw [ht]

/-- A step of the command in flight answers a next state: a clear in flight has a mode (R172). -/
theorem advance_next {s : State} (h : MachineInv s) : ∃ t, advance s = .next t := by
  cases hseq : s.seq with
  | idle => exact ⟨_, advance_idle hseq⟩
  | clearing =>
    obtain ⟨m, hm, -⟩ := h.clearing hseq
    exact ⟨_, advance_clearing hseq hm⟩
  | poll => exact ⟨_, advance_poll hseq⟩
  | pollSwap => exact ⟨_, advance_pollSwap hseq⟩

/-- Settles O37: the step is one of the command in flight, which neither looks at the port nor changes it. -/
theorem busyPortLeavesCommandWaiting : Obligations.BusyPortLeavesCommandWaiting := fun s c rest hinv hseq hp => by
  obtain ⟨t, ht⟩ := advance_next hinv
  have hwithout : step { s with port := [] } = advance { s with port := [] } := step_eq_takeInput hinv.configured
  exact ⟨t, (step_of_busy hinv.configured hseq hp).trans ht, advance_keeps_port ht, hwithout.trans (advance_port ht [])⟩

/-! ### Progress -/

theorem guarded_next (op : Op) (checks : Option Trap) (effect s : State) : ∃ t, guarded op checks effect s = .next t := by
  cases checks <;> exact ⟨_, rfl⟩

theorem withSlot_next {op : Op} {slot : Fin 16} {s : State} {rest : SlotDef → Result} (h : ∀ d, ∃ t, rest d = .next t) :
    ∃ t, withSlot op slot s rest = .next t := by
  unfold withSlot
  split
  · exact h _
  · exact ⟨_, rfl⟩

theorem withMode_next {op : Op} {s : State} {rest : VideoMode → Result} (h : ∀ m, ∃ t, rest m = .next t) :
    ∃ t, withMode op s rest = .next t := by
  unfold withMode
  split
  · exact h _
  · exact ⟨_, rfl⟩

/-- Every instruction answers a next state, in every state: a failing check is a trap (R210). -/
theorem exec_next (i : Instr) (s : State) : ∃ t, exec i s = .next t := by
  cases i with
  | regRead | regWrite | regZero => exact withSlot_next fun _ => ⟨_, rfl⟩
  | regSet | regAnd | regOr | regClear | regGetb | regSetb | regGetm | regSetm =>
    exact withSlot_next fun _ => guarded_next _ _ _ _
  | vmEnable | vmSet | vmGet | vmSetpal | vmGetpal | vmSwapv => exact withMode_next fun _ => guarded_next _ _ _ _
  | vmSwap =>
    refine withMode_next fun m => ?_
    split
    · exact ⟨_, rfl⟩
    · exact guarded_next _ _ _ _
  | vmClear | vmBounds => exact withMode_next fun _ => ⟨_, rfl⟩
  | vmVsync => exact ⟨_, rfl⟩
  | vmConstruct | gfxSwitch | colRgb => exact guarded_next _ _ _ _

/-- A step of the invariant answers a next state; with a reset inside, because the step behind it does. -/
theorem step_next {s : State} (h : MachineInv s) : ∃ t, step s = .next t := by
  rcases step_cases h.configured with ⟨_, e⟩ | ⟨rest, _, e⟩ | ⟨_, _, e⟩ | ⟨_, _, _, _, e⟩ | ⟨_, _, _, _, _, e⟩
    | ⟨_, _, _, _, _, _, _, e⟩ | ⟨_, _, _, _, _, _, _, e⟩ | ⟨k, rest, hp, e⟩ <;> rw [e]
  · exact advance_next h
  · exact advance_next (port_inv h rest)
  · exact ⟨_, rfl⟩
  · exact advance_next h
  · exact ⟨_, rfl⟩
  · exact ⟨_, rfl⟩
  · exact exec_next _ _
  · obtain ⟨t, ht⟩ := step_next (port_inv h rest)
    rw [ht]
    exact ⟨_, rfl⟩
termination_by s.port.length
decreasing_by simp [hp]

/-- Settles O49: along the cases of a step, every instruction and every step in flight answers. -/
theorem stepNeverStopsFromInv : Obligations.StepNeverStopsFromInv := fun _ => step_next

end Sys2Proof.Machine
end

section
/-! The checks of the REG family (spec/41_register.md R135), said once for its eleven commands: slot, shift, operand A, operand
B, and what a command does with a check that fails and with all of them passed. -/

namespace Sys2Proof.Machine

/-! ### The checks behind the slot -/

/-- The shift check of a command that has a shift, then the value checks of its operand words, in order: the first that fails. -/
def regChecks (d : SlotDef) (i : Instr) : Option Trap :=
  ((regShift i).bind (checkShift d)).or ((regOperands i).findSome? (checkValue d))

section
variable {d : SlotDef} {i : Instr} {sh : Fin 32}

theorem regChecks_badShift (hi : regShift i = some sh) (hsh : d.width.bits ≤ sh.val) :
    regChecks d i = some ⟨.badShift, BitVec.ofNat 32 sh.val⟩ := by
  rw [regChecks, hi, Option.bind_some, checkShift_of_ge hsh, Option.some_or]

theorem shiftCheck_eq_none (h : ∀ sh, regShift i = some sh → sh.val < d.width.bits) :
    (regShift i).bind (checkShift d) = none :=
  Option.bind_eq_none_iff.2 fun sh hsh => checkShift_eq_none.2 (h sh hsh)

/-- The first operand word that does not fit is the one the command traps on. -/
theorem operandChecks_badValue {ok rest : List Word} {bad : Word} (hok : ∀ v ∈ ok, Fits d v) (hbad : ¬ Fits d bad) :
    (ok ++ bad :: rest).findSome? (checkValue d) = some ⟨.badValue, bad⟩ := by
  have hpass : ok.findSome? (checkValue d) = none :=
    List.findSome?_eq_none_iff.2 fun v hv => checkValue_eq_none.2 (hok v hv)
  rw [List.findSome?_append, hpass, Option.none_or, List.findSome?_cons, checkValue_of_not_fits hbad]

end

theorem findSome?_pair {α β : Type} (f : α → Option β) (a b : α) : [a, b].findSome? f = (f a).or (f b) := by
  rw [← List.singleton_append, List.findSome?_append, List.findSome?_singleton, List.findSome?_singleton]

/-! ### The checks of a command -/

/-- A command that goes through its slot and then its checks traps as R135 says, whatever its effect. -/
theorem regChecksTrap_of_exec {i : Instr} {op : Op} {slot : Fin 16} {s : State} {checks : SlotDef → Option Trap}
    {effect : SlotDef → State} (hop : opcOf i = op.opc)
    (he : exec i s = withSlot op slot s fun d => guarded op (checks d) (effect d) s)
    (hchecks : ∀ d, checks d = regChecks d i) : RegChecksTrap s i slot := by
  have traps : ∀ {d tr}, HasSlot s slot d → regChecks d i = some tr →
      ∃ t, exec i s = .next t ∧ Traps (opcOf i) tr.cause tr.info s t := fun {d _} hd hc =>
    ⟨_, he.trans ((withSlot_of_hasSlot hd _).trans (guarded_trap ((hchecks d).trans hc) _ _)), hop ▸ takeTrap_traps s _ _⟩
  refine ⟨fun habsent => ?_, fun d sh hd hi hsh => ?_, fun d ok bad rest hd hsh hops hok hbad => ?_⟩
  · exact ⟨_, he.trans (withSlot_absent habsent _), hop ▸ takeTrap_traps s _ _⟩
  · exact traps hd (regChecks_badShift hi hsh)
  · refine traps (tr := ⟨.badValue, bad⟩) hd ?_
    rw [regChecks, shiftCheck_eq_none hsh, Option.none_or, hops, operandChecks_badValue hok hbad]

/-- R135: the checks of every REG command. -/
theorem exec_regChecksTrap {i : Instr} {slot : Fin 16} (hi : regSlot i = some slot) (s : State) : RegChecksTrap s i slot := by
  cases i with
  | regRead | regWrite | regZero =>
    cases hi
    exact regChecksTrap_of_exec (checks := fun _ => none) (opcOf_header rfl) rfl fun _ => rfl
  | regSet | regAnd | regOr | regClear =>
    cases hi
    exact regChecksTrap_of_exec (opcOf_header rfl) rfl fun _ => List.findSome?_singleton.symm
  | regGetb | regSetb =>
    cases hi
    exact regChecksTrap_of_exec (opcOf_header rfl) rfl fun _ => Option.or_none.symm
  | regGetm =>
    cases hi
    exact regChecksTrap_of_exec (opcOf_header rfl) rfl fun _ => congrArg _ List.findSome?_singleton.symm
  | regSetm =>
    cases hi
    exact regChecksTrap_of_exec (opcOf_header rfl) rfl fun _ => congrArg _ (findSome?_pair ..).symm
  | vmConstruct | vmEnable | vmSet | vmGet | vmSwap | vmClear | vmBounds | vmSetpal | vmGetpal | vmVsync | vmSwapv
  | gfxSwitch | colRgb => cases hi

/-- Every 32-bit word fits a 32-bit slot, and every SH is below its width. -/
theorem checks_pass_of_w32 {d : SlotDef} (hd : d.width = .w32) (sh : Fin 32) (v : Word) :
    sh.val < d.width.bits ∧ Fits d v := by
  rw [Fits, hd]
  exact ⟨sh.isLt, v.isLt⟩

/-- Settles O10: the checks of every REG command, and what they are for each width. -/
theorem regChecksTrapInOrder : Obligations.RegChecksTrapInOrder := by
  refine ⟨fun s _ _ hi => exec_regChecksTrap hi s, fun _ sh v hd => checks_pass_of_w32 hd sh v, fun d v hd => ?_⟩
  rw [Fits, hd]
  exact fits_iff .w16 v

end Sys2Proof.Machine
end

section
/-! The REG commands that access memory (spec/41_register.md R136, R137): the load, and the bytes a store leaves. -/

namespace Sys2Proof.Machine

/-- A field of a field is the field at the sum of the two offsets. -/
theorem extractLsb'_extractLsb'_add {w start len start' len' : Nat} (x : BitVec w) (h : start' + len' ≤ len) :
    (x.extractLsb' start len).extractLsb' start' len' = x.extractLsb' (start + start') len' := by
  refine BitVec.eq_of_getLsbD_eq fun i hi => ?_
  simp only [BitVec.getLsbD_extractLsb', hi, show start' + i < len by omega, decide_true, Bool.true_and, Nat.add_assoc]

theorem Memory.read_write16_byte {m : Memory} {a k : Nat} (v : Half) (hk : k < 2) :
    (m.write16 a v).read (a + k) = v.extractLsb' (8 * k) 8 := by
  rw [Memory.read_write16]
  obtain rfl | rfl : k = 0 ∨ k = 1 := by omega
  · rw [if_pos (Nat.add_zero a)]
  · rw [if_neg (by omega), if_pos rfl]

/-- After a store of n bytes, each of them reads as its byte of the value, little-endian (R61, R65). -/
theorem Memory.read_writeWord_byte {m : Memory} {w : Width} {a k : Nat} (v : Word) (hk : k < w.bytes) :
    (m.writeWord w a v).read (a + k) = byteField v k := by
  have low : k < 2 → ∀ {m' : Memory}, (m'.write16 a (lowHalf v)).read (a + k) = byteField v k := fun h _ => by
    rw [Memory.read_write16_byte _ h, lowHalf, extractLsb'_extractLsb'_add v (by omega), Nat.zero_add, byteField]
  cases w with
  | w16 => exact low hk
  | w32 =>
    by_cases h : k < 2
    · exact (Memory.read_write16_outside _ (by omega)).trans (low h)
    · obtain ⟨j, rfl⟩ := Nat.exists_eq_add_of_le (Nat.not_lt.1 h)
      have hj : j < 2 := by simp only [Width.bytes] at hk; omega
      rw [Memory.writeWord, ← Nat.add_assoc, Memory.read_write16_byte _ hj, highHalf,
        extractLsb'_extractLsb'_add v (by omega), byteField, Nat.mul_add]

/-- Settles O1: the checks, then the load, the held word and the response one after the other. -/
theorem regReadLatchesLoadedWord : Obligations.RegReadLatchesLoadedWord := fun s slot =>
  ⟨exec_regChecksTrap rfl s, fun d hd =>
    ⟨respond (setHeld (memRead s d.width d.addr) slot (busValue s d.width d.addr)) (busValue s d.width d.addr),
      withSlot_of_hasSlot hd _, heldAt_setHeld_same .., rfl, rfl, fun _ hk => heldAt_setHeld_other _ hk _,
      ⟨rfl, rfl, rfl⟩, ⟨rfl, rfl, rfl⟩, ⟨rfl, rfl, rfl, rfl⟩, fun _ => rfl, ⟨rfl, rfl, rfl⟩⟩⟩

/-- Settles O2: the checks, then the store; a held word that fits its slot is stored whole. -/
theorem regWriteStoresHeldWord : Obligations.RegWriteStoresHeldWord := fun s slot => by
  refine ⟨exec_regChecksTrap rfl s, fun d hd hw _ => ?_⟩
  have hstored : trunc d.width (heldAt s slot) = heldAt s slot := trunc_of_fits hw
  refine ⟨respond (memWrite s d.width d.addr (heldAt s slot)) 0, withSlot_of_hasSlot hd _, fun k hk => ?_,
    memWrite_frame (s := s) _ _ _, ?_, rfl, fun _ => rfl, ⟨rfl, rfl, rfl⟩, ⟨rfl, rfl, rfl⟩, ⟨rfl, rfl, rfl, rfl⟩,
    ⟨rfl, rfl, rfl⟩, ⟨rfl, rfl⟩⟩
  · rw [respond_mem, memWrite_mem, hstored, Memory.read_writeWord_byte _ hk]
  · rw [Issues, respond_events, memWrite_events, hstored]

end Sys2Proof.Machine
end

section
/-! The bit functions (spec/41_register.md R131 to R134): words of a slot's width compared bit by bit, and the laws. -/

namespace Sys2Proof.Machine

section
variable {w : Width} {x y : Word}

/-- Two words of W bits are equal when they agree below bit W. -/
theorem eq_of_bits_below (hx : x.toNat < 2 ^ w.bits) (hy : y.toNat < 2 ^ w.bits)
    (h : ∀ j < w.bits, x.getLsbD j = y.getLsbD j) : x = y := by
  refine BitVec.eq_of_getLsbD_eq fun j _ => ?_
  by_cases hj : j < w.bits
  · exact h j hj
  · rw [(fits_iff w x).1 hx j (by omega), (fits_iff w y).1 hy j (by omega)]

/-- Truncating a mask changes nothing of what it keeps of a word of W bits. -/
theorem and_trunc_of_fits (hx : x.toNat < 2 ^ w.bits) (m : Word) : x &&& trunc w m = x &&& m :=
  calc x &&& trunc w m = trunc w x &&& m := by rw [trunc, trunc, BitVec.and_assoc, BitVec.and_comm m]
    _ = x &&& m := by rw [trunc_of_fits hx]

/-- A field of W bits shifted up and truncated, then shifted down, has lost the bits shifted out at the top. -/
theorem trunc_shiftLeft_shiftRight (m : Word) (sh : Nat) :
    trunc w (m <<< sh) >>> sh = m &&& (ones w >>> sh) := by
  have hw : w.bits ≤ 32 := by cases w <;> decide
  refine BitVec.eq_of_getLsbD_eq fun j hj => ?_
  simp only [BitVec.getLsbD_ushiftRight, trunc_getLsbD, BitVec.getLsbD_shiftLeft, BitVec.getLsbD_and, ones_getLsbD]
  by_cases h : sh + j < w.bits
  · simp [h, show sh + j < 32 by omega]
  · simp [h]

/-- R134 (a) without its precondition: the bits of the field that lie below W come back. -/
theorem getm_setm (hx : x.toNat < 2 ^ w.bits) (sh : Nat) (m v : Word) :
    getm (setm w x sh m v) sh m = v &&& m &&& (ones w >>> sh) := by
  refine BitVec.eq_of_getLsbD_eq fun j _ => ?_
  simp only [getm_getLsbD, BitVec.getLsbD_and, BitVec.getLsbD_ushiftRight, ones_getLsbD]
  by_cases hj : sh + j < w.bits
  · rw [setm_getLsbD w x sh m v _ hj, Nat.add_sub_cancel_left]
    cases m.getLsbD j <;> simp [hj]
  · rw [(fits_iff w _).1 (setm_fits hx sh m v) _ (by omega)]
    simp [hj]

/-- R134 (a): a field that is not shifted out comes back whole. -/
theorem getm_setm_of_kept (hx : x.toNat < 2 ^ w.bits) {sh : Nat} {m : Word} (v : Word)
    (hm : trunc w (m <<< sh) >>> sh = m) : getm (setm w x sh m v) sh m = v &&& m := by
  rw [trunc_shiftLeft_shiftRight m sh] at hm
  rw [getm_setm hx, BitVec.and_assoc, hm]

/-- R134 (b): no bit outside the field changes. -/
theorem setm_outside_field (x : Word) (sh : Nat) (m v : Word) :
    setm w x sh m v &&& trunc w (~~~(trunc w (m <<< sh))) = x &&& trunc w (~~~(trunc w (m <<< sh))) := by
  refine BitVec.eq_of_getLsbD_eq fun j hj => ?_
  simp only [BitVec.getLsbD_and, trunc_getLsbD, BitVec.getLsbD_not]
  by_cases hw : j < w.bits
  · rw [setm_getLsbD w x sh m v j hw]
    split
    · next h =>
      have hfield : (m <<< sh).getLsbD j = true := by
        rw [BitVec.getLsbD_shiftLeft, h.2]
        simp [hj, h.1]
      rw [hfield]
      simp [hw]
    · rfl
  · simp [hw]

/-- R144: of a word of W bits, bit i becomes the operand bit, and every other bit is unchanged. -/
theorem setb_getLsbD_of_fits (hx : x.toNat < 2 ^ w.bits) {i : Nat} (hi : i < w.bits) (b : Bool) (j : Nat) :
    (setb w x i b).getLsbD j = if j = i then b else x.getLsbD j := by
  by_cases hj : j < w.bits
  · exact setb_getLsbD w x i b j hj
  · rw [if_neg (by omega), (fits_iff w _).1 (setb_fits hx i b) j (by omega), (fits_iff w x).1 hx j (by omega)]

/-- R134 (d): a bit is a field of one bit. -/
theorem setb_eq_setm (hx : x.toNat < 2 ^ w.bits) (i : Nat) (b : Bool) :
    setb w x i b = setm w x i 1 (if b then 1 else 0) := by
  refine eq_of_bits_below (setb_fits hx i b) (setm_fits hx i _ _) fun j hj => ?_
  rw [setb_getLsbD w x i b j hj, setm_getLsbD w x i _ _ j hj]
  by_cases h : j = i
  · subst h
    cases b <;> simp
  · have hout : ¬ (i ≤ j ∧ BitVec.getLsbD (1 : Word) (j - i) = true) := by
      simp [BitVec.getLsbD_one]
      omega
    rw [if_neg h, if_neg hout]

/-- R134 (e): clearing the field's bits and then setting those of the value is setm. -/
theorem clear_or_eq_setm (hx : x.toNat < 2 ^ w.bits) (sh : Nat) (m v : Word) :
    x &&& ~~~(trunc w (m <<< sh)) ||| trunc w ((v &&& m) <<< sh) = setm w x sh m v := by
  rw [setm, and_trunc_of_fits hx]

end

end Sys2Proof.Machine
end

section
/-! The staged REG commands (spec/41_register.md R138 to R146): with the checks of R135 passed, each replaces the held word or
answers, and does nothing else. -/

namespace Sys2Proof.Machine

section
variable {i : Instr} {op : Op} {slot : Fin 16} {d : SlotDef} {checks : Option Trap} {s : State} {v : Word}

/-- A command that holds a word and answers 0 does nothing else. -/
theorem staged_result (he : exec i s = .next (respond (setHeld s slot v) 0)) :
    ∃ t, exec i s = .next t ∧ heldAt t slot = v ∧ RespondsOk s t 0 ∧ StagedFrame slot s t :=
  ⟨_, he, heldAt_setHeld_same s slot v, rfl, setHeld_respond_frame s slot v 0⟩

/-- A staged command whose checks pass holds its word, which fits the slot. -/
theorem staged_of_checks
    (he : exec i s = guarded op checks (respond (setHeld s slot (trunc d.width v)) 0) s)
    (hc : checks = none) (hv : Fits d v) :
    ∃ t, exec i s = .next t ∧ heldAt t slot = v ∧ RespondsOk s t 0 ∧ StagedFrame slot s t := by
  rw [trunc_of_fits hv] at he
  exact staged_result (he.trans (guarded_pass hc _ _))

/-- A command whose checks pass and which only answers does nothing else. -/
theorem query_of_checks {r : Word} (he : exec i s = guarded op checks (respond s r) s) (hc : checks = none) :
    ∃ t, exec i s = .next t ∧ RespondsOk s t r ∧ QueryFrame s t :=
  ⟨_, he.trans (guarded_pass hc _ _), rfl, respond_frame s r⟩

/-- The slots of a state are those of its configuration. -/
theorem StagedFrame.hasSlot {t : State} {k : Fin 16} (h : StagedFrame slot s t) (hd : HasSlot s k d) : HasSlot t k d := by
  obtain ⟨-, -, -, -, -, ⟨hcfg, -, -⟩, -, -⟩ := h
  rwa [HasSlot, hcfg]

end

/-- Settles O3: the checks, then 0 or the operand. -/
theorem regZeroAndSetReplaceHeldWord : Obligations.RegZeroAndSetReplaceHeldWord := fun s _ _ =>
  ⟨exec_regChecksTrap rfl s, exec_regChecksTrap rfl s, fun _ hd =>
    ⟨staged_result (withSlot_of_hasSlot hd _), fun hv =>
      staged_of_checks (withSlot_of_hasSlot hd _) (checkValue_eq_none.2 hv) hv⟩⟩

/-- Settles O4: the checks, then the bitwise function, whose value fits the slot. -/
theorem regBitwiseTransforms : Obligations.RegBitwiseTransforms := fun s _ _ =>
  ⟨exec_regChecksTrap rfl s, exec_regChecksTrap rfl s, exec_regChecksTrap rfl s, fun _ hd hw hm =>
    have pass := checkValue_eq_none.2 hm
    ⟨staged_of_checks (withSlot_of_hasSlot hd _) pass (and_fits hw),
      staged_of_checks (withSlot_of_hasSlot hd _) pass (or_fits hw hm),
      staged_of_checks (withSlot_of_hasSlot hd _) pass (and_fits hw)⟩⟩

/-- Settles O5: the checks, then the bit as an answer. -/
theorem regGetbReadsHeldBit : Obligations.RegGetbReadsHeldBit := fun s slot i =>
  ⟨exec_regChecksTrap rfl s, fun _ hd hi => by
    rw [← getb_eq]
    exact query_of_checks (withSlot_of_hasSlot hd _) (checkShift_eq_none.2 hi)⟩

/-- Settles O6: the checks, then setb on a word that fits the slot. -/
theorem regSetbChangesOneBit : Obligations.RegSetbChangesOneBit := fun s slot i bit => by
  refine ⟨exec_regChecksTrap rfl s, fun d hd hi hw => ?_⟩
  obtain ⟨t, ht, hheld, hr, hframe⟩ :=
    staged_of_checks (i := .regSetb slot i bit) (withSlot_of_hasSlot hd _) (checkShift_eq_none.2 hi) (setb_fits hw i.val bit)
  exact ⟨t, ht, fun j => hheld ▸ setb_getLsbD_of_fits hw hi bit j, hr, hframe⟩

/-- Settles O7: the checks, then the field as an answer. -/
theorem regGetmReadsShiftedField : Obligations.RegGetmReadsShiftedField := fun s slot sh m => by
  refine ⟨exec_regChecksTrap rfl s, fun d hd hsh hm => ?_⟩
  have pass : (checkShift d sh).or (checkValue d m) = none :=
    Option.or_eq_none_iff.2 ⟨checkShift_eq_none.2 hsh, checkValue_eq_none.2 hm⟩
  obtain ⟨t, ht, hr, hframe⟩ := query_of_checks (i := .regGetm slot sh m) (withSlot_of_hasSlot hd _) pass
  exact ⟨t, _, ht, hr, getm_getLsbD _ m sh.val, hframe⟩

/-- Settles O8: the checks, then setm on a word that fits the slot. -/
theorem regSetmWritesMaskedField : Obligations.RegSetmWritesMaskedField := fun s slot sh m v => by
  refine ⟨exec_regChecksTrap rfl s, fun d hd hsh hm hv hw => ?_⟩
  have pass : (checkShift d sh).or ((checkValue d m).or (checkValue d v)) = none := by
    simp only [Option.or_eq_none_iff, checkShift_eq_none, checkValue_eq_none]
    exact ⟨hsh, hm, hv⟩
  have hfits := setm_fits hw sh.val m v
  obtain ⟨t, ht, hheld, hr, hframe⟩ :=
    staged_of_checks (i := .regSetm slot sh m v) (withSlot_of_hasSlot hd _) pass hfits
  exact ⟨t, ht, fun j hj => hheld ▸ setm_getLsbD d.width _ sh.val m v j hj, hheld ▸ hfits, hr, hframe⟩

/-- R134 (e) on the machine: REG.CLEAR of the field, then REG.OR of the value. -/
theorem regClear_regOr_setm {s : State} {slot : Fin 16} {d : SlotDef} (hd : HasSlot s slot d)
    (hw : Fits d (heldAt s slot)) (sh : Nat) (m v : Word) :
    ∃ t u, exec (.regClear slot (trunc d.width (m <<< sh))) s = .next t
      ∧ exec (.regOr slot (trunc d.width ((v &&& m) <<< sh))) t = .next u
      ∧ heldAt u slot = setm d.width (heldAt s slot) sh m v := by
  obtain ⟨-, -, -, onSlot⟩ := regBitwiseTransforms s slot (trunc d.width (m <<< sh))
  obtain ⟨-, -, t, ht, hclear, -, hframe⟩ := onSlot d hd hw (trunc_fits _ _)
  have hw' : Fits d (heldAt t slot) := hclear ▸ and_fits hw
  obtain ⟨-, -, -, onSlot'⟩ := regBitwiseTransforms t slot (trunc d.width ((v &&& m) <<< sh))
  obtain ⟨-, ⟨u, hu, hor, -, -⟩, -⟩ := onSlot' d (hframe.hasSlot hd) hw' (trunc_fits _ _)
  exact ⟨t, u, ht, hu, by rw [hor, hclear, clear_or_eq_setm hw]⟩

/-- Settles O9: the laws of the bit functions one by one, and (e) through the two commands. -/
theorem bitFieldLaws : Obligations.BitFieldLaws := by
  refine ⟨fun d w m v sh hw _ _ hsh => ⟨getm_setm_of_kept hw v, getm_setm hw sh m v, setm_outside_field w sh m v,
    fun b => ⟨?_, fun j hj => ?_, setb_eq_setm hw sh b, rfl⟩⟩, fun s slot d sh m v hd _ _ _ hw =>
      regClear_regOr_setm hd hw sh m v⟩
  · rw [getb_eq, setb_getLsbD_of_fits hw hsh, if_pos rfl]
  · rw [setb_getLsbD_of_fits hw hsh, if_neg hj]

end Sys2Proof.Machine
end

section
/-! The presented buffer (R34, R170): which bytes the accesses of each operation, instruction and step take in. A pixel's cell
lies in the draw buffer; every other access lies outside both frames. -/

namespace Sys2Proof.Machine

/-- The event touches no byte outside [lo, lo + n). -/
def BusEvent.Within (lo n : Nat) (e : BusEvent) : Prop := lo ≤ e.address ∧ e.address + e.size ≤ lo + n

/-- The event touches no byte of [lo, lo + n). -/
def BusEvent.Outside (lo n : Nat) (e : BusEvent) : Prop := e.address + e.size ≤ lo ∨ lo + n ≤ e.address

/-! ### The buffer the hardware bit names -/

theorem presented_of_bit {s : State} {x : Buffer} (h : (controlInMemory s).getLsbD s.cfg.bufselBit = activeBit x) :
    presented s = x := by
  cases x <;> simp [presented, h, activeBit]

theorem doubleBuffered_iff {m : VideoMode} : doubleBuffered m = true ↔ m ≠ .m3 := by cases m <;> simp [doubleBuffered]

/-- In sync, the buffer presented is the one ACTIVE names (R36). -/
theorem InSync.presented_eq {s : State} {m : VideoMode} (h : InSync s) (hm : s.mode = some m) (h3 : m ≠ .m3) :
    presented s = s.active := by
  obtain ⟨-, -, m', hm', -, -, hbuf⟩ := (inSync_iff s).1 h
  obtain rfl : m = m' := Option.some.inj (hm.symm.trans hm')
  exact presented_of_bit (hbuf (doubleBuffered_iff.2 h3))

theorem drawBase_eq {s : State} {m : VideoMode} (h3 : m ≠ .m3) : drawBase s m = bufferBase s.cfg (otherBuffer s.active) := by
  cases m with
  | m3 => exact absurd rfl h3
  | m4 => rfl
  | m5 => rfl

/-! ### The two frames, the register slots and the palette -/

section
variable {cfg : Cfg} {m : VideoMode}

theorem frameBytes_le (h3 : m ≠ .m3) : frameBytes m ≤ 40960 := by
  cases m with
  | m3 => exact absurd rfl h3
  | m4 => decide
  | m5 => decide

/-- Either frame of a double-buffered mode lies in Video RAM (R6 (g), R38). -/
theorem frame_in_vram (hwf : cfg.wf = true) (h3 : m ≠ .m3) (x : Buffer) :
    cfg.vramBase ≤ bufferBase cfg x ∧ bufferBase cfg x + frameBytes m ≤ cfg.vramBase + 98304 := by
  have hb := frameB_bounds hwf
  have hf := frameBytes_le h3
  cases x <;> simp only [bufferBase] <;> omega

/-- A frame and the other frame share no byte (R6 (g)). -/
theorem BusEvent.Within.outside_other {e : BusEvent} {x : Buffer} (hwf : cfg.wf = true) (h3 : m ≠ .m3)
    (h : e.Within (bufferBase cfg (otherBuffer x)) (frameBytes m)) : e.Outside (bufferBase cfg x) (frameBytes m) := by
  have hb := frameB_bounds hwf
  have hf := frameBytes_le h3
  unfold BusEvent.Within at h
  unfold BusEvent.Outside
  cases x <;> simp only [bufferBase, otherBuffer] at h ⊢ <;> omega

/-- A register slot's bytes lie outside either frame (R6 (i)). -/
theorem slot_outside_frame (hwf : cfg.wf = true) (h3 : m ≠ .m3) (x : Buffer) {d : SlotDef} (hd : d ∈ cfg.regtab) :
    d.addr + d.width.bytes ≤ bufferBase cfg x ∨ bufferBase cfg x + frameBytes m ≤ d.addr := by
  have hframe := frame_in_vram hwf h3 x
  have hslot := (slot_outside_windows hwf hd).1
  omega

theorem displayWord_outside_frame (hwf : cfg.wf = true) (h3 : m ≠ .m3) (x : Buffer) {k : Nat} (hk : k < 2) :
    cfg.addr k + Width.w16.bytes ≤ bufferBase cfg x ∨ bufferBase cfg x + frameBytes m ≤ cfg.addr k := by
  have hframe := frame_in_vram hwf h3 x
  have hword := (display_words_outside hwf hk).1
  simp only [Width.bytes]
  omega

theorem paletteEntry_outside_frame (hwf : cfg.wf = true) (h3 : m ≠ .m3) (x : Buffer) {k : Nat} (hk : k < 256) :
    cfg.palBase + 2 * k + Width.w16.bytes ≤ bufferBase cfg x ∨ bufferBase cfg x + frameBytes m ≤ cfg.palBase + 2 * k := by
  have hframe := frame_in_vram hwf h3 x
  have hpal := windows_disjoint hwf
  simp only [Width.bytes]
  omega

end

/-! ### Operations -/

section
variable {P Q : BusEvent → Prop} {s t : State}

theorem IssuesOnly.mono (h : IssuesOnly P s t) (hPQ : ∀ e, P e → Q e) : IssuesOnly Q s t := by
  obtain ⟨es, hes, hall⟩ := h
  exact ⟨es, hes, fun e he => hPQ e (hall e he)⟩

/-- The accesses of a pixel are a load and a store, or a store, of its cell (R167). -/
theorem setPixel_issuesOnly {m : VideoMode} {x y : Nat} (hload : ∀ v, P (.load (cellAddr s m x y) .w16 v))
    (hstore : ∀ v, P (.store (cellAddr s m x y) .w16 v)) (c : Half) : IssuesOnly P s (setPixel s m x y c) := by
  by_cases h4 : m = .m4
  · subst h4
    rw [setPixel_mode4]
    have hfirst : IssuesOnly P s (memRead s .w16 (cellAddr s .m4 x y)) := .single rfl (hload _)
    exact hfirst.trans (.single rfl (hstore _))
  · rw [setPixel_direct h4]
    exact .single rfl (hstore _)

end

section
variable {s : State} {lo n : Nat}

theorem swapBody_outside (h : s.cfg.addr 0 + Width.w16.bytes ≤ lo ∨ lo + n ≤ s.cfg.addr 0) :
    IssuesOnly (·.Outside lo n) s (swapBody s) :=
  ⟨_, swapBody_issues s, by simpa [BusEvent.Outside, BusEvent.address, BusEvent.size] using h⟩

theorem pollLoad_outside (h : s.cfg.addr 1 + Width.w16.bytes ≤ lo ∨ lo + n ≤ s.cfg.addr 1) :
    IssuesOnly (·.Outside lo n) s (pollLoad s) :=
  .single rfl h

theorem vsyncStep_outside (h : s.cfg.addr 1 + Width.w16.bytes ≤ lo ∨ lo + n ≤ s.cfg.addr 1) :
    IssuesOnly (·.Outside lo n) s (vsyncStep s) := by
  have hpoll := pollLoad_outside h
  unfold vsyncStep
  split <;> exact hpoll

theorem swapvStep_outside (h0 : s.cfg.addr 0 + Width.w16.bytes ≤ lo ∨ lo + n ≤ s.cfg.addr 0)
    (h1 : s.cfg.addr 1 + Width.w16.bytes ≤ lo ∨ lo + n ≤ s.cfg.addr 1) :
    IssuesOnly (·.Outside lo n) s (swapvStep s) := by
  have hpoll := pollLoad_outside h1
  unfold swapvStep
  split
  · split
    · exact hpoll
    · exact hpoll.trans (swapBody_outside (s := pollLoad s) h0)
  · exact hpoll

end

/-- From `s` to `t` the VMC touches only the draw buffer of mode `m` in `s`. -/
abbrev IssuesInDrawBuffer (m : VideoMode) (s t : State) : Prop := IssuesOnly (·.Within (drawBase s m) (frameBytes m)) s t

/-- From `s` to `t` the VMC does not touch the buffer ACTIVE names in `s`, as large as in mode `m`. -/
abbrev AvoidsActiveBuffer (m : VideoMode) (s t : State) : Prop :=
  IssuesOnly (·.Outside (bufferBase s.cfg s.active) (frameBytes m)) s t

section
variable {s t : State} {m : VideoMode}

/-- What stays in the draw buffer leaves the other buffer alone. -/
theorem IssuesInDrawBuffer.avoidsActive (hwf : s.cfg.wf = true) (h3 : m ≠ .m3) (h : IssuesInDrawBuffer m s t) :
    AvoidsActiveBuffer m s t :=
  h.mono fun _ he => BusEvent.Within.outside_other hwf h3 (drawBase_eq (s := s) h3 ▸ he)

theorem cell_within {x y : Nat} (hwf : s.cfg.wf = true) (hx : x < wd m) (hy : y < ht m) :
    drawBase s m ≤ cellAddr s m x y ∧ cellAddr s m x y + Width.w16.bytes ≤ drawBase s m + frameBytes m := by
  obtain ⟨hlo, hhi, -⟩ := cellAddr_bounds hwf hx hy
  exact ⟨hlo, hhi⟩

theorem setPixel_inDrawBuffer {x y : Nat} (hwf : s.cfg.wf = true) (hx : x < wd m) (hy : y < ht m) (c : Half) :
    IssuesInDrawBuffer m s (setPixel s m x y c) :=
  setPixel_issuesOnly (fun _ => cell_within hwf hx hy) (fun _ => cell_within hwf hx hy) c

theorem clearStep_inDrawBuffer (hwf : s.cfg.wf = true) (hx : s.cx.toNat < wd m) (hy : s.cy.toNat < ht m) :
    IssuesInDrawBuffer m s (clearStep s m) := by
  rw [clearStep_of_bounds hx hy]
  exact (setPixel_inDrawBuffer hwf hx hy 0).trans (.of_events_eq (clearAdvance_events _ m))

/-! ### Instructions and steps -/

/-- VM.SET, VM.GET and VM.CLEAR touch the draw buffer only. -/
theorem exec_inDrawBuffer {i : Instr} (hwf : s.cfg.wf = true) (hm : s.mode = some m)
    (hi : (∃ x y c hi, i = .vmSet x y c hi) ∨ (∃ x y, i = .vmGet x y) ∨ i = .vmClear) (he : exec i s = .next t) :
    IssuesInDrawBuffer m s t := by
  have same : ∀ {m'}, s.mode = some m' → m' = m := fun h => Option.some.inj (h.symm.trans hm)
  rcases exec_cases he with ⟨tr, rfl, -⟩ | heff
  · exact .of_events_eq rfl
  · cases heff with
    | set m' x y c hm' hb =>
      obtain rfl := same hm'
      exact setPixel_inDrawBuffer hwf hb.1 hb.2 c
    | get m' x y hm' hb =>
      obtain rfl := same hm'
      exact .single rfl (cell_within hwf hb.1 hb.2)
    | clear m' hm' =>
      obtain rfl := same hm'
      exact clearStep_inDrawBuffer (s := { s with seq := .clearing, cx := 0, cy := 0 }) hwf (wd_pos m') (ht_pos m')
    | staged | query => exact .of_events_eq rfl
    | read | write | construct | enable | swap | setpal | getpal | vsync | swapv | switch => simp at hi

/-- No instruction touches the buffer ACTIVE names: pixels go to the draw buffer, everything else outside Video RAM. -/
theorem exec_avoidsActive {i : Instr} (hwf : s.cfg.wf = true) (hm : s.mode = some m) (h3 : m ≠ .m3)
    (he : exec i s = .next t) : AvoidsActiveBuffer m s t := by
  have control := displayWord_outside_frame hwf h3 s.active (k := 0) (by decide)
  have status := displayWord_outside_frame hwf h3 s.active (k := 1) (by decide)
  have pixel := fun hi => (exec_inDrawBuffer hwf hm hi he).avoidsActive hwf h3
  rcases exec_cases he with ⟨tr, rfl, -⟩ | heff
  · exact .of_events_eq rfl
  · cases heff with
    | staged | query | construct => exact .of_events_eq rfl
    | read slot d hd => exact .single rfl (slot_outside_frame hwf h3 s.active hd.mem)
    | write slot d hd => exact .single rfl (slot_outside_frame hwf h3 s.active hd.mem)
    | enable | switch => exact .single rfl control
    | set m' x y c => exact pixel (.inl ⟨x, y, c, 0, rfl⟩)
    | get m' x y => exact pixel (.inr (.inl ⟨x, y, rfl⟩))
    | clear => exact pixel (.inr (.inr rfl))
    | swap => exact swapBody_outside control
    | setpal k c _ hk => exact .single rfl (paletteEntry_outside_frame hwf h3 s.active hk)
    | getpal k _ hk => exact .single rfl (paletteEntry_outside_frame hwf h3 s.active hk)
    | vsync => exact vsyncStep_outside (s := { s with seq := .poll }) status
    | swapv => exact swapvStep_outside (s := { s with seq := .pollSwap }) control status

/-- A clear in flight touches the draw buffer only. -/
theorem advance_inDrawBuffer (h : MachineInv s) (hm : s.mode = some m) (hseq : s.seq = .clearing)
    (ha : advance s = .next t) : IssuesInDrawBuffer m s t := by
  cases (advance_clearing hseq hm).symm.trans ha
  obtain ⟨hx, hy⟩ := clearing_bounds h hseq hm
  exact clearStep_inDrawBuffer h.configured hx hy

theorem advance_avoidsActive (h : MachineInv s) (hm : s.mode = some m) (h3 : m ≠ .m3) (ha : advance s = .next t) :
    AvoidsActiveBuffer m s t := by
  have control := displayWord_outside_frame h.configured h3 s.active (k := 0) (by decide)
  have status := displayWord_outside_frame h.configured h3 s.active (k := 1) (by decide)
  rcases advance_cases ha with ⟨-, rfl⟩ | ⟨-, hseq, -⟩ | ⟨-, rfl⟩ | ⟨-, rfl⟩
  · exact .of_events_eq rfl
  · exact (advance_inDrawBuffer h hm hseq ha).avoidsActive h.configured h3
  · exact vsyncStep_outside status
  · exact swapvStep_outside control status

end

/-- A property of the accesses of instructions and of steps in flight, whatever waits at the port, is one of the accesses of
any step: a reset inside a step issues nothing of its own. -/
theorem step_issuesOnly {P : BusEvent → Prop} {s t : State} (hwf : s.cfg.wf = true)
    (hadvance : ∀ port u, advance { s with port := port } = .next u → IssuesOnly P s u)
    (hexec : ∀ port i u, exec i { s with port := port } = .next u → IssuesOnly P s u) (hs : step s = .next t) :
    IssuesOnly P s t := by
  rcases step_cases hwf with ⟨_, e⟩ | ⟨rest, _, e⟩ | ⟨rest, _, e⟩ | ⟨_, _, _, _, e⟩ | ⟨_, rest, _, _, _, e⟩
    | ⟨_, rest, _, _, _, _, _, e⟩ | ⟨_, rest, i, _, _, _, _, e⟩ | ⟨k, rest, hp, e⟩ <;> rw [e] at hs
  · exact hadvance s.port t hs
  · exact hadvance rest t hs
  · cases hs
    exact .of_events_eq rfl
  · exact hadvance s.port t hs
  · cases hs
    exact .of_events_eq rfl
  · cases hs
    exact .of_events_eq rfl
  · exact hexec rest i t hs
  · obtain ⟨u, hu, rfl⟩ := resetDuring_next hs
    have hwhole : IssuesOnly P s u := step_issuesOnly (s := { s with port := rest }) hwf hadvance hexec hu
    exact hwhole.cutByReset (step_accesses (s := { s with port := rest }) hwf hu).of_port k
termination_by s.port.length
decreasing_by simp [hp]

/-- Settles O55: in sync ACTIVE names the presented buffer, and no access but a pixel's, in the draw buffer, is in a frame. -/
theorem presentedBufferIsNeverTouched : Obligations.PresentedBufferIsNeverTouched := by
  intro s m hinv hsync hm h3
  rw [hsync.presented_eq hm h3, ← drawBase_eq h3]
  refine ⟨fun i t h => ?_, fun t ht => ?_⟩
  · rcases h with ⟨hi, he⟩ | ⟨hseq, ha⟩
    · exact exec_inDrawBuffer hinv.configured hm hi he
    · exact advance_inDrawBuffer hinv hm hseq ha
  · exact step_issuesOnly hinv.configured
      (fun port _ ha => advance_avoidsActive (s := { s with port := port }) (port_inv hinv port) hm h3 ha)
      (fun port _ _ he => exec_avoidsActive (s := { s with port := port }) hinv.configured hm h3 he) ht

end Sys2Proof.Machine
end

section
/-! The traps of the video commands (spec/42_video_mode.md R160 to R162, R166, R168, R173 to R176): the value of each failing
check, and the commands whose first failing check it is. -/

namespace Sys2Proof.Machine

/-! ### A command whose check fails -/

section
variable {i : Instr} {op : Op} {s : State}

/-- A guarded command with a failing check takes its trap, under the OPC of its row. -/
theorem traps_of_guarded {checks : Option Trap} {effect : State} {opc : Byte} {c : Cause} {info : Word}
    (he : exec i s = guarded op checks effect s) (hop : op.opc = opc) (hc : checks = some ⟨c, info⟩) :
    ∃ t, exec i s = .next t ∧ Traps opc c info s t :=
  ⟨_, he.trans (guarded_trap hc _ _), hop ▸ takeTrap_traps s op.opc ⟨c, info⟩⟩

theorem opc_eq_opcOf {slot : Fin 16} {sh : Fin 32} {arg : Byte} (h : (encode i).h = header op slot sh arg) :
    op.opc = opcOf i :=
  (opcOf_header h).symm

theorem traps_of_noMode {rest : VideoMode → Result} {opc : Byte} (he : exec i s = withMode op s rest) (hop : op.opc = opc)
    (hm : s.mode = none) : ∃ t, exec i s = .next t ∧ Traps opc .badState (stateWord s) s t := by
  rw [← stw_eq_stateWord]
  exact ⟨_, he.trans (withMode_none hm _), hop ▸ takeTrap_traps s op.opc ⟨.badState, stw s⟩⟩

end

/-! ### The failing checks -/

theorem checkZero_of_ne {hi : Half} (h : hi ≠ 0) (word : Word) : checkZero (hi == 0) word = some ⟨.badValue, word⟩ :=
  require_eq_some.2 ⟨beq_eq_false_iff_ne.2 h, rfl⟩

theorem checkZero_zero (word : Word) : checkZero ((0 : Half) == 0) word = none := rfl

theorem checkIndex_eq_none {m : VideoMode} {c : Half} (h : m = .m4 → c.toNat < 256) (word : Word) :
    require (decide (m ≠ .m4) || decide (c.toNat ≤ 0xFF)) .badValue word = none := by
  rw [require_eq_none, Bool.or_eq_true, decide_eq_true_eq, decide_eq_true_eq]
  by_cases h4 : m = .m4
  · exact .inr (Nat.le_of_lt_succ (h h4))
  · exact .inl h4

theorem checkIndex_of_ge {c : Half} (h : 256 ≤ c.toNat) (word : Word) :
    require (decide (VideoMode.m4 ≠ .m4) || decide (c.toNat ≤ 0xFF)) .badValue word = some ⟨.badValue, word⟩ :=
  require_eq_some.2 ⟨by simp [show 255 < c.toNat from h], rfl⟩

theorem checkCoord_of_not_inBounds {m : VideoMode} {x y : Half} (h : ¬ InBounds m x y) :
    checkCoord m x y = some ⟨.coordOob, coordWord x y⟩ :=
  require_eq_some.2 ⟨by simpa [InBounds] using h, rfl⟩

theorem checkPalette_of_ge {k : Word} (h : 256 ≤ k.toNat) : checkPalette k = some ⟨.paletteOob, k⟩ :=
  require_eq_some.2 ⟨by simpa using h, rfl⟩

/-- The construction checks report the first odd base (R162). -/
theorem checkRegions_first_odd {before after : List Region} {g : Region} (hbefore : ∀ g' ∈ before, g'.base % 2 = 0)
    (hg : g.base % 2 = 1) :
    checkRegions (before ++ g :: after) = some ⟨.misalignedRegion, BitVec.ofNat 32 g.base⟩ := by
  induction before with
  | nil =>
    have hodd : require (regionAligned g) .misalignedRegion (BitVec.ofNat 32 g.base)
        = some ⟨.misalignedRegion, BitVec.ofNat 32 g.base⟩ := require_eq_some.2 ⟨by simp [regionAligned, hg], rfl⟩
    rw [List.nil_append, checkRegions, hodd, Option.some_or]
  | cons g' rest ih =>
    obtain ⟨heven, hrest⟩ := List.forall_mem_cons.1 hbefore
    have hpass : require (regionAligned g') .misalignedRegion (BitVec.ofNat 32 g'.base) = none :=
      require_eq_none.2 (by simp [regionAligned, heven])
    rw [List.cons_append, checkRegions, hpass, Option.none_or, ih hrest]

/-! ### Construction -/

theorem exec_constructChecksTrap {i : Instr} {m : VideoMode} (hi : i = .vmConstruct m ∨ i = .gfxSwitch m) (s : State) :
    ConstructChecksTrap s i m := by
  intro before g after hsplit hbefore hg
  have hc : checkRegions (regionsOf s.cfg m) = some ⟨.misalignedRegion, BitVec.ofNat 32 g.base⟩ := by
    rw [hsplit]
    exact checkRegions_first_odd hbefore hg
  rcases hi with rfl | rfl
  · exact traps_of_guarded rfl (opc_eq_opcOf rfl) hc
  · exact traps_of_guarded rfl (opc_eq_opcOf rfl) hc

/-- Settles O12: the first odd base in the order of R160, mode by mode. -/
theorem misalignedRegionTraps : Obligations.MisalignedRegionTraps := by
  refine ⟨fun m => checkRegions_eq_none.1 (by cases m <;> decide), fun s m i hi => ?_⟩
  have first := exec_constructChecksTrap hi s
  refine ⟨fun hA => ?_, fun hA hB h3 => ?_, fun hA hB hpal h4 => ?_⟩
  · cases m <;> exact first [] _ _ rfl nofun hA
  · cases m with
    | m3 => exact absurd rfl h3
    | m4 => exact first [rgnM4A s.cfg] _ _ rfl (List.forall_mem_singleton.2 hA) hB
    | m5 => exact first [rgnM5A s.cfg] _ _ rfl (List.forall_mem_singleton.2 hA) hB
  · subst h4
    exact first [rgnM4A s.cfg, rgnM4B s.cfg] _ _ rfl
      (List.forall_mem_cons.2 ⟨hA, List.forall_mem_singleton.2 hB⟩) hpal

/-- Settles O11: the construction checks, then the mode alone changes; a Disabled mode is not in sync. -/
theorem vmConstructMakesDisabledMode : Obligations.VmConstructMakesDisabledMode := fun s m =>
  ⟨exec_constructChecksTrap (.inl rfl) s, fun ha =>
    ⟨respond (constructBody s m) 0, guarded_pass (checkRegions_eq_none.2 ha) _ _, rfl, rfl, rfl, nofun, rfl, fun _ => rfl,
      ⟨rfl, rfl, rfl⟩, ⟨rfl, rfl, rfl, rfl⟩, fun _ => rfl, ⟨rfl, rfl, rfl⟩, ⟨rfl, rfl⟩, (List.append_nil _).symm⟩⟩

/-! ### BAD_STATE -/

/-- A command that needs a mode traps when there is none. -/
theorem badState_of_noMode {s : State} {i : Instr} (hi : needsMode i = true) (hm : s.mode = none) :
    ∃ t, exec i s = .next t ∧ Traps (opcOf i) .badState (stateWord s) s t := by
  cases i with
  | vmEnable | vmSet | vmGet | vmSwap | vmClear | vmBounds | vmSetpal | vmGetpal | vmSwapv =>
    exact traps_of_noMode rfl (opc_eq_opcOf rfl) hm
  | regRead | regWrite | regZero | regSet | regAnd | regOr | regClear | regGetb | regSetb | regGetm | regSetm | vmConstruct
  | vmVsync | gfxSwitch | colRgb => cases hi

section
variable {s : State} {m : VideoMode}

/-- VM.ENABLE needs a Disabled mode (R164). -/
theorem vmEnable_badState (hm : s.mode = some m) (hen : s.en = true) :
    ∃ t, exec .vmEnable s = .next t ∧ Traps (opcOf .vmEnable) .badState (stateWord s) s t := by
  rw [← stw_eq_stateWord]
  exact traps_of_guarded (withMode_of_mode hm _) (opc_eq_opcOf rfl) (require_eq_some.2 ⟨by simp [hen], rfl⟩)

/-- VM.SWAP of a double-buffered mode needs it Enabled (R171). -/
theorem vmSwap_badState (hm : s.mode = some m) (h3 : m ≠ .m3) (hen : s.en = false) :
    ∃ t, exec .vmSwap s = .next t ∧ Traps (opcOf .vmSwap) .badState (stateWord s) s t := by
  rw [← stw_eq_stateWord]
  exact traps_of_guarded ((withMode_of_mode hm _).trans (if_neg h3)) (opc_eq_opcOf rfl) (require_eq_some.2 ⟨hen, rfl⟩)

/-- VM.SWAPV of a double-buffered mode needs it Enabled (R178). -/
theorem vmSwapv_badState (hm : s.mode = some m) (h3 : m ≠ .m3) (hen : s.en = false) :
    ∃ t, exec .vmSwapv s = .next t ∧ Traps (opcOf .vmSwapv) .badState (stateWord s) s t := by
  rw [← stw_eq_stateWord]
  exact traps_of_guarded (withMode_of_mode hm _) (opc_eq_opcOf rfl) (require_eq_some.2 ⟨by simp [h3, hen], rfl⟩)

end

/-- A mode with two buffers is one that is not Mode3 (R29). -/
theorem mode_of_m4_or_m5 {s : State} (h : s.mode = some .m4 ∨ s.mode = some .m5) : ∃ m, s.mode = some m ∧ m ≠ .m3 := by
  rcases h with h | h
  · exact ⟨_, h, nofun⟩
  · exact ⟨_, h, nofun⟩

/-- Settles O15: no mode, a mode already Enabled, a swap of a Disabled mode. -/
theorem badStateTraps : Obligations.BadStateTraps := by
  rintro s i (⟨hi, hm⟩ | ⟨rfl, hm, hen⟩ | ⟨hi, hm, hen⟩)
  · exact badState_of_noMode hi hm
  · obtain ⟨m, hm⟩ := Option.ne_none_iff_exists'.1 hm
    exact vmEnable_badState hm hen
  · obtain ⟨m, hm, h3⟩ := mode_of_m4_or_m5 hm
    rcases hi with rfl | rfl
    · exact vmSwap_badState hm h3 hen
    · exact vmSwapv_badState hm h3 hen

/-! ### Operands -/

/-- Settles O19: the checks of VM.SET and VM.GET behind the mode, each with those before it passed. -/
theorem pixelOperandsTrap : Obligations.PixelOperandsTrap := by
  intro s m x y c hi hm
  refine ⟨fun hval => ?_, fun hz hc hb => ?_, fun hb => ?_⟩
  · refine traps_of_guarded (withMode_of_mode hm _) rfl ?_
    by_cases hz : hi = 0
    · obtain ⟨rfl, hc⟩ := hval.resolve_left (not_not.2 hz)
      rw [hz, checkZero_zero, Option.none_or, checkIndex_of_ge hc, Option.some_or, colourWord]
    · rw [checkZero_of_ne hz, Option.some_or, colourWord]
  · subst hz
    refine traps_of_guarded (withMode_of_mode hm _) rfl ?_
    rw [checkZero_zero, Option.none_or, checkIndex_eq_none hc, Option.none_or, checkCoord_of_not_inBounds hb, Option.some_or,
      coordWord]
  · refine traps_of_guarded (withMode_of_mode hm _) rfl ?_
    rw [checkCoord_of_not_inBounds hb, Option.some_or, coordWord]

theorem checkPaletteMode_of_ne {m : VideoMode} (h : m ≠ .m4) (info : Word) :
    require (decide (m = .m4)) .notPaletteMode info = some ⟨.notPaletteMode, info⟩ :=
  require_eq_some.2 ⟨by simpa using h, rfl⟩

theorem checkPaletteMode_m4 (info : Word) : require (decide (VideoMode.m4 = .m4)) .notPaletteMode info = none := rfl

/-- Settles O26: the checks of the palette commands behind the mode, each with those before it passed. -/
theorem paletteOperandsTrap : Obligations.PaletteOperandsTrap := by
  intro s m k c hi hm
  rw [← stw_eq_stateWord]
  refine ⟨fun h4 => ⟨?_, ?_⟩, fun h4 hz => ?_, fun h4 hk => ⟨fun hz => ?_, ?_⟩⟩
  · refine traps_of_guarded (withMode_of_mode hm _) rfl ?_
    rw [checkPaletteMode_of_ne h4, Option.some_or]
  · refine traps_of_guarded (withMode_of_mode hm _) rfl ?_
    rw [checkPaletteMode_of_ne h4, Option.some_or]
  · subst h4
    refine traps_of_guarded (withMode_of_mode hm _) rfl ?_
    rw [checkPaletteMode_m4, Option.none_or, checkZero_of_ne hz, Option.some_or, colourWord]
  · subst h4 hz
    refine traps_of_guarded (withMode_of_mode hm _) rfl ?_
    rw [checkPaletteMode_m4, Option.none_or, checkZero_zero, Option.none_or, checkPalette_of_ge hk, Option.some_or]
  · subst h4
    refine traps_of_guarded (withMode_of_mode hm _) rfl ?_
    rw [checkPaletteMode_m4, Option.none_or, checkPalette_of_ge hk, Option.some_or]

/-! ### Commands that only answer -/

theorem packBounds_toNat (m : VideoMode) : (packBounds m).toNat = bpp m * 2 ^ 24 + ht m * 2 ^ 12 + wd m := by
  cases m <;> decide

/-- Settles O24: BAD_STATE without a mode, else the packed numbers of the mode as an answer. -/
theorem vmBoundsPacksGeometry : Obligations.VmBoundsPacksGeometry := by
  refine ⟨fun s hm => badState_of_noMode rfl hm, fun s m hm => ?_⟩
  refine ⟨_, packBounds m, withMode_of_mode hm _, rfl, respond_frame s _, (packBounds_toNat m).trans ?_⟩
  cases m <;> rfl

/-- Settles O22: in Mode3 VM.SWAP only answers, whatever EN is. -/
theorem vmSwapIsNoOpInMode3 : Obligations.VmSwapIsNoOpInMode3 := fun s hm =>
  ⟨respond s 0, (withMode_of_mode hm _).trans (if_pos rfl), rfl, respond_frame s 0⟩

end Sys2Proof.Machine
end

section
/-! Pixels (spec/42_video_mode.md R165 to R169, R179): what SetPixel and GetPixel make of the cell they access, and VM.SET,
VM.GET and the palette commands with every check passed. -/

namespace Sys2Proof.Machine

/-! ### The bytes of a cell -/

theorem append_bytes_toNat (h l : Byte) : (h ++ l : BitVec 16).toNat = h.toNat * 256 + l.toNat := by
  rw [BitVec.toNat_append, ← Nat.shiftLeft_add_eq_or_of_lt l.isLt, Nat.shiftLeft_eq]

theorem lowByte_toNat (v : Half) : (v.extractLsb' 0 8).toNat = v.toNat % 256 := by
  rw [BitVec.extractLsb'_toNat]
  rfl

theorem highByte_toNat (v : Half) : (v.extractLsb' 8 8).toNat = v.toNat / 256 := by
  have hv := v.isLt
  rw [BitVec.extractLsb'_toNat, Nat.shiftRight_eq_div_pow]
  omega

theorem and_highByte (v : Half) : v &&& 0xFF00 = v.extractLsb' 8 8 ++ 0#8 := by
  calc v &&& 0xFF00 = (v.extractLsb' 8 8 ++ v.extractLsb' 0 8) &&& (0xFF#8 ++ 0#8) := by
        rw [halves_of_bytes]
        rfl
    _ = v.extractLsb' 8 8 ++ 0#8 := by
        rw [BitVec.and_append, BitVec.and_zero]
        exact congrArg (· ++ 0#8) BitVec.and_allOnes

theorem and_lowByte (v : Half) : v &&& 0x00FF = 0#8 ++ v.extractLsb' 0 8 := by
  calc v &&& 0x00FF = (v.extractLsb' 8 8 ++ v.extractLsb' 0 8) &&& (0#8 ++ 0xFF#8) := by
        rw [halves_of_bytes]
        rfl
    _ = 0#8 ++ v.extractLsb' 0 8 := by
        rw [BitVec.and_append, BitVec.and_zero]
        exact congrArg (0#8 ++ ·) BitVec.and_allOnes

/-- An index of Mode4 is a byte with nothing above it. -/
theorem index_eq_lowByte {c : Half} (hc : c.toNat < 256) : c = 0#8 ++ c.extractLsb' 0 8 := by
  apply BitVec.eq_of_toNat_eq
  rw [append_bytes_toNat, lowByte_toNat]
  simp [Nat.mod_eq_of_lt hc]

/-- Mode4: an even pixel is the low byte of its cell, an odd one the high byte (R167). -/
theorem replacePixel_bytes {c : Half} (hc : c.toNat < 256) (p : Nat) (cell : Half) :
    replacePixel p cell c =
      if p % 2 = 0 then cell.extractLsb' 8 8 ++ c.extractLsb' 0 8 else c.extractLsb' 0 8 ++ cell.extractLsb' 0 8 := by
  unfold replacePixel
  split
  · rw [and_highByte]
    nth_rw 1 [index_eq_lowByte hc]
    rw [BitVec.or_append, BitVec.or_zero, BitVec.zero_or]
  · have hshift : c <<< 8 = c.extractLsb' 0 8 ++ 0#8 := by
      apply BitVec.eq_of_toNat_eq
      rw [append_bytes_toNat, lowByte_toNat, BitVec.toNat_shiftLeft, Nat.shiftLeft_eq]
      simp
      omega
    rw [and_lowByte, hshift, BitVec.or_append, BitVec.or_zero, BitVec.zero_or]

theorem replacePixel_toNat {c : Half} (hc : c.toNat < 256) (p : Nat) (cell : Half) :
    (replacePixel p cell c).toNat =
      if p % 2 = 0 then cell.toNat / 256 * 256 + c.toNat else c.toNat * 256 + cell.toNat % 256 := by
  rw [replacePixel_bytes hc]
  split <;> simp only [append_bytes_toNat, highByte_toNat, lowByte_toNat, Nat.mod_eq_of_lt hc]

/-- The pixel whose byte was replaced reads as the index. -/
theorem pixelOfCell_replacePixel {c : Half} (hc : c.toNat < 256) (p : Nat) (cell : Half) :
    pixelOfCell p (replacePixel p cell c) = c := by
  apply BitVec.eq_of_toNat_eq
  rw [pixelOfCell_toNat, replacePixel_toNat hc]
  split <;> omega

/-- The other pixel of the cell reads as before. -/
theorem pixelOfCell_replacePixel_sibling {c : Half} (hc : c.toNat < 256) {p q : Nat} (hpq : q % 2 ≠ p % 2) (cell : Half) :
    pixelOfCell q (replacePixel p cell c) = pixelOfCell q cell := by
  have hcell := cell.isLt
  apply BitVec.eq_of_toNat_eq
  rw [pixelOfCell_toNat, pixelOfCell_toNat, replacePixel_toNat hc]
  split_ifs <;> omega

/-! ### SetPixel and GetPixel -/

/-- The cell with the pixel set: what SetPixel stores, from the cell as loaded (R167). -/
def cellWith (m : VideoMode) (x y : Nat) (cell c : Half) : Half :=
  match m with
  | .m3 => c
  | .m4 => replacePixel (x + y * 240) cell c
  | .m5 => c

/-- The pixel of its cell: what GetPixel answers, from the cell as loaded (R167). -/
def pixelOf (m : VideoMode) (x y : Nat) (cell : Half) : Half :=
  match m with
  | .m3 => cell
  | .m4 => pixelOfCell (x + y * 240) cell
  | .m5 => cell

section
variable {s t : State} {m : VideoMode} {x y : Nat} {c : Half}

theorem cellWith_direct (h4 : m ≠ .m4) (cell : Half) : cellWith m x y cell c = c := by
  cases m with
  | m3 => rfl
  | m4 => exact absurd rfl h4
  | m5 => rfl

theorem pixelOf_direct (h4 : m ≠ .m4) (cell : Half) : pixelOf m x y cell = cell := by
  cases m with
  | m3 => rfl
  | m4 => exact absurd rfl h4
  | m5 => rfl

theorem pixelOf_cellWith (hc : m = .m4 → c.toNat < 256) (cell : Half) : pixelOf m x y (cellWith m x y cell c) = c := by
  cases m with
  | m3 => rfl
  | m4 => exact pixelOfCell_replacePixel (hc rfl) _ _
  | m5 => rfl

theorem getPixel_eq : getPixel s m x y = pixelOf m x y (lowHalf (busValue s .w16 (cellAddr s m x y))) := by
  rw [← elementAddr_pixelCell]
  cases m <;> rfl

/-- SetPixel stores the cell with the pixel set. -/
theorem setPixel_read16 :
    (setPixel s m x y c).mem.read16 (cellAddr s m x y)
      = cellWith m x y (lowHalf (busValue s .w16 (cellAddr s m x y))) c := by
  by_cases h4 : m = .m4
  · subst h4
    rw [setPixel_mode4]
    exact memWrite_read16 _ _
  · rw [setPixel_direct h4, cellWith_direct h4]
    exact memWrite_read16 _ _

theorem setPixel_frame : KeepsMemoryBut (cellAddr s m x y) 2 s (setPixel s m x y c) := by
  by_cases h4 : m = .m4
  · subst h4
    rw [setPixel_mode4]
    exact memWrite_frame (s := memRead s .w16 (cellAddr s .m4 x y)) .w16 _ _
  · rw [setPixel_direct h4]
    exact memWrite_frame .w16 _ _

theorem setPixel_issues_direct (h4 : m ≠ .m4) :
    Issues s (setPixel s m x y c) [.store (cellAddr s m x y) .w16 (zext c)] := by
  rw [setPixel_direct h4, Issues, memWrite_events, trunc_zext]

theorem setPixel_answers_direct (h4 : m ≠ .m4) : KeepsAnswers s (setPixel s m x y c) := by
  rw [setPixel_direct h4]
  exact ⟨rfl, rfl⟩

theorem setPixel_issues_mode4 :
    Issues s (setPixel s .m4 x y c) [.load (cellAddr s .m4 x y) .w16 (busValue s .w16 (cellAddr s .m4 x y)),
      .store (cellAddr s .m4 x y) .w16
        (zext (replacePixel (x + y * 240) (lowHalf (busValue s .w16 (cellAddr s .m4 x y))) c))] := by
  rw [setPixel_mode4, Issues, memWrite_events, memRead_events, trunc_zext, List.append_assoc]
  rfl

/-- A pixel changes memory, the history and the answers, and nothing else. -/
theorem setPixel_keeps :
    KeepsHeld s (setPixel s m x y c) ∧ KeepsVideo s (setPixel s m x y c) ∧ KeepsSequencer s (setPixel s m x y c)
      ∧ KeepsFault s (setPixel s m x y c) ∧ KeepsOutside s (setPixel s m x y c) := by
  cases m <;>
    exact ⟨fun _ => rfl, ⟨rfl, rfl, rfl⟩, ⟨rfl, rfl, rfl⟩, ⟨rfl, rfl, rfl, rfl⟩, ⟨rfl, rfl, rfl⟩⟩

theorem setPixel_responses : (setPixel s m x y c).responses = s.responses := by cases m <;> rfl

/-- Under Quiet GetPixel reads the cell in memory (R73). -/
theorem getPixel_quiet (hwf : s.cfg.wf = true) (hq : Quiet s) (hx : x < wd m) (hy : y < ht m) :
    getPixel s m x y = pixelOf m x y (s.mem.read16 (cellAddr s m x y)) := by
  rw [getPixel_eq, busValue_quiet hq (cellAddr_apart hwf hx hy).1, lowHalf_zext]

end

/-! ### VM.SET and VM.GET -/

section
variable {s : State} {m : VideoMode} {x y c : Half}

theorem exec_vmSet (hm : s.mode = some m) (hb : InBounds m x y) (hc : m = .m4 → c.toNat < 256) :
    exec (.vmSet x y c 0) s = .next (respond (setPixel s m x.toNat y.toNat c) 0) := by
  refine (withMode_of_mode hm _).trans (guarded_pass ?_ _ _)
  rw [checkZero_zero, Option.none_or, checkIndex_eq_none hc, Option.none_or, checkCoord_eq_none.2 hb, Option.none_or,
    checkPixel_eq_none hb.1 hb.2]

theorem exec_vmGet (hm : s.mode = some m) (hb : InBounds m x y) :
    exec (.vmGet x y) s =
      .next (respond (memRead s .w16 (cellAddr s m x.toNat y.toNat)) (zext (getPixel s m x.toNat y.toNat))) := by
  rw [← elementAddr_pixelCell]
  refine (withMode_of_mode hm _).trans (guarded_pass ?_ _ _)
  rw [checkCoord_eq_none.2 hb, Option.none_or, checkPixel_eq_none hb.1 hb.2]

end

/-- A store that completes a command: the word, its event, and everything else as before. -/
theorem store_result (s : State) (a : Nat) (v : Half) :
    (respond (memWrite s .w16 a (zext v)) 0).mem.read16 a = v
      ∧ KeepsMemoryBut a 2 s (respond (memWrite s .w16 a (zext v)) 0)
      ∧ Issues s (respond (memWrite s .w16 a (zext v)) 0) [.store a .w16 (zext v)]
      ∧ RespondsOk s (respond (memWrite s .w16 a (zext v)) 0) 0
      ∧ KeepsHeld s (respond (memWrite s .w16 a (zext v)) 0) ∧ KeepsVideo s (respond (memWrite s .w16 a (zext v)) 0)
      ∧ KeepsSequencer s (respond (memWrite s .w16 a (zext v)) 0) ∧ KeepsFault s (respond (memWrite s .w16 a (zext v)) 0)
      ∧ KeepsOutside s (respond (memWrite s .w16 a (zext v)) 0)
      ∧ KeepsAnswers s (respond (memWrite s .w16 a (zext v)) 0) := by
  refine ⟨memWrite_read16 a v, memWrite_frame (s := s) .w16 a _, ?_, rfl, fun _ => rfl, ⟨rfl, rfl, rfl⟩, ⟨rfl, rfl, rfl⟩,
    ⟨rfl, rfl, rfl, rfl⟩, ⟨rfl, rfl, rfl⟩, ⟨rfl, rfl⟩⟩
  rw [Issues, respond_events, memWrite_events, trunc_zext]

/-- Settles O16: outside Mode4 the cell is the pixel, and SetPixel is one store of it. -/
theorem vmSetStoresColour : Obligations.VmSetStoresColour := fun s m x y c hm h4 hb _ => by
  have he := exec_vmSet (c := c) hm hb fun h => absurd h h4
  rw [setPixel_direct h4] at he
  exact ⟨_, he, store_result s _ c⟩

/-- A 2-byte load answers a 16-bit value. -/
theorem busValue_half (s : State) (a : Nat) :
    ∃ cell, zext cell = busValue s .w16 a ∧ lowHalf (busValue s .w16 a) = cell :=
  ⟨_, zext_lowHalf (busValue_fits s .w16 a), rfl⟩

/-- Settles O17: the cell as loaded, its byte of the pixel's parity replaced, by numbers. -/
theorem vmSetReplacesMode4Byte : Obligations.VmSetReplacesMode4Byte := fun s x y c hm hb hc _ => by
  obtain ⟨hheld, hvideo, hseq, hfault, hout⟩ := setPixel_keeps (s := s) (m := .m4) (x := x.toNat) (y := y.toNat) (c := c)
  have hstored := setPixel_read16 (s := s) (m := .m4) (x := x.toNat) (y := y.toNat) (c := c)
  have hissues := setPixel_issues_mode4 (s := s) (x := x.toNat) (y := y.toNat) (c := c)
  obtain ⟨cell, hcell, hlow⟩ := busValue_half s (cellAddr s .m4 x.toNat y.toNat)
  rw [hlow] at hstored hissues
  rw [← hcell] at hissues
  have hnew := replacePixel_toNat hc (x.toNat + y.toNat * 240) cell
  have hlt := cell.isLt
  refine ⟨_, cell, replacePixel (x.toNat + y.toNat * 240) cell c, exec_vmSet hm hb fun _ => hc, hcell, fun hpar => ?_,
    fun hpar => ?_, hstored, setPixel_frame (s := s), hissues, ?_, hheld, hvideo, hseq, hfault, hout⟩
  · rw [hnew, if_pos (by omega)]
    omega
  · rw [hnew, if_neg (by omega)]
    omega
  · rw [RespondsOk, respond_responses, setPixel_responses]

/-- Settles O18: one load of the cell, and the pixel of it as the answer. -/
theorem vmGetReadsDrawBuffer : Obligations.VmGetReadsDrawBuffer := fun s m x y hm hb => by
  obtain ⟨cell, hcell, hlow⟩ := busValue_half s (cellAddr s m x.toNat y.toNat)
  refine ⟨_, cell, _, exec_vmGet hm hb, hcell, fun h4 => ?_, fun h4 => ?_,
    rfl, ?_, fun _ => rfl, ⟨rfl, rfl, rfl⟩, ⟨rfl, rfl, rfl⟩, ⟨rfl, rfl, rfl, rfl⟩, fun _ => rfl, ⟨rfl, rfl, rfl⟩⟩
  · rw [getPixel_eq, hlow, pixelOf_direct h4]
  · subst h4
    have hpar : (x.toNat + y.toNat * 240) % 2 = x.toNat % 2 := by omega
    rw [zext_toNat, getPixel_eq, hlow, pixelOf, pixelOfCell_toNat, hpar]
  · rw [hcell]
    rfl

/-! ### Set, then get (R179) -/

theorem siblingX_toNat (x : Half) : (siblingX x).toNat = if x.toNat % 2 = 0 then x.toNat + 1 else x.toNat - 1 := by
  rw [siblingX, BitVec.toNat_xor, show (1 : Half).toNat = 1 from rfl]
  split
  · next h => exact Nat.xor_one_of_even (Nat.even_iff.2 h)
  · next h => exact Nat.xor_one_of_odd (Nat.odd_iff.2 (by omega))

/-- The sibling of a pixel is in bounds, of the other parity, and in the same cell (R179). -/
theorem sibling_cell {s : State} {x y : Half} (hb : InBounds .m4 x y) :
    InBounds .m4 (siblingX x) y ∧ (siblingX x).toNat % 2 ≠ x.toNat % 2
      ∧ cellAddr s .m4 (siblingX x).toNat y.toNat = cellAddr s .m4 x.toNat y.toNat := by
  obtain ⟨hx, hy⟩ := hb
  have hsib := siblingX_toNat x
  simp only [wd] at hx
  simp only [InBounds, wd, cellAddr]
  split at hsib <;> exact ⟨⟨by omega, hy⟩, by omega, by omega⟩

/-- A state with the pixel's cell of SetPixel in memory answers the pixel (R179), where the draw buffer is the same. -/
theorem getPixel_of_cell {s t : State} {m : VideoMode} {x y : Nat} {c cell : Half} (hwf : t.cfg.wf = true) (hq : Quiet t)
    (hx : x < wd m) (hy : y < ht m) (hc : m = .m4 → c.toNat < 256) (haddr : cellAddr t m x y = cellAddr s m x y)
    (hread : t.mem.read16 (cellAddr s m x y) = cellWith m x y cell c) : getPixel t m x y = c := by
  rw [getPixel_quiet hwf hq hx hy, haddr, hread, pixelOf_cellWith hc]

/-- VM.SET with every check passed: the cell, the frame of its store, and what says where the draw buffer is. -/
theorem vmSet_result {s : State} {m : VideoMode} {x y c : Half} (hm : s.mode = some m) (hb : InBounds m x y)
    (hc : m = .m4 → c.toNat < 256) :
    ∃ t, exec (.vmSet x y c 0) s = .next t
      ∧ t.mem.read16 (cellAddr s m x.toNat y.toNat)
          = cellWith m x.toNat y.toNat (lowHalf (busValue s .w16 (cellAddr s m x.toNat y.toNat))) c
      ∧ KeepsMemoryBut (cellAddr s m x.toNat y.toNat) 2 s t ∧ KeepsVideo s t ∧ KeepsOutside s t := by
  obtain ⟨-, hvideo, -, -, hout⟩ := setPixel_keeps (s := s) (m := m) (x := x.toNat) (y := y.toNat) (c := c)
  exact ⟨_, exec_vmSet hm hb hc, setPixel_read16, setPixel_frame (s := s), hvideo, hout⟩

/-- Settles O20: the cell VM.SET stored is the one VM.GET loads, and its other byte is the one loaded before. -/
theorem setThenGetReturnsPixel : Obligations.SetThenGetReturnsPixel := by
  intro s m x y c hwf _ hq hm hb hc
  obtain ⟨t, hset, hread, -, ⟨hmode, -, hactive⟩, ⟨hcfg, -, hquiet⟩⟩ := vmSet_result hm hb hc
  have htm : t.mode = some m := hmode.trans hm
  have htq : Quiet t := hquiet.trans hq
  have htwf : t.cfg.wf = true := hcfg ▸ hwf
  have haddr := fun x' => cellAddr_congr hcfg hactive m x' y.toNat
  refine ⟨t, _, hset, exec_vmGet htm hb, ?_, fun h4 => ?_⟩
  · rw [getPixel_of_cell htwf htq hb.1 hb.2 hc (haddr _) hread]
    rfl
  · subst h4
    obtain ⟨hsib, hpar, hcell⟩ := sibling_cell (s := s) hb
    refine ⟨_, _, _, exec_vmGet hm hsib, rfl, exec_vmGet htm hsib, ?_⟩
    rw [getPixel_quiet htwf htq hsib.1 hsib.2, getPixel_quiet hwf hq hsib.1 hsib.2, haddr, hcell, hread,
      busValue_quiet hq (cellAddr_apart hwf hb.1 hb.2).1, lowHalf_zext, pixelOf, cellWith,
      pixelOfCell_replacePixel_sibling (hc rfl) (by omega)]
    rfl

/-! ### The palette -/

section
variable {s : State} {k : Word}

theorem checkRegion_palette {cfg : Cfg} (hk : k.toNat < 256) : checkRegion (rgnPal cfg) k.toNat = none :=
  require_eq_none.2 (decide_eq_true hk)

theorem exec_vmSetpal (hm : s.mode = some .m4) (hk : k.toNat < 256) (c : Half) :
    exec (.vmSetpal k c 0) s = .next (respond (memWrite s .w16 (s.cfg.palBase + 2 * k.toNat) (zext c)) 0) := by
  refine (withMode_of_mode hm _).trans (guarded_pass ?_ _ _)
  rw [checkPaletteMode_m4, Option.none_or, checkZero_zero, Option.none_or, checkPalette_eq_none.2 hk, Option.none_or,
    checkRegion_palette hk]

theorem exec_vmGetpal (hm : s.mode = some .m4) (hk : k.toNat < 256) :
    exec (.vmGetpal k) s =
      .next (respond (memRead s .w16 (s.cfg.palBase + 2 * k.toNat)) (busValue s .w16 (s.cfg.palBase + 2 * k.toNat))) := by
  rw [← zext_lowHalf (busValue_fits s .w16 (s.cfg.palBase + 2 * k.toNat))]
  refine (withMode_of_mode hm _).trans (guarded_pass ?_ _ _)
  rw [checkPaletteMode_m4, Option.none_or, checkPalette_eq_none.2 hk, Option.none_or, checkRegion_palette hk]

end

/-- Settles O25: the store and the load of the entry, behind the checks. -/
theorem paletteAccessesEntry : Obligations.PaletteAccessesEntry := fun s _ c hm hk _ =>
  ⟨⟨_, exec_vmSetpal hm hk c, store_result s _ c⟩,
    ⟨_, exec_vmGetpal hm hk, rfl, rfl, fun _ => rfl, ⟨rfl, rfl, rfl⟩, ⟨rfl, rfl, rfl⟩, ⟨rfl, rfl, rfl, rfl⟩, fun _ => rfl,
      ⟨rfl, rfl, rfl⟩⟩⟩

end Sys2Proof.Machine
end

section
/-! Enable and swap (spec/42_video_mode.md R164, R171, R180): the commands that store the display-control word, and what two
swaps do to a pixel. -/

namespace Sys2Proof.Machine

section
variable {s : State} {m : VideoMode}

theorem exec_vmEnable (hm : s.mode = some m) (hen : s.en = false) :
    exec .vmEnable s = .next (respond (enableBody s m) 0) :=
  (withMode_of_mode hm _).trans (guarded_pass (require_eq_none.2 (by simp [hen])) _ _)

theorem exec_vmSwap (hm : s.mode = some m) (h3 : m ≠ .m3) (hen : s.en = true) :
    exec .vmSwap s = .next (respond (swapBody s) 0) :=
  (withMode_of_mode hm _).trans ((if_neg h3).trans (guarded_pass (require_eq_none.2 hen) _ _))

end

/-- Settles O13: BAD_STATE of a mode that is missing or already Enabled, else the one store of the control word. -/
theorem vmEnableCommitsControlWord : Obligations.VmEnableCommitsControlWord := by
  refine ⟨fun s h => ?_, fun s m hwf _ hm hen => ?_⟩
  · rcases hm : s.mode with _ | m
    · exact badState_of_noMode rfl hm
    · exact vmEnable_badState hm (h.resolve_left (by simp [hm]))
  · have hword := zext_lowHalf (controlWord_fits s.cfg m s.active)
    refine ⟨_, lowHalf (controlWord s.cfg m s.active), exec_vmEnable hm hen, controlWord_isControlWord hwf m s.active, rfl,
      hm, rfl, ?_, enableBody_control s m, fun hrun => (enableBody_inSync hwf hm hrun).respond 0, ?_, rfl,
      memWrite_frame (s := setHeld s 0 _) .w16 _ _, fun k hk => heldAt_setHeld_other s hk _, ⟨rfl, rfl, rfl⟩,
      ⟨rfl, rfl, rfl, rfl⟩, ⟨rfl, rfl, rfl⟩, ⟨rfl, rfl⟩⟩
    · rw [hword]
      exact heldAt_setHeld_same s 0 _
    · rw [hword, Issues, respond_events, enableBody_events, trunc_of_fits (controlWord_fits _ _ _)]

/-- The two words of a swap (R171): `w` as loaded, and `w'`, which is `w` with the buffer-select bit of the new ACTIVE, held
and stored. -/
theorem swapBody_words (s : State) :
    ∃ w w', zext w = busValue s .w16 (s.cfg.addr 0)
      ∧ (∀ j, j < 16 → w'.getLsbD j = if j = s.cfg.bufselBit then activeBit (otherBuffer s.active) else w.getLsbD j)
      ∧ heldAt (swapBody s) 0 = zext w' ∧ controlInMemory (swapBody s) = w'
      ∧ Issues s (swapBody s) [.load (s.cfg.addr 0) .w16 (zext w), .store (s.cfg.addr 0) .w16 (zext w')] := by
  have hload := zext_lowHalf (busValue_fits s .w16 (s.cfg.addr 0))
  have hword := zext_lowHalf (swapWord_fits s)
  refine ⟨_, lowHalf (swapWord s), hload, fun j hj => swapWord_getLsbD s hj, ?_, swapBody_control s, ?_⟩
  · rw [hword]
    exact swapBody_heldAt_zero s
  · rw [hword, hload]
    exact swapBody_issues s

/-- Settles O21: the swap with every check passed, its two words, and everything else as before. -/
theorem vmSwapFlipsBitAndActive : Obligations.VmSwapFlipsBitAndActive := by
  intro s _ _ hm hen
  obtain ⟨m, hm, h3⟩ := mode_of_m4_or_m5 hm
  obtain ⟨w, w', hload, hbits, hheld, hcontrol, hissues⟩ := swapBody_words s
  exact ⟨_, w, w', exec_vmSwap hm h3 hen, hload, hbits, otherBuffer_ne s.active, rfl, rfl, hheld, hcontrol, hissues, rfl,
    swapBody_frame s, fun k hk => swapBody_heldAt_other s hk, ⟨rfl, rfl, rfl⟩, ⟨rfl, rfl, rfl, rfl⟩, ⟨rfl, rfl, rfl⟩⟩

/-! ### Two swaps -/

section
variable {s u : State} {m : VideoMode} {x y : Nat}

/-- A word apart from the bytes a step may change reads as before. -/
theorem KeepsMemoryBut.read16 {lo n b : Nat} (h : KeepsMemoryBut lo n s u) (hb : b + 2 ≤ lo ∨ lo + n ≤ b) :
    u.mem.read16 b = s.mem.read16 b := by
  simp only [Memory.read16, h b (by omega), h (b + 1) (by omega)]

/-- Under Quiet a pixel reads the same where its cell does, in the same draw buffer. -/
theorem getPixel_congr (hwf : s.cfg.wf = true) (hs : Quiet s) (hu : Quiet u) (hcfg : u.cfg = s.cfg)
    (hactive : u.active = s.active) (hx : x < wd m) (hy : y < ht m)
    (hread : u.mem.read16 (cellAddr s m x y) = s.mem.read16 (cellAddr s m x y)) :
    getPixel u m x y = getPixel s m x y := by
  rw [getPixel_quiet (hcfg ▸ hwf) hu hx hy, getPixel_quiet hwf hs hx hy, cellAddr_congr hcfg hactive, hread]

/-- The word a swap stores names the new ACTIVE, whatever it loaded (R171). -/
theorem swapBody_presented (hwf : s.cfg.wf = true) : presented (swapBody s) = otherBuffer s.active := by
  refine presented_of_bit (s := swapBody s) ?_
  rw [controlInMemory, swapBody_cfg, swapBody_control, swapWord_getLsbD s (control_bits_lt hwf).1, if_pos rfl]

/-- A swap leaves every pixel's cell alone, of either buffer. -/
theorem swapBody_read16_cell (hwf : s.cfg.wf = true) (hu : u.cfg = s.cfg) (hx : x < wd m) (hy : y < ht m) :
    (swapBody s).mem.read16 (cellAddr u m x y) = s.mem.read16 (cellAddr u m x y) := by
  have hapart := (cellAddr_apart (s := u) (hu ▸ hwf) hx hy).2
  rw [hu] at hapart
  exact (swapBody_frame s).read16 hapart.symm

/-- The cells of one pixel in the two buffers are apart (R6 (g)). -/
theorem cellAddr_other_apart (hwf : s.cfg.wf = true) (h3 : m ≠ .m3) (hcfg : u.cfg = s.cfg)
    (hactive : u.active = otherBuffer s.active) :
    cellAddr u m x y + 2 ≤ cellAddr s m x y ∨ cellAddr s m x y + 2 ≤ cellAddr u m x y := by
  have hb := frameB_bounds hwf
  cases m with
  | m3 => exact absurd rfl h3
  | m4 | m5 =>
    cases hs : s.active <;> simp only [cellAddr, drawBase, hcfg, hactive, hs, bufferBase, otherBuffer] <;> omega

end

/-- VM.SWAP with every check passed: the other buffer is drawn to and presented, and no pixel's cell changes. -/
theorem vmSwap_result {s : State} {m : VideoMode} (hwf : s.cfg.wf = true) (hm : s.mode = some m) (h3 : m ≠ .m3)
    (hen : s.en = true) :
    ∃ t, exec .vmSwap s = .next t ∧ t.mode = s.mode ∧ t.en = s.en ∧ t.active = otherBuffer s.active
      ∧ presented t = otherBuffer s.active ∧ KeepsOutside s t
      ∧ ∀ (u : State) (x y : Nat), u.cfg = s.cfg → x < wd m → y < ht m →
          t.mem.read16 (cellAddr u m x y) = s.mem.read16 (cellAddr u m x y) :=
  ⟨_, exec_vmSwap hm h3 hen, rfl, rfl, rfl, swapBody_presented hwf, ⟨rfl, rfl, rfl⟩,
    fun _ _ _ hu hx hy => swapBody_read16_cell hwf hu hx hy⟩

/-- Settles O23: each swap leaves the pixels alone and changes the buffer the commands draw to, and the buffer presented,
to the other one. -/
theorem twoSwapsRestoreBuffer : Obligations.TwoSwapsRestoreBuffer := by
  intro s m x y c hinv hq hsync hm h3 hb hc
  obtain ⟨hx, hy⟩ := id hb
  have hwf := hinv.configured
  have hpresented := hsync.presented_eq hm h3
  obtain ⟨hen, -⟩ := hsync
  obtain ⟨s1, he1, hread1, hframe1, ⟨hmode1, hen1, hactive1⟩, ⟨hcfg1, -, hquiet1⟩⟩ := vmSet_result hm hb hc
  have hwf1 : s1.cfg.wf = true := hcfg1 ▸ hwf
  obtain ⟨s2, he2, hmode2, hen2, hactive2, hpresented2, ⟨hcfg2, -, hquiet2⟩, hcells2⟩ :=
    vmSwap_result hwf1 (hmode1.trans hm) h3 (hen1.trans hen)
  have hwf2 : s2.cfg.wf = true := hcfg2 ▸ hwf1
  have hm2 : s2.mode = some m := hmode2.trans (hmode1.trans hm)
  have hq2 : Quiet s2 := hquiet2.trans (hquiet1.trans hq)
  obtain ⟨s3, he3, hmode3, -, hactive3, hpresented3, ⟨hcfg3, -, hquiet3⟩, hcells3⟩ :=
    vmSwap_result hwf2 hm2 h3 (hen2.trans (hen1.trans hen))
  rw [hactive1] at hactive2 hpresented2
  rw [hactive2, otherBuffer_otherBuffer] at hactive3 hpresented3
  have hcfg3s : s3.cfg = s.cfg := hcfg3.trans (hcfg2.trans hcfg1)
  -- what the pixel reads as after the first swap: the other buffer's cell, which nothing has changed
  have hother : getPixel s2 m x.toNat y.toNat = getPixel { s with active := s2.active } m x.toNat y.toNat := by
    have hapart := cellAddr_other_apart (u := { s with active := s2.active }) (x := x.toNat) (y := y.toNat) hwf h3 rfl hactive2
    have hcell := (hcells2 { s with active := s2.active } _ _ hcfg1.symm hx hy).trans (hframe1.read16 hapart)
    exact getPixel_congr (s := { s with active := s2.active }) hwf hq hq2 (hcfg2.trans hcfg1) rfl hx hy hcell
  -- after the second swap: the cell VM.SET stored
  have hsame : getPixel s3 m x.toNat y.toNat = c :=
    getPixel_of_cell (hcfg3s ▸ hwf) (hquiet3.trans hq2) hx hy hc (cellAddr_congr hcfg3s hactive3 m _ _)
      ((hcells3 _ _ _ (hcfg2.trans hcfg1).symm hx hy).trans ((hcells2 _ _ _ hcfg1.symm hx hy).trans hread1))
  refine ⟨s1, s2, s3, _, _, _, he1, he2, he3, hactive3, hpresented3.trans hpresented.symm, ?_, ?_, exec_vmGet hm2 hb, rfl,
    ⟨_, exec_vmGet hm hb, ?_⟩, exec_vmGet (hmode3.trans hm2) hb, ?_⟩
  · rw [hactive2]
    exact otherBuffer_ne _
  · rw [hpresented2, hpresented]
    exact otherBuffer_ne _
  · rw [hother]
    rfl
  · rw [hsame]
    rfl

end Sys2Proof.Machine
end

section
/-! VM.CLEAR (spec/42_video_mode.md R172): one pixel a step in row-major order, and the whole clear as a run. -/

namespace Sys2Proof.Machine

/-! ### One step: the pixel -/

/-- After a pixel only SEQ, CX, CY and the responses may change. -/
theorem clearAdvance_changes (s : State) (m : VideoMode) :
    ∃ seq cx cy rs, clearAdvance s m = { s with seq := seq, cx := cx, cy := cy, responses := rs } := by
  unfold clearAdvance
  split
  · exact ⟨s.seq, s.cx + 1, s.cy, s.responses, rfl⟩
  · split
    · exact ⟨s.seq, 0, s.cy + 1, s.responses, rfl⟩
    · exact ⟨.idle, s.cx, s.cy, _, rfl⟩

/-- What a step of a clear does but for the sequencer and the response: SetPixel(x, y, 0) with its accesses (R167). -/
structure ClearsPixel (m : VideoMode) (x y : Nat) (s t : State) : Prop where
  cell : t.mem.read16 (cellAddr s m x y) = cellWith m x y (lowHalf (busValue s .w16 (cellAddr s m x y))) 0
  memory : KeepsMemoryBut (cellAddr s m x y) 2 s t
  direct : m ≠ .m4 → Issues s t [.store (cellAddr s m x y) .w16 0] ∧ KeepsAnswers s t
  mode4 : m = .m4 → Issues s t [.load (cellAddr s m x y) .w16 (busValue s .w16 (cellAddr s m x y)),
    .store (cellAddr s m x y) .w16 (zext (cellWith m x y (lowHalf (busValue s .w16 (cellAddr s m x y))) 0))]
  held : KeepsHeld s t
  video : KeepsVideo s t
  fault : KeepsFault s t
  outside : KeepsOutside s t

section
variable {s : State} {m : VideoMode}

theorem clearStep_clearsPixel (hx : s.cx.toNat < wd m) (hy : s.cy.toNat < ht m) :
    ClearsPixel m s.cx.toNat s.cy.toNat s (clearStep s m) := by
  obtain ⟨hheld, hvideo, -, hfault, hout⟩ :=
    setPixel_keeps (s := s) (m := m) (x := s.cx.toNat) (y := s.cy.toNat) (c := 0)
  rw [clearStep_of_bounds hx hy]
  obtain ⟨seq, cx, cy, rs, e⟩ := clearAdvance_changes (setPixel s m s.cx.toNat s.cy.toNat 0) m
  rw [e]
  exact {
    cell := setPixel_read16
    memory := setPixel_frame (s := s)
    direct := fun h4 => ⟨setPixel_issues_direct h4, setPixel_answers_direct h4⟩
    mode4 := fun h4 => by
      subst h4
      exact setPixel_issues_mode4
    held := hheld
    video := hvideo
    fault := hfault
    outside := hout }

/-- What a pixel does not depend on the sequencer. -/
theorem ClearsPixel.of_sequencer {x y : Nat} {t : State} {seq : Seq} {cx cy : BitVec 8}
    (h : ClearsPixel m x y { s with seq := seq, cx := cx, cy := cy } t) : ClearsPixel m x y s t :=
  ⟨h.cell, h.memory, h.direct, h.mode4, h.held, h.video, h.fault, h.outside⟩

/-! ### One step: the sequencer -/

/-- (CX, CY) is the next pixel of the row, the first of the next row, or the end of the command (R172). -/
theorem clearStep_sequencer (hseq : s.seq = .clearing) (hx : s.cx.toNat < wd m) (hy : s.cy.toNat < ht m) :
    (s.cx.toNat + 1 < wd m →
        (clearStep s m).seq = .clearing ∧ (clearStep s m).cx.toNat = s.cx.toNat + 1 ∧ (clearStep s m).cy = s.cy
          ∧ (clearStep s m).responses = s.responses)
    ∧ (s.cx.toNat + 1 = wd m → s.cy.toNat + 1 < ht m →
        (clearStep s m).seq = .clearing ∧ (clearStep s m).cx.toNat = 0 ∧ (clearStep s m).cy.toNat = s.cy.toNat + 1
          ∧ (clearStep s m).responses = s.responses)
    ∧ (s.cx.toNat + 1 = wd m → s.cy.toNat + 1 = ht m → (clearStep s m).seq = .idle ∧ RespondsOk s (clearStep s m) 0) := by
  have hw := wd_le m
  have hh := ht_le m
  obtain ⟨-, -, ⟨hseq', hcx, hcy⟩, -, -⟩ := setPixel_keeps (s := s) (m := m) (x := s.cx.toNat) (y := s.cy.toNat) (c := 0)
  have hrs := setPixel_responses (s := s) (m := m) (x := s.cx.toNat) (y := s.cy.toNat) (c := 0)
  rw [clearStep_of_bounds hx hy]
  unfold clearAdvance
  rw [hcx, hcy]
  refine ⟨fun hnext => ?_, fun hlast hnext => ?_, fun hlast hend => ?_⟩
  · rw [if_pos hnext]
    exact ⟨hseq'.trans hseq, counter_succ hnext (by omega), rfl, hrs⟩
  · rw [if_neg (by omega), if_pos hnext]
    exact ⟨hseq'.trans hseq, rfl, counter_succ hnext (by omega), hrs⟩
  · rw [if_neg (by omega), if_neg (by omega)]
    exact ⟨rfl, by rw [RespondsOk, finish_responses, hrs]⟩

theorem pixelIndex_lt {x y : Nat} (hx : x < wd m) (hy : y < ht m) : pixelIndex m x y < wd m * ht m := by
  cases m <;> simp only [pixelIndex, wd, ht] at hx hy ⊢ <;> omega

/-- In row-major order: the next pixel's index is one more, and the command ends after the last index. -/
theorem clearStep_index (hseq : s.seq = .clearing) (hx : s.cx.toNat < wd m) (hy : s.cy.toNat < ht m) :
    ((clearStep s m).seq = .clearing
        ∧ pixelIndex m (clearStep s m).cx.toNat (clearStep s m).cy.toNat = pixelIndex m s.cx.toNat s.cy.toNat + 1
        ∧ pixelIndex m s.cx.toNat s.cy.toNat + 1 < wd m * ht m ∧ (clearStep s m).responses = s.responses)
    ∨ ((clearStep s m).seq = .idle ∧ pixelIndex m s.cx.toNat s.cy.toNat + 1 = wd m * ht m
        ∧ RespondsOk s (clearStep s m) 0) := by
  obtain ⟨hnext, hrow, hend⟩ := clearStep_sequencer hseq hx hy
  rcases Nat.lt_or_eq_of_le (Nat.succ_le_of_lt hx) with h | h
  · obtain ⟨h1, h2, h3, h4⟩ := hnext h
    have hlt := pixelIndex_lt h hy
    refine .inl ⟨h1, ?_, ?_, h4⟩
    · rw [pixelIndex, h2, h3, pixelIndex]
      omega
    · simp only [pixelIndex] at hlt ⊢
      omega
  · have hindex : pixelIndex m s.cx.toNat s.cy.toNat + 1 = (s.cy.toNat + 1) * wd m := by
      rw [pixelIndex, Nat.succ_mul]
      omega
    rcases Nat.lt_or_eq_of_le (Nat.succ_le_of_lt hy) with h' | h'
    · obtain ⟨h1, h2, h3, h4⟩ := hrow h h'
      refine .inl ⟨h1, ?_, ?_, h4⟩
      · rw [hindex, pixelIndex, h2, h3, Nat.zero_add]
      · rw [hindex, Nat.mul_comm]
        exact Nat.mul_lt_mul_of_pos_left h' (wd_pos m)
    · obtain ⟨h1, h2⟩ := hend h h'
      exact .inr ⟨h1, by rw [hindex, show s.cy.toNat + 1 = ht m from h', Nat.mul_comm], h2⟩

theorem cellAddr_mono {x y x' y' : Nat} (h : pixelIndex m x y ≤ pixelIndex m x' y') :
    cellAddr s m x y ≤ cellAddr s m x' y' := by
  cases m <;> simp only [pixelIndex, wd] at h <;> simp only [cellAddr] <;> omega

end

theorem replacePixel_zero (p : Nat) (cell : Half) :
    replacePixel p cell 0 = if p % 2 = 0 then cell &&& 0xFF00 else cell &&& 0x00FF := by
  simp [replacePixel]

/-- Settles O57: SetPixel, then the sequencer; the next index is larger, so its cell lies no lower. -/
theorem vmClearStepSetsOnePixel : Obligations.VmClearStepSetsOnePixel := by
  intro s m _ hseq hm hx hy
  have hpixel := clearStep_clearsPixel hx hy
  obtain ⟨hnext, hrow, hend⟩ := clearStep_sequencer hseq hx hy
  obtain ⟨cell, hcell, hlow⟩ := busValue_half s (cellAddr s m s.cx.toNat s.cy.toNat)
  have hstored := hpixel.cell
  rw [hlow] at hstored
  refine ⟨_, _, advance_clearing hseq hm, rfl, fun h4 => ⟨?_, hpixel.direct h4⟩, fun h4 => ?_, hpixel.memory, hnext, hrow, hend,
    fun hc => ?_, hpixel.held, hpixel.video, hpixel.fault, hpixel.outside⟩
  · rw [hstored, cellWith_direct h4]
  · have hissues := hpixel.mode4 h4
    subst h4
    rw [hlow, ← hcell] at hissues
    have hpar : (s.cx.toNat + s.cy.toNat * 240) % 2 = s.cx.toNat % 2 := by omega
    refine ⟨cell, _, hcell, hstored, fun h => ?_, fun h => ?_, hissues⟩
    · rw [cellWith, replacePixel_zero, hpar, if_pos h]
    · rw [cellWith, replacePixel_zero, hpar, if_neg (by omega)]
  · obtain ⟨-, -, hactive⟩ := hpixel.video
    rw [cellAddr_congr hpixel.outside.1 hactive]
    rcases clearStep_index hseq hx hy with ⟨-, hindex, -⟩ | ⟨hidle, -⟩
    · exact cellAddr_mono (by omega)
    · exact nomatch hidle.symm.trans hc

/-! ### Acceptance -/

theorem exec_vmClear {s : State} {m : VideoMode} (hm : s.mode = some m) :
    exec .vmClear s = .next (clearStep { s with seq := .clearing, cx := 0, cy := 0 } m) :=
  withMode_of_mode hm _

theorem cellAddr_zero (s : State) (m : VideoMode) : cellAddr s m 0 0 = drawBase s m := by cases m <;> rfl

/-- Settles O27: acceptance is the step of a clear at pixel (0, 0), whose cell is the first of the draw buffer. -/
theorem vmClearStartsWithFirstPixel : Obligations.VmClearStartsWithFirstPixel := by
  intro s m hm _
  have hw : (0 : BitVec 8).toNat + 1 < wd m := by cases m <;> decide
  obtain ⟨hnext, -⟩ := clearStep_sequencer (s := { s with seq := .clearing, cx := 0, cy := 0 }) rfl (wd_pos m) (ht_pos m)
  obtain ⟨hseq, hcx, hcy, hrs⟩ := hnext hw
  obtain ⟨hread, hmemory, hdirect, hmode4, hheld, hvideo, hfault, hout⟩ :=
    (clearStep_clearsPixel (s := { s with seq := .clearing, cx := 0, cy := 0 }) (wd_pos m) (ht_pos m)).of_sequencer
  rw [show BitVec.toNat (0 : BitVec 8) = 0 from rfl, cellAddr_zero] at hread hmemory hdirect hmode4
  obtain ⟨cell, hcell, hlow⟩ := busValue_half s (drawBase s m)
  rw [hlow] at hread hmode4
  rw [← hcell] at hmode4
  refine ⟨_, cell, exec_vmClear hm, hseq, hcx, congrArg BitVec.toNat hcy, hcell, fun h4 => ⟨?_, hdirect h4⟩, fun h4 => ?_,
    hmemory, hrs, hheld, hvideo, hfault, hout⟩
  · rw [hread, cellWith_direct h4]
  · subst h4
    have hword : cellWith .m4 0 0 cell 0 = cell &&& 0xFF00 := replacePixel_zero 0 cell
    rw [hword] at hread hmode4
    exact ⟨hread, hmode4 rfl⟩

/-! ### The bytes a pixel clears -/

/-- The bytes of the draw buffer a pixel takes (R29, R167). -/
def pixelBytes (m : VideoMode) : Nat := bpp m / 8

theorem frameBytes_eq (m : VideoMode) : frameBytes m = pixelBytes m * (wd m * ht m) := by cases m <;> rfl

/-- The two bytes of a word in memory (R61). -/
theorem Memory.bytes_read16 (mem : Memory) (a : Nat) :
    (mem.read16 a).extractLsb' 0 8 = mem.read a ∧ (mem.read16 a).extractLsb' 8 8 = mem.read (a + 1) :=
  ⟨BitVec.extractLsb'_append_eq_right, BitVec.extractLsb'_append_eq_left⟩

/-- Memory after a step that keeps all but the word at `p` is `f`, when `f` has the new bytes of that word and is the old memory
outside it. -/
theorem KeepsMemoryBut.read_eq {s t : State} {p : Nat} {f : Nat → Byte} (h : KeepsMemoryBut p 2 s t)
    (h0 : t.mem.read p = f p) (h1 : t.mem.read (p + 1) = f (p + 1))
    (hout : ∀ a, a < p ∨ p + 2 ≤ a → f a = s.mem.read a) (a : Nat) : t.mem.read a = f a := by
  by_cases ha : a < p ∨ p + 2 ≤ a
  · rw [h a ha, hout a ha]
  · obtain rfl | rfl : a = p ∨ a = p + 1 := by omega
    · exact h0
    · exact h1

/-- Memory with the bytes of [lo, hi) zero. -/
def zeroedRead (s : State) (lo hi a : Nat) : Byte := if lo ≤ a ∧ a < hi then 0 else s.mem.read a

theorem zeroedRead_inside {s : State} {lo hi a : Nat} (h : lo ≤ a ∧ a < hi) : zeroedRead s lo hi a = 0 := if_pos h

theorem zeroedRead_outside {s : State} {lo hi a : Nat} (h : a < lo ∨ hi ≤ a) : zeroedRead s lo hi a = s.mem.read a :=
  if_neg (by omega)

/-- The bytes of a Mode4 cell with one pixel cleared. -/
theorem replacePixel_zero_bytes (p : Nat) (cell : Half) :
    (replacePixel p cell 0).extractLsb' 0 8 = (if p % 2 = 0 then 0 else cell.extractLsb' 0 8)
      ∧ (replacePixel p cell 0).extractLsb' 8 8 = (if p % 2 = 0 then cell.extractLsb' 8 8 else 0) := by
  rw [replacePixel_bytes (by decide)]
  split <;> exact ⟨BitVec.extractLsb'_append_eq_right, BitVec.extractLsb'_append_eq_left⟩

/-- Under Quiet clearing a pixel zeroes the pixel's bytes and no others: the other byte of a Mode4 cell is stored as memory
holds it (R73, R167). -/
theorem ClearsPixel.read {s t : State} {m : VideoMode} {x y : Nat} (h : ClearsPixel m x y s t) (hwf : s.cfg.wf = true)
    (hq : Quiet s) (hx : x < wd m) (hy : y < ht m) (a : Nat) :
    t.mem.read a = zeroedRead s (drawBase s m + pixelBytes m * pixelIndex m x y)
      (drawBase s m + pixelBytes m * (pixelIndex m x y + 1)) a := by
  have hcell := h.cell
  rw [busValue_quiet hq (cellAddr_apart hwf hx hy).1, lowHalf_zext] at hcell
  obtain ⟨hlow, hhigh⟩ := t.mem.bytes_read16 (cellAddr s m x y)
  rw [hcell] at hlow hhigh
  by_cases h4 : m = .m4
  · subst h4
    obtain ⟨hlow', hhigh'⟩ := s.mem.bytes_read16 (cellAddr s .m4 x y)
    obtain ⟨hzero, hzero'⟩ := replacePixel_zero_bytes (pixelIndex .m4 x y) (s.mem.read16 (cellAddr s .m4 x y))
    rw [hlow'] at hzero
    rw [hhigh'] at hzero'
    have hp : cellAddr s .m4 x y = drawBase s .m4 + 2 * (pixelIndex .m4 x y / 2) := rfl
    rw [show pixelBytes .m4 = 1 from rfl, Nat.one_mul, Nat.one_mul]
    refine h.memory.read_eq ((hlow.symm.trans hzero).trans ?_) ((hhigh.symm.trans hzero').trans ?_)
      (fun a ha => zeroedRead_outside (by omega)) a
    · split
      · exact (zeroedRead_inside (by omega)).symm
      · exact (zeroedRead_outside (by omega)).symm
    · split
      · exact (zeroedRead_outside (by omega)).symm
      · exact (zeroedRead_inside (by omega)).symm
  · rw [cellWith_direct h4] at hlow hhigh
    have hp : cellAddr s m x y = drawBase s m + 2 * pixelIndex m x y := by
      cases m with
      | m3 => rfl
      | m4 => exact absurd rfl h4
      | m5 => rfl
    have hbytes : pixelBytes m = 2 := by
      cases m with
      | m3 => rfl
      | m4 => exact absurd rfl h4
      | m5 => rfl
    rw [hbytes]
    exact h.memory.read_eq (hlow.symm.trans (zeroedRead_inside (by omega)).symm)
      (hhigh.symm.trans (zeroedRead_inside (by omega)).symm) (fun a ha => zeroedRead_outside (by omega)) a

/-! ### Runs -/

section
variable {s t u : State}

theorem KeepsHeld.trans (h : KeepsHeld s t) (h' : KeepsHeld t u) : KeepsHeld s u := fun k => (h' k).trans (h k)

theorem KeepsVideo.trans (h : KeepsVideo s t) (h' : KeepsVideo t u) : KeepsVideo s u := by
  obtain ⟨hmode, hen, hactive⟩ := h
  obtain ⟨hmode', hen', hactive'⟩ := h'
  exact ⟨hmode'.trans hmode, hen'.trans hen, hactive'.trans hactive⟩

theorem KeepsFault.trans (h : KeepsFault s t) (h' : KeepsFault t u) : KeepsFault s u := by
  obtain ⟨hhalt, hcause, hinfo, hopc⟩ := h
  obtain ⟨hhalt', hcause', hinfo', hopc'⟩ := h'
  exact ⟨hhalt'.trans hhalt, hcause'.trans hcause, hinfo'.trans hinfo, hopc'.trans hopc⟩

theorem KeepsOutside.trans (h : KeepsOutside s t) (h' : KeepsOutside t u) : KeepsOutside s u := by
  obtain ⟨hcfg, hport, hquiet⟩ := h
  obtain ⟨hcfg', hport', hquiet'⟩ := h'
  exact ⟨hcfg'.trans hcfg, hport'.trans hport, hquiet'.trans hquiet⟩

/-- With nothing at the port a step is one of the command in flight. -/
theorem step_of_no_input (hwf : s.cfg.wf = true) (hp : s.port = []) : step s = advance s := by
  rw [step_eq_takeInput hwf, hp, takeInput]

/-- Runs whose first steps agree agree. -/
theorem run_congr_step (h : step s = step u) (k : Nat) :
    Host.Core.run Sys2Proof.core (k + 1) s = Host.Core.run Sys2Proof.core (k + 1) u := by
  simp only [Host.Core.run, show Sys2Proof.core.step s = Sys2Proof.core.step u from h]

/-- A command that decodes, presented to an idle VMC, runs from there as the command in flight `u`, where acceptance is `u`'s
first step (log 6). -/
theorem run_of_accepted {c : Command} {i : Instr} (hwf : s.cfg.wf = true) (hseq : s.seq = .idle) (hrun : s.halt = false)
    (hp : s.port = [.command c]) (hc : decode c = .ok i) (hcfg : u.cfg = s.cfg) (hu : u.port = [])
    (he : exec i { s with port := [] } = advance u) (k : Nat) :
    Host.Core.run Sys2Proof.core (k + 1) s = Host.Core.run Sys2Proof.core (k + 1) u :=
  run_congr_step ((step_runs_decoded hwf hseq hrun hp hc).trans (he.trans (step_of_no_input (hcfg ▸ hwf) hu).symm)) k

/-- Zeroing a range and then the range behind it zeroes both. -/
theorem zeroedRead_append {lo mid hi : Nat} (h : ∀ a, t.mem.read a = zeroedRead s lo mid a) (h1 : lo ≤ mid) (h2 : mid ≤ hi)
    (a : Nat) : zeroedRead t mid hi a = zeroedRead s lo hi a := by
  by_cases ha : mid ≤ a ∧ a < hi
  · rw [zeroedRead_inside ha, zeroedRead_inside (by omega)]
  · rw [zeroedRead_outside (by omega), h]
    by_cases ha' : lo ≤ a ∧ a < mid
    · rw [zeroedRead_inside ha', zeroedRead_inside (by omega)]
    · rw [zeroedRead_outside (by omega), zeroedRead_outside (by omega)]

end

/-! ### The whole clear -/

/-- The bus accesses of one pixel (R167). -/
def pixelAccesses (m : VideoMode) : Nat := if m = .m4 then 2 else 1

theorem ClearsPixel.events_length {s t : State} {m : VideoMode} {x y : Nat} (h : ClearsPixel m x y s t) :
    t.events.length = s.events.length + pixelAccesses m := by
  by_cases h4 : m = .m4
  · rw [h.mode4 h4, List.length_append, pixelAccesses, if_pos h4]
    rfl
  · rw [(h.direct h4).1, List.length_append, pixelAccesses, if_neg h4]
    rfl

/-- From `s` to `t` a clear in flight has cleared its last `n` pixels, from pixel index `i` on, and ended. -/
structure ClearsFrom (m : VideoMode) (i n : Nat) (s t : State) : Prop where
  seq : t.seq = .idle
  responds : RespondsOk s t 0
  read : ∀ a, t.mem.read a
    = zeroedRead s (drawBase s m + pixelBytes m * i) (drawBase s m + pixelBytes m * (i + n)) a
  events : t.events.length = s.events.length + pixelAccesses m * n
  held : KeepsHeld s t
  video : KeepsVideo s t
  fault : KeepsFault s t
  outside : KeepsOutside s t

section
variable {s t u : State} {m : VideoMode} {n : Nat}

/-- The last pixel ends the clear. -/
theorem ClearsPixel.clearsFrom {x y : Nat} (h : ClearsPixel m x y s t) (hwf : s.cfg.wf = true) (hq : Quiet s)
    (hx : x < wd m) (hy : y < ht m) (hseq : t.seq = .idle) (hrs : RespondsOk s t 0) :
    ClearsFrom m (pixelIndex m x y) 1 s t :=
  { seq := hseq
    responds := hrs
    read := h.read hwf hq hx hy
    events := by rw [h.events_length, Nat.mul_one]
    held := h.held
    video := h.video
    fault := h.fault
    outside := h.outside }

/-- A pixel and the clear of those behind it. -/
theorem ClearsFrom.cons {x y : Nat} (h : ClearsPixel m x y s t) (hwf : s.cfg.wf = true) (hq : Quiet s) (hx : x < wd m)
    (hy : y < ht m) (hrs : t.responses = s.responses) (hrest : ClearsFrom m (pixelIndex m x y + 1) n t u) :
    ClearsFrom m (pixelIndex m x y) (n + 1) s u :=
  { seq := hrest.seq
    responds := by rw [RespondsOk, hrest.responds, hrs]
    read := fun a => by
      obtain ⟨hcfg, -, -⟩ := h.outside
      obtain ⟨-, -, hactive⟩ := h.video
      have hbase : drawBase t m = drawBase s m := by
        rw [← cellAddr_zero, ← cellAddr_zero, cellAddr_congr hcfg hactive]
      rw [hrest.read, hbase, Nat.add_assoc, Nat.add_comm 1 n]
      exact zeroedRead_append (h.read hwf hq hx hy) (by rw [Nat.mul_succ]; omega)
        (Nat.add_le_add_left (Nat.mul_le_mul_left _ (by omega)) _) a
    events := by rw [hrest.events, h.events_length, Nat.mul_succ]; omega
    held := h.held.trans hrest.held
    video := h.video.trans hrest.video
    fault := h.fault.trans hrest.fault
    outside := h.outside.trans hrest.outside }

/-- A clear in flight with `n` pixels to go takes `n` steps, by induction on `n`. -/
theorem run_clear (hinv : MachineInv s) (hq : Quiet s) (hm : s.mode = some m) (hseq : s.seq = .clearing) (hp : s.port = [])
    (hn : pixelIndex m s.cx.toNat s.cy.toNat + n = wd m * ht m) :
    ∃ t, Host.Core.run Sys2Proof.core n s = .next t ∧ ClearsFrom m (pixelIndex m s.cx.toNat s.cy.toNat) n s t := by
  induction n generalizing s with
  | zero =>
    obtain ⟨hx, hy⟩ := clearing_bounds hinv hseq hm
    have hlt := pixelIndex_lt hx hy
    omega
  | succ n ih =>
    obtain ⟨hx, hy⟩ := clearing_bounds hinv hseq hm
    have hpixel := clearStep_clearsPixel hx hy
    have hstep : step s = .next (clearStep s m) := (step_of_no_input hinv.configured hp).trans (advance_clearing hseq hm)
    rw [run_succ hstep]
    rcases clearStep_index hseq hx hy with ⟨hseq', hindex, hmore, hrs⟩ | ⟨hidle, hlast, hrs⟩
    · obtain ⟨-, hport, hquiet⟩ := hpixel.outside
      obtain ⟨u, hu, hrest⟩ := ih (step_inv hinv hstep) (hquiet.trans hq) (hpixel.video.1.trans hm) hseq' (hport.trans hp)
        (by omega)
      rw [hindex] at hrest
      exact ⟨u, hu, .cons hpixel hinv.configured hq hx hy hrs hrest⟩
    · obtain rfl : n = 0 := by omega
      exact ⟨_, rfl, hpixel.clearsFrom hinv.configured hq hx hy hidle hrs⟩

end

/-- The clear in flight that acceptance starts: at pixel (0, 0), with nothing waiting at the port. -/
def clearInFlight (s : State) : State := { s with port := [], seq := .clearing, cx := 0, cy := 0 }

theorem pixelIndex_clearInFlight (s : State) (m : VideoMode) :
    pixelIndex m (clearInFlight s).cx.toNat (clearInFlight s).cy.toNat = 0 :=
  show 0 + 0 * wd m = 0 by rw [Nat.zero_mul]

theorem drawBase_clearInFlight (s : State) (m : VideoMode) : drawBase (clearInFlight s) m = drawBase s m := by
  cases m <;> rfl

theorem decode_of_header {h a b : Word} {o : Op} (hm : h &&& o.maskBits = o.matchBits) :
    decode ⟨h, a, b⟩ = instrOf o ⟨h, a, b⟩ :=
  decode_of_row hm

/-- Settles O28: acceptance is the first step of a clear in flight at pixel (0, 0), with every pixel to go. -/
theorem vmClearZeroesDrawBuffer : Obligations.VmClearZeroesDrawBuffer := by
  intro s m a b hinv hq hm hseq hrun hp
  have hdecode : decode ⟨0x25000000, a, b⟩ = .ok .vmClear := decode_of_header (o := .vmClear) (by decide)
  have hstart : MachineInv (clearInFlight s) := startClear_inv (port_inv hinv []) hrun hm
  have hexec : exec .vmClear { s with port := [] } = advance (clearInFlight s) :=
    (exec_vmClear (s := { s with port := [] }) hm).trans (advance_clearing (s := clearInFlight s) rfl hm).symm
  obtain ⟨k, hk⟩ : ∃ k, wd m * ht m = k + 1 := Nat.exists_eq_succ_of_ne_zero (Nat.mul_pos (wd_pos m) (ht_pos m)).ne'
  obtain ⟨t, ht, hclear⟩ := run_clear (n := wd m * ht m) hstart hq hm rfl rfl
    (by rw [pixelIndex_clearInFlight, Nat.zero_add])
  have hread := hclear.read
  rw [pixelIndex_clearInFlight, Nat.mul_zero, Nat.zero_add, drawBase_clearInFlight, Nat.add_zero, ← frameBytes_eq] at hread
  rw [hk, ← run_of_accepted (u := clearInFlight s) hinv.configured hseq hrun hp hdecode rfl rfl hexec, ← hk] at ht
  obtain ⟨-, hport, -⟩ := hclear.outside
  refine ⟨t, ht, hclear.seq, hclear.responds, hport, fun p h1 h2 => (hread p).trans (zeroedRead_inside ⟨h1, h2⟩),
    fun p h => (hread p).trans (zeroedRead_outside h), hclear.events.trans (congrArg _ ?_), hclear.held, hclear.video,
    hclear.fault⟩
  cases m with
  | m3 | m5 => exact Nat.one_mul _
  | m4 => rfl

end Sys2Proof.Machine
end

section
/-! VM.VSYNC and VM.SWAPV (spec/42_video_mode.md R177, R178): one poll, a poll and its swap, and runs of polls that see the
vertical-blank bit as 0 until one sees it as 1. -/

namespace Sys2Proof.Machine

/-! ### One poll -/

section
variable {s : State}

theorem pollSeesVblank_eq (s : State) :
    pollSeesVblank s = (busValue s .w16 (s.cfg.addr 1)).getLsbD s.cfg.vblankBit :=
  vblankSet_eq _ _

theorem vsyncStep_of_set (h : pollSeesVblank s = true) : vsyncStep s = finish (pollLoad s) := if_pos h

theorem vsyncStep_of_clear (h : pollSeesVblank s = false) : vsyncStep s = pollLoad s := if_neg (by simp [h])

theorem swapvStep_of_clear (h : pollSeesVblank s = false) : swapvStep s = pollLoad s := if_neg (by simp [h])

/-- The poll that sees the bit ends VM.SWAPV, in Mode3 with nothing more. -/
theorem swapvStep_of_set_mode3 (h : pollSeesVblank s = true) (hm : s.mode = some .m3) :
    swapvStep s = finish (pollLoad s) := by
  rw [swapvStep, if_pos h, if_pos hm]

/-- In Mode4 and Mode5 the swap lies between the poll that sees the bit and the end of VM.SWAPV. -/
theorem swapvStep_of_set_double {m : VideoMode} (h : pollSeesVblank s = true) (hm : s.mode = some m) (h3 : m ≠ .m3) :
    swapvStep s = finish (swapBody (pollLoad s)) := by
  have hne : ¬ s.mode = some .m3 := fun e => h3 (Option.some.inj (hm.symm.trans e))
  rw [swapvStep, if_pos h, if_neg hne]

/-- A poll takes the environment's next answer, whatever Quiet says (R73). -/
theorem poll_of_answers {v : Word} {rest : List Word} (h : s.answers = v :: rest) :
    busValue s .w16 (s.cfg.addr 1) = zext (lowHalf v) ∧ (pollLoad s).answers = rest := by
  have horacle : usesOracle s .w16 (s.cfg.addr 1) = true := by simp [usesOracle, oracleHalf]
  refine ⟨by rw [busValue_status, oracle_of_answers h], ?_⟩
  rw [pollLoad_answers, answersAfter, if_pos horacle, h, List.tail_cons]

/-- A poll sees the bit of the answer it takes. -/
theorem pollSeesVblank_of_answers {v : Word} {rest : List Word} (h : s.answers = v :: rest) :
    pollSeesVblank s = (lowHalf v).getLsbD s.cfg.vblankBit := by
  rw [pollSeesVblank_eq, (poll_of_answers h).1, zext_getLsbD]

/-- A load the environment answers (R64). -/
theorem busValue_of_oracle {a : Nat} (h : oracleHalf s a = true) : busValue s .w16 a = zext (lowHalf (oracle s)) := by
  rw [busValue, answerHalf, if_pos h]

/-- What one poll changes: HELD[1], the history and the answers. -/
theorem pollLoad_keeps (s : State) :
    KeepsHeldBut 1 s (pollLoad s) ∧ KeepsVideo s (pollLoad s) ∧ KeepsSequencer s (pollLoad s) ∧ KeepsFault s (pollLoad s)
      ∧ KeepsMemory s (pollLoad s) ∧ KeepsOutside s (pollLoad s) :=
  ⟨fun _ hk => pollLoad_heldAt_other s hk, ⟨rfl, rfl, rfl⟩, ⟨rfl, rfl, rfl⟩, ⟨rfl, rfl, rfl, rfl⟩, fun _ => rfl,
    ⟨rfl, rfl, rfl⟩⟩

end

/-! ### Acceptance -/

/-- The state in which a poll of an accepted command starts. -/
def atSeq (s : State) (q : Seq) : State := { s with seq := q }

theorem exec_vmVsync (s : State) : exec .vmVsync s = .next (vsyncStep (atSeq s .poll)) := rfl

theorem exec_vmSwapv {s : State} {m : VideoMode} (hm : s.mode = some m) (hen : m = .m3 ∨ s.en = true) :
    exec .vmSwapv s = .next (swapvStep (atSeq s .pollSwap)) :=
  (withMode_of_mode hm _).trans (guarded_pass (require_eq_none.2 (by simpa using hen)) _ _)

/-- Settles O29: acceptance is a poll at SEQ = POLL; the bit decides whether the command ends with it. -/
theorem vmVsyncPollsOnce : Obligations.VmVsyncPollsOnce := by
  intro s
  obtain ⟨hheld, hvideo, -, hfault, hmemory, hout⟩ := pollLoad_keeps (atSeq s .poll)
  have hone := pollLoad_heldAt_one (atSeq s .poll)
  have hbit := pollSeesVblank_eq (atSeq s .poll)
  rw [exec_vmVsync]
  cases hv : pollSeesVblank (atSeq s .poll) with
  | true =>
    rw [hv] at hbit
    rw [vsyncStep_of_set hv]
    exact ⟨_, _, rfl, rfl, hone, rfl, fun _ => ⟨rfl, rfl⟩, (nomatch hbit.trans ·), rfl, rfl, hheld, hvideo, hfault,
      hmemory, hout⟩
  | false =>
    rw [hv] at hbit
    rw [vsyncStep_of_clear hv]
    exact ⟨_, _, rfl, rfl, hone, rfl, (nomatch hbit.trans ·), fun _ => ⟨rfl, rfl⟩, rfl, rfl, hheld, hvideo, hfault,
      hmemory, hout⟩

/-! ### One step of VM.SWAPV -/

theorem Issues.trans {s t u : State} {es es' : List BusEvent} (h : Issues s t es) (h' : Issues t u es') :
    Issues s u (es ++ es') := by
  rw [Issues, h', h, List.append_assoc]

/-- What the swap behind a poll loads: memory's word under Quiet, else the answer behind the poll's (R64, R73). -/
theorem swapLoad_after_poll {s : State} {w : Half} (hload : zext w = busValue (pollLoad s) .w16 (s.cfg.addr 0)) :
    (Quiet s → s.cfg.addr 0 ≠ s.cfg.addr 1 → w = controlInMemory s)
    ∧ ∀ x y rest, s.answers = x :: y :: rest → ¬ Quiet s ∨ s.cfg.addr 0 = s.cfg.addr 1 → w = lowHalf y := by
  have hw := congrArg lowHalf hload
  rw [lowHalf_zext] at hw
  refine ⟨fun hq hne => ?_, fun x y rest hanswers henv => ?_⟩
  · rw [hw, busValue_quiet (s := pollLoad s) hq hne, lowHalf_zext]
    rfl
  · have hfrom : oracleHalf (pollLoad s) (s.cfg.addr 0) = true := by
      rcases henv with hq | he
      · have hfalse : s.quiet = false := Bool.eq_false_of_not_eq_true hq
        simp [oracleHalf, hfalse]
      · simp [oracleHalf, he]
    rw [hw, busValue_of_oracle hfrom, oracle_of_answers (poll_of_answers hanswers).2, lowHalf_zext]

/-- A step of VM.SWAPV at SEQ = POLL_SWAP does what R178 says, by whether the poll sees the bit and whether there is a buffer
to swap. -/
theorem swapvStep_spec {s : State} {m : VideoMode} (hseq : s.seq = .pollSwap) (hm : s.mode = some m) :
    SwapvStep m s (swapvStep s) := by
  obtain ⟨-, -, -, hfault, hmemory, hout⟩ := pollLoad_keeps s
  have hone := pollLoad_heldAt_one s
  have hzero : heldAt (pollLoad s) 0 = heldAt s 0 := pollLoad_heldAt_other s (by decide)
  have hother := fun k (_ : k ≠ (0 : Fin 16)) h1 => pollLoad_heldAt_other s (k := k) h1
  have hbit := pollSeesVblank_eq s
  cases hv : pollSeesVblank s with
  | false =>
    rw [hv] at hbit
    rw [swapvStep_of_clear hv]
    exact ⟨_, rfl, hone, rfl, rfl, rfl, rfl, hfault, hout, hother, fun _ => ⟨hseq, rfl, rfl, hzero, rfl, hmemory⟩,
      (nomatch hbit.trans ·), (nomatch hbit.trans ·)⟩
  | true =>
    rw [hv] at hbit
    by_cases h3 : m = .m3
    · subst h3
      rw [swapvStep_of_set_mode3 hv hm]
      exact ⟨_, rfl, hone, rfl, rfl, rfl, rfl, hfault, hout, hother, (nomatch hbit.trans ·),
        fun _ _ => ⟨rfl, rfl, rfl, hzero, rfl, hmemory⟩, fun _ h => absurd rfl h⟩
    · obtain ⟨w, w', hload, hbits, hheld, hcontrol, hissues⟩ := swapBody_words (pollLoad s)
      obtain ⟨hquiet, hanswer⟩ := swapLoad_after_poll hload
      have hpoll : Issues s (pollLoad s) [.load (s.cfg.addr 1) .w16 (busValue s .w16 (s.cfg.addr 1))] := rfl
      rw [swapvStep_of_set_double hv hm h3]
      exact ⟨_, rfl, (swapBody_heldAt_other (pollLoad s) (by decide)).trans hone, rfl, rfl, rfl, rfl, hfault, hout,
        fun k h0 h1 => (swapBody_heldAt_other (pollLoad s) h0).trans (hother k h0 h1), (nomatch hbit.trans ·),
        fun _ h => absurd h h3, fun _ _ => ⟨rfl, rfl, otherBuffer_ne s.active, w, w', hbits, hheld, hcontrol,
          swapBody_frame (pollLoad s), hpoll.trans hissues, hquiet, hanswer⟩⟩

/-- Settles O32: acceptance is the step taken at SEQ = POLL_SWAP, and so is every later one. -/
theorem vmSwapvPollsThenSwaps : Obligations.VmSwapvPollsThenSwaps := fun s _ _ _ hm hen =>
  ⟨⟨_, exec_vmSwapv hm hen, swapvStep_spec (s := atSeq s .pollSwap) rfl hm⟩,
    fun hseq => ⟨_, advance_pollSwap hseq, swapvStep_spec hseq hm⟩⟩

end Sys2Proof.Machine
end

section
/-! Runs of VM.VSYNC and VM.SWAPV (spec/42_video_mode.md R177, R178, R218): polls while the answers show the vertical-blank bit
as 0, and the end of the command at the first that shows it as 1. -/

namespace Sys2Proof.Machine

/-- The event of a poll that the environment answers with `u` (R64, R177). -/
def pollEvent (cfg : Cfg) (u : Word) : BusEvent := .load (cfg.addr 1) .w16 (zext (lowHalf u))

/-- From `s` to `t` the VMC polls, with the answers `us`, and does nothing else. -/
structure Polled (us : List Word) (s t : State) : Prop where
  seq : t.seq = s.seq
  responses : t.responses = s.responses
  answers : s.answers = us ++ t.answers
  issues : Issues s t (us.map (pollEvent s.cfg))
  held : KeepsHeldBut 1 s t
  video : KeepsVideo s t
  fault : KeepsFault s t
  memory : KeepsMemory s t
  outside : KeepsOutside s t

section
variable {s t u : State} {us us' : List Word}

theorem KeepsHeldBut.trans {k : Fin 16} (h : KeepsHeldBut k s t) (h' : KeepsHeldBut k t u) : KeepsHeldBut k s u :=
  fun j hj => (h' j hj).trans (h j hj)

theorem KeepsMemory.trans (h : KeepsMemory s t) (h' : KeepsMemory t u) : KeepsMemory s u := fun a => (h' a).trans (h a)

theorem Polled.refl (s : State) : Polled [] s s :=
  ⟨rfl, rfl, rfl, (List.append_nil _).symm, fun _ _ => rfl, ⟨rfl, rfl, rfl⟩, ⟨rfl, rfl, rfl, rfl⟩, fun _ => rfl,
    ⟨rfl, rfl, rfl⟩⟩

theorem Polled.trans (h : Polled us s t) (h' : Polled us' t u) : Polled (us ++ us') s u :=
  { seq := h'.seq.trans h.seq
    responses := h'.responses.trans h.responses
    answers := by rw [h.answers, h'.answers, List.append_assoc]
    issues := by
      have hlater := h'.issues
      rw [h.outside.1] at hlater
      rw [List.map_append]
      exact h.issues.trans hlater
    held := h.held.trans h'.held
    video := h.video.trans h'.video
    fault := h.fault.trans h'.fault
    memory := h.memory.trans h'.memory
    outside := h.outside.trans h'.outside }

/-- The display-control word depends on memory and the configuration only. -/
theorem controlInMemory_congr (hcfg : t.cfg = s.cfg) (h : KeepsMemory s t) : controlInMemory t = controlInMemory s := by
  simp only [controlInMemory, Memory.read16, hcfg, h _]

/-- One poll takes one answer. -/
theorem polled_pollLoad {v : Word} {rest : List Word} (h : s.answers = v :: rest) : Polled [v] s (pollLoad s) := by
  obtain ⟨hvalue, hrest⟩ := poll_of_answers h
  obtain ⟨hheld, hvideo, -, hfault, hmemory, hout⟩ := pollLoad_keeps s
  refine ⟨rfl, rfl, ?_, ?_, hheld, hvideo, hfault, hmemory, hout⟩
  · rw [hrest, h, List.singleton_append]
  · rw [Issues, pollLoad_events, hvalue]
    rfl

/-- A run of k + j steps is one of k, then one of j. -/
theorem run_add {k : Nat} (h : Host.Core.run Sys2Proof.core k s = .next t) (j : Nat) :
    Host.Core.run Sys2Proof.core (k + j) s = Host.Core.run Sys2Proof.core j t := by
  induction k generalizing s with
  | zero =>
    cases h
    rw [Nat.zero_add]
  | succ k ih =>
    rw [Nat.succ_add]
    simp only [Host.Core.run] at h ⊢
    cases hs : Sys2Proof.core.step s with
    | next u =>
      rw [hs] at h
      exact ih h
    | fault r =>
      rw [hs] at h
      cases h
    | refused r =>
      rw [hs] at h
      cases h

/-- The step of a polling command whose poll sees the bit as 0 is that poll. -/
theorem step_poll_clear (hwf : s.cfg.wf = true) (hseq : s.seq = .poll ∨ s.seq = .pollSwap) (hp : s.port = [])
    (hclear : pollSeesVblank s = false) : step s = .next (pollLoad s) := by
  rw [step_of_no_input hwf hp]
  rcases hseq with hseq | hseq
  · rw [advance_poll hseq, vsyncStep_of_clear hclear]
  · rw [advance_pollSwap hseq, swapvStep_of_clear hclear]

/-- While the answers show the bit as 0 the command polls, one load a step (R177, R218). -/
theorem run_polls {rest : List Word} (hwf : s.cfg.wf = true) (hseq : s.seq = .poll ∨ s.seq = .pollSwap) (hp : s.port = [])
    (ha : s.answers = us ++ rest) (hclear : ∀ v ∈ us, BlankClear s.cfg v) :
    ∃ t, Host.Core.run Sys2Proof.core us.length s = .next t ∧ Polled us s t := by
  induction us generalizing s with
  | nil => exact ⟨s, rfl, .refl s⟩
  | cons v us ih =>
    obtain ⟨hv, hus⟩ := List.forall_mem_cons.1 hclear
    have hstep := step_poll_clear hwf hseq hp ((pollSeesVblank_of_answers ha).trans hv)
    obtain ⟨t, ht, hpolled⟩ := ih (s := pollLoad s) hwf hseq hp (poll_of_answers ha).2 hus
    exact ⟨t, (run_succ hstep _).trans ht, (polled_pollLoad ha).trans hpolled⟩

/-- Polls that see the bit as 0, and then, at the step whose poll sees it as 1, the end of the command. -/
theorem run_polls_then_set {before after : List Word} {v : Word} (hwf : s.cfg.wf = true)
    (hseq : s.seq = .poll ∨ s.seq = .pollSwap) (hp : s.port = []) (ha : s.answers = before ++ v :: after)
    (hclear : ∀ u ∈ before, BlankClear s.cfg u) (hset : BlankSet s.cfg v) :
    ∃ t, (∀ u, step t = .next u → Host.Core.run Sys2Proof.core (before.length + 1) s = .next u) ∧ Polled before s t
      ∧ t.answers = v :: after ∧ pollSeesVblank t = true := by
  obtain ⟨t, ht, hpolled⟩ := run_polls hwf hseq hp ha hclear
  have hrest : t.answers = v :: after := List.append_cancel_left (hpolled.answers.symm.trans ha)
  refine ⟨t, fun u hu => (run_add ht 1).trans (run_succ hu 0), hpolled, hrest, ?_⟩
  rw [pollSeesVblank_of_answers hrest, hpolled.outside.1]
  exact hset

end

/-- Settles O31: the polls of the answers, however many. -/
theorem vmVsyncHangsWhileNoBlank : Obligations.VmVsyncHangsWhileNoBlank := by
  rintro _ s _ hwf hrun hseq hp rfl rfl hclear
  obtain ⟨t, ht, hpolled⟩ := run_polls (rest := []) hwf (.inl hseq) hp (List.append_nil _).symm hclear
  refine ⟨t, ht, hpolled.seq.trans hseq, hpolled.fault.1.trans hrun, hpolled.responses, ?_⟩
  rw [hpolled.issues, List.length_append, List.length_map]

/-! ### Presented to an idle VMC -/

/-- The polling command in flight that acceptance starts, with nothing waiting at the port. -/
def pollInFlight (s : State) (q : Seq) : State := { s with port := [], seq := q }

/-- Settles O30: acceptance is the first step of a poll in flight; the step whose poll sees the bit ends it. -/
theorem vmVsyncCompletesAtFirstBlank : Obligations.VmVsyncCompletesAtFirstBlank := by
  intro s before after v a b hwf hrun hseq hp ha hclear hset
  have hdecode : decode ⟨0x29000000, a, b⟩ = .ok .vmVsync := decode_of_header (o := .vmVsync) (by decide)
  have hexec : exec .vmVsync { s with port := [] } = advance (pollInFlight s .poll) := rfl
  obtain ⟨t, ht, hpolled, hrest, hsees⟩ :=
    run_polls_then_set (s := pollInFlight s .poll) hwf (.inl rfl) rfl ha hclear hset
  have hall := hpolled.trans (polled_pollLoad hrest)
  obtain ⟨hcfg, hport, -⟩ := hpolled.outside
  have hstep : step t = .next (finish (pollLoad t)) := by
    rw [step_of_no_input (hcfg ▸ hwf) hport, advance_poll hpolled.seq, vsyncStep_of_set hsees]
  refine ⟨finish (pollLoad t), ?_, rfl, ?_, (poll_of_answers hrest).2, ?_, hall.issues, hall.held, hall.video, hall.fault,
    hall.memory⟩
  · rw [run_of_accepted (u := pollInFlight s .poll) hwf hseq hrun hp hdecode rfl rfl hexec]
    exact ht _ hstep
  · rw [RespondsOk, finish_responses, hall.responses]
    rfl
  · exact (pollLoad_heldAt_one t).trans (poll_of_answers hrest).1

/-- Settles O56: acceptance is the first step of a poll in flight; the step whose poll sees the bit swaps, where there is a
buffer to swap, and ends it. -/
theorem vmSwapvCompletesAtFirstBlank : Obligations.VmSwapvCompletesAtFirstBlank := by
  intro s m before after v a b hwf _ hrun hseq hm hen hp ha hclear hset
  have hdecode : decode ⟨0x2A000000, a, b⟩ = .ok .vmSwapv := decode_of_header (o := .vmSwapv) (by decide)
  have hexec : exec .vmSwapv { s with port := [] } = advance (pollInFlight s .pollSwap) :=
    exec_vmSwapv (s := { s with port := [] }) hm hen
  obtain ⟨t, ht, hpolled, hrest, hsees⟩ :=
    run_polls_then_set (s := pollInFlight s .pollSwap) hwf (.inr rfl) rfl ha hclear hset
  have hall := hpolled.trans (polled_pollLoad hrest)
  obtain ⟨hcfg, hport, -⟩ := hpolled.outside
  obtain ⟨hmode, hen', hactive⟩ := hall.video
  have hstep : step t = .next (swapvStep t) :=
    (step_of_no_input (hcfg ▸ hwf) hport).trans (advance_pollSwap hpolled.seq)
  have hrunStep : Host.Core.run Sys2Proof.core (before.length + 1) s = .next (swapvStep t) :=
    (run_of_accepted (u := pollInFlight s .pollSwap) hwf hseq hrun hp hdecode rfl rfl hexec _).trans (ht _ hstep)
  have hone : heldAt (pollLoad t) 1 = zext (lowHalf v) := (pollLoad_heldAt_one t).trans (poll_of_answers hrest).1
  have hother : ∀ k, k ≠ 0 → k ≠ 1 → heldAt (pollLoad t) k = heldAt s k := fun k _ h1 => hall.held k h1
  have hmt : t.mode = some m := hmode.trans hm
  by_cases h3 : m = .m3
  · subst h3
    rw [swapvStep_of_set_mode3 hsees hmt] at hrunStep
    exact ⟨_, _, hrunStep, rfl, rfl, congrArg (· ++ [_]) hall.responses, hone, hother, hmode, hen', hall.fault,
      fun _ => ⟨hactive, hall.held 0 (by decide), (poll_of_answers hrest).2, hall.issues, hall.memory⟩, fun h => absurd rfl h⟩
  · rw [swapvStep_of_set_double hsees hmt h3] at hrunStep
    obtain ⟨w, w', hload, hbits, hheld, hcontrol, hissues⟩ := swapBody_words (pollLoad t)
    obtain ⟨hquiet, -⟩ := swapLoad_after_poll hload
    have hframe := swapBody_frame (pollLoad t)
    rw [pollLoad_cfg, hcfg] at hbits hissues hframe
    rw [hcfg, controlInMemory_congr hcfg hpolled.memory] at hquiet
    refine ⟨_, _, hrunStep, rfl, rfl, congrArg (· ++ [_]) hall.responses,
      (swapBody_heldAt_other (pollLoad t) (by decide)).trans hone,
      fun k h0 h1 => (swapBody_heldAt_other (pollLoad t) h0).trans (hother k h0 h1), hmode, hen', hall.fault,
      fun h => absurd h h3, fun _ => ⟨?_, w, w', hbits, hheld, hcontrol, fun p hp => (hframe p hp).trans (hall.memory p),
        hall.issues.trans hissues, fun hq => hquiet (hpolled.outside.2.2.trans hq)⟩⟩
    exact fun h => otherBuffer_ne _ (h.trans hactive.symm)

end Sys2Proof.Machine
end

section
/-! The transitions of (MODE, EN, ACTIVE) (spec/42_video_mode.md R161), along instructions, the command in flight and steps. -/

namespace Sys2Proof.Machine

section
variable {s t : State} {m : VideoMode}

theorem mode_double (hm : s.mode = some m) (h3 : m ≠ .m3) : s.mode = some .m4 ∨ s.mode = some .m5 := by
  cases m with
  | m3 => exact absurd rfl h3
  | m4 => exact .inl hm
  | m5 => exact .inr hm

theorem vsyncStep_keepsVideo (s : State) : KeepsVideo s (vsyncStep s) := by
  unfold vsyncStep
  split <;> exact ⟨rfl, rfl, rfl⟩

/-- A step of VM.SWAPV keeps the triple, or swaps an Enabled double-buffered mode (R178). -/
theorem swapvStep_tableTransition (hm : s.mode = some m) (hen : m = .m3 ∨ s.en = true) :
    KeepsVideo s (swapvStep s) ∨ TableTransition .vmSwapv s (swapvStep s) := by
  cases hv : pollSeesVblank s with
  | false =>
    rw [swapvStep_of_clear hv]
    exact .inl ⟨rfl, rfl, rfl⟩
  | true =>
    by_cases h3 : m = .m3
    · rw [swapvStep_of_set_mode3 hv (h3 ▸ hm)]
      exact .inl ⟨rfl, rfl, rfl⟩
    · have hen' := hen.resolve_left h3
      rw [swapvStep_of_set_double hv hm h3]
      exact .inr (.inr (.inr (.inr ⟨.inr rfl, hen', mode_double hm h3, rfl, hen', otherBuffer_ne s.active⟩)))

/-- An instruction changes the triple only as its own row of R161. -/
theorem exec_tableTransition {i : Instr} (he : exec i s = .next t) : KeepsVideo s t ∨ TableTransition i s t := by
  rcases exec_cases he with ⟨tr, rfl, -⟩ | heff
  · exact .inl ⟨rfl, rfl, rfl⟩
  · cases heff with
    | read | write | staged | query | get | setpal | getpal => exact .inl ⟨rfl, rfl, rfl⟩
    | construct m => exact .inr (.inl ⟨m, rfl, rfl, rfl, rfl⟩)
    | switch m => exact .inr (.inr (.inl ⟨m, rfl, rfl, rfl, rfl⟩))
    | enable m hm hen => exact .inr (.inr (.inr (.inl ⟨rfl, hen, by simp [hm], rfl, rfl, rfl⟩)))
    | swap m hm h3 hen =>
      exact .inr (.inr (.inr (.inr ⟨.inl rfl, hen, mode_double hm h3, rfl, hen, otherBuffer_ne s.active⟩)))
    | set m x y c =>
      obtain ⟨-, hvideo, -⟩ := setPixel_keeps (s := s) (m := m) (x := x.toNat) (y := y.toNat) (c := c)
      exact .inl hvideo
    | clear m =>
      exact .inl (clearStep_clearsPixel (s := { s with seq := .clearing, cx := 0, cy := 0 }) (wd_pos m) (ht_pos m)).video
    | vsync => exact .inl (vsyncStep_keepsVideo (atSeq s .poll))
    | swapv m hm hen => exact swapvStep_tableTransition (s := atSeq s .pollSwap) hm hen

/-- In flight only VM.SWAPV changes the triple. -/
theorem advance_tableTransition (h : MachineInv s) (ha : advance s = .next t) :
    KeepsVideo s t ∨ (s.seq = .pollSwap ∧ TableTransition .vmSwapv s t) := by
  rcases advance_cases ha with ⟨-, rfl⟩ | ⟨m, hseq, hm, rfl⟩ | ⟨-, rfl⟩ | ⟨hseq, rfl⟩
  · exact .inl ⟨rfl, rfl, rfl⟩
  · obtain ⟨hx, hy⟩ := clearing_bounds h hseq hm
    exact .inl (clearStep_clearsPixel hx hy).video
  · exact .inl (vsyncStep_keepsVideo s)
  · obtain ⟨m, hm, hen⟩ := h.swapping hseq
    exact (swapvStep_tableTransition hm hen).imp_right fun htable => ⟨hseq, htable⟩

/-- A reset inside a step leaves no mode, wherever it lands (R241). -/
theorem cutByReset_video (k : Nat) (s t : State) :
    (cutByReset k s t).mode = none ∧ (cutByReset k s t).en = false ∧ (cutByReset k s t).active = .a := by
  unfold cutByReset
  simp only
  split <;> exact ⟨rfl, rfl, rfl⟩

end

/-- Settles O50: instructions by their effects, the command in flight by the sequencer, and a step by its cases. -/
theorem onlyTableTransitionsChangeMode : Obligations.OnlyTableTransitionsChangeMode := by
  refine ⟨fun i s t => exec_tableTransition, fun s t => advance_tableTransition, fun s t hinv hs => ?_⟩
  rcases step_cases hinv.configured with ⟨_, e⟩ | ⟨rest, _, e⟩ | ⟨rest, hp, e⟩ | ⟨_, _, _, _, e⟩ | ⟨_, rest, _, _, _, e⟩
    | ⟨_, rest, _, _, _, _, _, e⟩ | ⟨c, rest, i, hp, hseq, hrun, hc, e⟩ | ⟨k, rest, hp, e⟩ <;> rw [e] at hs
  · exact (advance_tableTransition hinv hs).imp_right .inl
  · exact (advance_tableTransition (s := { s with port := rest }) (port_inv hinv rest) hs).imp_right .inl
  · cases hs
    exact .inr (.inr (.inr ⟨⟨rest, .inl hp⟩, rfl, rfl, rfl⟩))
  · exact (advance_tableTransition hinv hs).imp_right .inl
  · cases hs
    exact .inl ⟨rfl, rfl, rfl⟩
  · cases hs
    exact .inl ⟨rfl, rfl, rfl⟩
  · exact (exec_tableTransition (s := { s with port := rest }) hs).imp_right fun htable =>
      .inr (.inl ⟨c, rest, i, hp, hseq, hrun, hc, htable⟩)
  · obtain ⟨u, -, rfl⟩ := resetDuring_next hs
    exact .inr (.inr (.inr ⟨⟨rest, .inr ⟨k, hp⟩⟩, cutByReset_video k s u⟩))

end Sys2Proof.Machine
end

section
/-! The GFX and COL commands (spec/43_colour_graphics.md R201, R203): the switch as VM.ENABLE behind a construction, and the
number three packed channels make. -/

namespace Sys2Proof.Machine

/-! ### GFX.SWITCH -/

section
variable {s : State} {m : VideoMode}

theorem exec_gfxSwitch (ha : RegionsAligned s.cfg m) :
    exec (.gfxSwitch m) s = .next (respond (enableBody (constructBody s m) m) 0) :=
  guarded_pass (checkRegions_eq_none.2 ha) _ _

/-- The switch does what VM.ENABLE does to the state a construction of the mode leaves (R201). -/
theorem exec_gfxSwitch_eq_enable (ha : RegionsAligned s.cfg m) :
    exec (.gfxSwitch m) s = exec .vmEnable (constructBody s m) :=
  (exec_gfxSwitch ha).trans (exec_vmEnable (s := constructBody s m) rfl rfl).symm

end

/-- Settles O14: the construction checks, then VM.ENABLE of the constructed mode, which is Disabled with ACTIVE = A; a
construction touches only MODE, EN and ACTIVE, so what enable leaves of its state is what the switch leaves. -/
theorem gfxSwitchConstructsAndEnables : Obligations.GfxSwitchConstructsAndEnables := fun s m =>
  ⟨exec_constructChecksTrap (.inr rfl) s, fun hwf hmem ha => by
    obtain ⟨-, enable⟩ := vmEnableCommitsControlWord
    obtain ⟨t, w, he, hword, hen, hmode, hactive, hheld, hcontrol, -, hframe⟩ :=
      enable (constructBody s m) m hwf hmem rfl rfl
    exact ⟨t, w, (exec_gfxSwitch_eq_enable ha).trans he, hword, hen, hmode, hactive, hheld, hcontrol, hframe⟩⟩

/-! ### COL.RGB -/

/-- A channel as the packed word takes it: its low 5 bits. -/
theorem channel_toNat (c : Byte) : (c.setWidth 32 &&& 0x1F#32).toNat = c.toNat % 32 := by
  have hc := c.isLt
  rw [BitVec.toNat_and, BitVec.toNat_setWidth, Nat.mod_eq_of_lt (by omega)]
  exact Nat.and_two_pow_sub_one_eq_mod c.toNat 5

/-- Five bits shifted left by at most 10 stay below 2^32. -/
theorem channel_shiftLeft_toNat (c : Byte) {k : Nat} (hk : k ≤ 10) :
    ((c.setWidth 32 &&& 0x1F#32) <<< k).toNat = (c.toNat % 32) <<< k := by
  have hc : c.toNat % 32 < 2 ^ 5 := Nat.mod_lt _ (by decide)
  have hlt : (c.toNat % 32) <<< k < 2 ^ (5 + k) := Nat.shiftLeft_lt hc
  rw [BitVec.toNat_shiftLeft, channel_toNat,
    Nat.mod_eq_of_lt (hlt.trans_le (Nat.pow_le_pow_right (by decide) (by omega)))]

/-- The three 5-bit fields do not overlap, so their bitwise OR is their sum. -/
theorem packRgb_toNat (r g b : Byte) :
    (packRgb r g b).toNat = r.toNat % 32 + g.toNat % 32 * 32 + b.toNat % 32 * 1024 := by
  have hr : r.toNat % 32 < 2 ^ 5 := Nat.mod_lt _ (by decide)
  have hg : g.toNat % 32 < 2 ^ 5 := Nat.mod_lt _ (by decide)
  have hlow : r.toNat % 32 ||| (g.toNat % 32) <<< 5 = r.toNat % 32 + g.toNat % 32 * 32 := by
    rw [Nat.or_comm, ← Nat.shiftLeft_add_eq_or_of_lt hr, Nat.shiftLeft_eq, Nat.add_comm]
  have hlt : r.toNat % 32 + g.toNat % 32 * 32 < 2 ^ 10 := by omega
  rw [packRgb, BitVec.toNat_or, BitVec.toNat_or, channel_toNat, channel_shiftLeft_toNat g (by decide),
    channel_shiftLeft_toNat b (by decide), hlow, Nat.or_comm, ← Nat.shiftLeft_add_eq_or_of_lt hlt, Nat.shiftLeft_eq,
    Nat.add_comm]

/-- Settles O33: BAD_VALUE of the whole operand word unless its top byte is 0, else the packed channels as an answer. -/
theorem colRgbPacksChannels : Obligations.ColRgbPacksChannels := by
  refine fun s r g b hi => ⟨fun hne => ?_, fun hzero => ?_⟩
  · exact traps_of_guarded rfl rfl (require_eq_some.2 ⟨beq_eq_false_iff_ne.2 hne, rfl⟩)
  · obtain ⟨t, he, hresponds, hframe⟩ := query_of_checks (i := .colRgb r g b hi) (s := s) (r := packRgb r g b) rfl
      (require_eq_none.2 (beq_iff_eq.2 hzero))
    exact ⟨t, packRgb r g b, he, hresponds, hframe, packRgb_toNat r g b⟩

end Sys2Proof.Machine
end

section
/-! Traps and the halted VMC (spec/60_exceptions.md R213 to R217): which steps halt, what such a step does besides, and what is
left of a step once halted. -/

namespace Sys2Proof.Machine

/-! ### The halted VMC -/

section
variable {s t : State}

/-- R216: a halted VMC answers the command presented without decoding it. -/
theorem accept_of_halted (hh : s.halt = true) (c : Command) : accept c s = .next (respondHalted s) := by
  rw [accept, if_pos hh]

theorem queryFrame_refl (s : State) : QueryFrame s s :=
  ⟨fun _ => rfl, ⟨rfl, rfl, rfl⟩, ⟨rfl, rfl, rfl⟩, ⟨rfl, rfl, rfl, rfl⟩, fun _ => rfl, ⟨rfl, rfl, rfl⟩, ⟨rfl, rfl⟩,
    (List.append_nil _).symm⟩

/-- The halted answer changes nothing but the responses. -/
theorem respondHalted_frame (s : State) : QueryFrame s (respondHalted s) := queryFrame_refl s

/-- A step of a halted VMC that is no reset takes its input off the port and at most answers: nothing is in flight (R213), and
no command is checked (R217). -/
theorem step_of_halted (h : MachineInv s) (hh : s.halt = true) (hreset : ∀ rest, s.port ≠ .reset :: rest)
    (hinside : ∀ k rest, s.port ≠ .resetInside k :: rest) (hs : step s = .next t) :
    ∃ port, QueryFrame { s with port := port } t := by
  obtain ⟨hidle, -⟩ := h.halted hh
  rcases step_cases h.configured with ⟨_, e⟩ | ⟨rest, _, e⟩ | ⟨rest, hp, _⟩ | ⟨_, _, _, hbusy, _⟩ | ⟨_, rest, _, _, _, e⟩
    | ⟨_, _, _, _, _, hrun, _, _⟩ | ⟨_, _, _, _, _, hrun, _, _⟩ | ⟨k, rest, hp, _⟩
  · cases (e.trans (advance_idle hidle)).symm.trans hs
    exact ⟨s.port, queryFrame_refl s⟩
  · cases (e.trans (advance_idle (s := { s with port := rest }) hidle)).symm.trans hs
    exact ⟨rest, queryFrame_refl _⟩
  · exact absurd hp (hreset rest)
  · exact absurd hidle hbusy
  · cases e.symm.trans hs
    exact ⟨rest, respondHalted_frame _⟩
  · exact nomatch hrun.symm.trans hh
  · exact nomatch hrun.symm.trans hh
  · exact absurd hp (hinside k rest)

end

/-- Settles O36: acceptance, then the halted answer. -/
theorem haltedAnswersEveryCommand : Obligations.HaltedAnswersEveryCommand := fun s c rest hwf hseq hh hp =>
  (step_of_command hwf hseq hp).trans (accept_of_halted (s := { s with port := rest }) hh c)

/-- Settles O52: what a step of a halted VMC leaves is the frame of an answer. -/
theorem haltEndsOnlyByReset : Obligations.HaltEndsOnlyByReset := fun _ _ hinv hh hreset hinside hs => by
  obtain ⟨_, hheld, hvideo, hsequencer, hfault, hmemory, -, -, hissues⟩ := step_of_halted hinv hh hreset hinside hs
  exact ⟨hfault, hheld, hvideo, hsequencer, hmemory, hissues⟩

/-! ### Only trap entry touches HALT and the fault record -/

section
variable {s t : State}

theorem vsyncStep_keepsFault (s : State) : KeepsFault s (vsyncStep s) := by
  unfold vsyncStep
  split <;> exact ⟨rfl, rfl, rfl, rfl⟩

theorem swapvStep_keepsFault (s : State) : KeepsFault s (swapvStep s) := by
  unfold swapvStep
  split
  · split <;> exact ⟨rfl, rfl, rfl, rfl⟩
  · exact ⟨rfl, rfl, rfl, rfl⟩

/-- No trap arises in the middle of a command: the pixel of a clear in flight is inside the bounds (R121, R214). -/
theorem advance_keepsFault (h : MachineInv s) (ha : advance s = .next t) : KeepsFault s t := by
  rcases advance_cases ha with ⟨-, rfl⟩ | ⟨m, hseq, hm, rfl⟩ | ⟨-, rfl⟩ | ⟨-, rfl⟩
  · exact ⟨rfl, rfl, rfl, rfl⟩
  · obtain ⟨hx, hy⟩ := clearing_bounds h hseq hm
    exact (clearStep_clearsPixel hx hy).fault
  · exact vsyncStep_keepsFault s
  · exact swapvStep_keepsFault s

/-- An instruction behind its checks takes no trap (R214). -/
theorem Effect.keepsFault {i : Instr} (h : Effect s i t) : KeepsFault s t := by
  cases h with
  | read | write | staged | query | construct | enable | get | swap | setpal | getpal | switch =>
    exact ⟨rfl, rfl, rfl, rfl⟩
  | set m x y c =>
    obtain ⟨-, -, -, hfault, -⟩ := setPixel_keeps (s := s) (m := m) (x := x.toNat) (y := y.toNat) (c := c)
    exact hfault
  | clear m =>
    exact (clearStep_clearsPixel (s := { s with seq := .clearing, cx := 0, cy := 0 }) (wd_pos m) (ht_pos m)).fault
  | vsync => exact vsyncStep_keepsFault (atSeq s .poll)
  | swapv => exact swapvStep_keepsFault (atSeq s .pollSwap)

theorem KeepsFault.not_halts (h : KeepsFault s t) (hrun : s.halt = false) : t.halt ≠ true := by
  obtain ⟨hhalt, -⟩ := h
  simp [hhalt, hrun]

/-- An instruction that halts took one of its traps. -/
theorem exec_halts {i : Instr} (he : exec i s = .next t) (hrun : s.halt = false) (hh : t.halt = true) : InstrTrap i s t :=
  (exec_cases he).resolve_right fun heff => heff.keepsFault.not_halts hrun hh

/-- A reset inside a step leaves the VMC running, wherever it lands (R241). -/
theorem cutByReset_halt (k : Nat) (s t : State) : (cutByReset k s t).halt = false := by
  unfold cutByReset
  simp only
  split <;> rfl

/-- R213: a step that halts a running VMC accepted a command, and is the entry of a trap that records a cause, never
REGION_OOB (R121). -/
theorem step_halts (h : MachineInv s) (hrun : s.halt = false) (hs : step s = .next t) (hh : t.halt = true) :
    s.seq = .idle ∧ ∃ opc tr, t = takeTrap { s with port := s.port.tail } opc tr ∧ tr.cause ≠ .none
      ∧ tr.cause ≠ .regionOob := by
  rcases step_cases h.configured with ⟨_, e⟩ | ⟨rest, _, e⟩ | ⟨_, _, e⟩ | ⟨_, _, _, _, e⟩ | ⟨_, _, _, _, hhalted, _⟩
    | ⟨c, rest, _, hp, hseq, _, _, e⟩ | ⟨_, rest, i, hp, hseq, _, _, e⟩ | ⟨k, _, _, e⟩
  · exact absurd hh ((advance_keepsFault h (e.symm.trans hs)).not_halts hrun)
  · exact absurd hh ((advance_keepsFault (port_inv h rest) (e.symm.trans hs)).not_halts hrun)
  · cases e.symm.trans hs
    exact nomatch hh
  · exact absurd hh ((advance_keepsFault h (e.symm.trans hs)).not_halts hrun)
  · exact nomatch hrun.symm.trans hhalted
  · rw [hp]
    cases e.symm.trans hs
    exact ⟨hseq, _, _, rfl, nofun, nofun⟩
  · rw [hp]
    obtain ⟨tr, ht, hcause⟩ := exec_halts (e.symm.trans hs) hrun hh
    exact ⟨hseq, opcOf i, tr, ht, hcause⟩
  · obtain ⟨u, -, rfl⟩ := resetDuring_next (e.symm.trans hs)
    exact nomatch (cutByReset_halt k s u).symm.trans hh

end

/-- Settles O51: a step that halts is trap entry, and trap entry does what R213 says and nothing else. -/
theorem trapsArePrecise : Obligations.TrapsArePrecise := fun s _ hinv hrun hs hh => by
  obtain ⟨hseq, opc, tr, rfl, hnone, hregion⟩ := step_halts hinv hrun hs hh
  exact ⟨hseq, hnone, hregion, takeTrap_traps { s with port := s.port.tail } opc tr⟩

end Sys2Proof.Machine
end

section
/-! Reset (spec/70_reset_and_hazards.md R240 to R242): between two steps, and inside one. -/

namespace Sys2Proof.Machine

section
variable {s t : State} {rest : List HostInput}

/-- R240: reset at the port is the whole of a step. -/
theorem step_of_reset (hwf : s.cfg.wf = true) (hp : s.port = .reset :: rest) :
    step s = .next ({ s with port := rest } : State).resetVmc := by
  rw [step_eq_takeInput hwf, hp, takeInput]

/-- R241: reset inside the step that the inputs behind it bring. -/
theorem step_of_resetInside {k : Nat} (hwf : s.cfg.wf = true) (hp : s.port = .resetInside k :: rest)
    (ht : step { s with port := rest } = .next t) : step s = .next (cutByReset k s t) := by
  rw [step_eq_takeInput (s := { s with port := rest }) hwf] at ht
  rw [step_eq_takeInput hwf, hp, takeInput, ht, resetDuring]

end

/-- Settles O38: the step of a reset, which leaves everything outside the VMC as it was. -/
theorem resetInputClearsVmc : Obligations.ResetInputClearsVmc := fun s rest hwf hp => by
  obtain ⟨hheld, hmode, hen, hactive, hseq, hcx, hcy, hhalt, hcause, hinfo, hopc⟩ :=
    resetVmc_vmcReset { s with port := rest }
  exact ⟨_, step_of_reset hwf hp, hheld, hmode, hen, hactive, hseq, hcx, hcy, hhalt, hcause, hinfo, hopc,
    rfl, rfl, rfl, rfl, rfl⟩

/-- Settles O58: a step's accesses are loads, then at most one store, so those a reset leaves of a step it cuts are loads, and
memory is as before. -/
theorem resetInsideStepAbandonsIt : Obligations.ResetInsideStepAbandonsIt := fun s t k rest es hinv hp ht hes => by
  have hwf : ({ s with port := rest } : State).cfg.wf = true := hinv.configured
  obtain ⟨hcfg, hquiet⟩ := step_keepsParameters hwf ht
  refine ⟨_, step_of_resetInside hinv.configured hp ht, ?_⟩
  rcases cutByReset_cases (step_accesses hwf ht).of_port hes k with ⟨hk, e⟩ | ⟨hk, -, answers, freeIdx, e⟩ <;> rw [e]
  · exact ⟨resetVmc_vmcReset t, rfl, hcfg, hquiet, fun hlt => absurd hlt (by omega), fun _ => ⟨rfl, rfl, fun _ => rfl⟩⟩
  · exact ⟨resetVmc_vmcReset _, rfl, rfl, rfl, fun _ => ⟨rfl, rfl, fun _ => rfl⟩, fun hle => absurd hle (by omega)⟩

end Sys2Proof.Machine
end

section
/-! Runs of a command program (spec/70_reset_and_hazards.md R259): the responses to the commands taken, along instructions, the
command in flight, steps and runs. -/

namespace Sys2Proof.Machine

/-- From `s` to `t` the VMC responds to `n` commands once each, but for one that may still be in flight in `t`; with HALT = 0 in
`t` it was so in `s`, and every response is OK (R90, R96). -/
def Responds (n : Nat) (s t : State) : Prop :=
  ∃ rs, t.responses = s.responses ++ rs ∧ rs.length + inFlight t = n
    ∧ (t.halt = false → s.halt = false ∧ ∀ r ∈ rs, r.status = .ok)

theorem inFlight_idle {s : State} (h : s.seq = .idle) : inFlight s = 0 := if_pos h

theorem inFlight_busy {s : State} (h : s.seq ≠ .idle) : inFlight s = 1 := if_neg h

/-! ### One command -/

section
variable {s t u : State}

/-- No response: the command in flight in `t`, if there is one, has still to answer. -/
theorem Responds.of_silent (h : t.responses = s.responses) (hfault : KeepsFault s t) : Responds (inFlight t) s t := by
  obtain ⟨hhalt, -⟩ := hfault
  exact ⟨[], by rw [h, List.append_nil], Nat.zero_add _, fun hrun => ⟨hhalt.symm.trans hrun, nofun⟩⟩

/-- The command goes on without a response (R28). -/
theorem Responds.of_busy (h : t.responses = s.responses) (hseq : t.seq ≠ .idle) (hfault : KeepsFault s t) :
    Responds 1 s t :=
  inFlight_busy hseq ▸ .of_silent h hfault

/-- The command ends with its OK response. -/
theorem Responds.of_respondsOk {v : Word} (h : RespondsOk s t v) (hseq : t.seq = .idle) (hfault : KeepsFault s t) :
    Responds 1 s t := by
  obtain ⟨hhalt, -⟩ := hfault
  exact ⟨_, h, by rw [inFlight_idle hseq]; rfl, fun hrun => ⟨hhalt.symm.trans hrun, List.forall_mem_singleton.2 rfl⟩⟩

theorem Responds.of_trap (s : State) (opc : Byte) (tr : Trap) : Responds 1 s (takeTrap s opc tr) := ⟨[_], rfl, rfl, nofun⟩

theorem Responds.of_halted (hseq : s.seq = .idle) (hh : s.halt = true) : Responds 1 s (respondHalted s) :=
  ⟨[_], rfl, by rw [inFlight_idle (s := respondHalted s) hseq]; rfl, fun hrun => nomatch hh.symm.trans hrun⟩

theorem clearStep_responds {m : VideoMode} (hseq : s.seq = .clearing) (hx : s.cx.toNat < wd m) (hy : s.cy.toNat < ht m) :
    Responds 1 s (clearStep s m) := by
  have hfault := (clearStep_clearsPixel hx hy).fault
  rcases clearStep_index hseq hx hy with ⟨hseq', -, -, hrs⟩ | ⟨hidle, -, hok⟩
  · exact .of_busy hrs (by simp [hseq']) hfault
  · exact .of_respondsOk hok hidle hfault

theorem vsyncStep_responds (hseq : s.seq ≠ .idle) : Responds 1 s (vsyncStep s) := by
  unfold vsyncStep
  split
  · exact .of_respondsOk rfl rfl ⟨rfl, rfl, rfl, rfl⟩
  · exact .of_busy rfl hseq ⟨rfl, rfl, rfl, rfl⟩

theorem swapvStep_responds (hseq : s.seq ≠ .idle) : Responds 1 s (swapvStep s) := by
  unfold swapvStep
  split
  · split <;> exact .of_respondsOk rfl rfl ⟨rfl, rfl, rfl, rfl⟩
  · exact .of_busy rfl hseq ⟨rfl, rfl, rfl, rfl⟩

/-- A step with no command accepted answers the command in flight, if there is one. -/
theorem advance_responds (h : MachineInv s) (ha : advance s = .next t) : Responds (inFlight s) s t := by
  rcases advance_cases ha with ⟨-, rfl⟩ | ⟨m, hseq, hm, rfl⟩ | ⟨hseq, rfl⟩ | ⟨hseq, rfl⟩
  · exact .of_silent rfl ⟨rfl, rfl, rfl, rfl⟩
  all_goals rw [inFlight_busy (s := s) (by simp [hseq])]
  · obtain ⟨hx, hy⟩ := clearing_bounds h hseq hm
    exact clearStep_responds hseq hx hy
  · exact vsyncStep_responds (by simp [hseq])
  · exact swapvStep_responds (by simp [hseq])

/-- An instruction answers, or is in flight. -/
theorem exec_responds {i : Instr} (hseq : s.seq = .idle) (he : exec i s = .next t) : Responds 1 s t := by
  rcases exec_cases he with ⟨tr, rfl, -⟩ | heff
  · exact .of_trap s _ tr
  · have hfault := heff.keepsFault
    cases heff with
    | read | write | staged | query | construct | enable | get | swap | setpal | getpal | switch =>
      exact .of_respondsOk rfl hseq hfault
    | set m x y c =>
      refine .of_respondsOk (v := 0) ?_ ((setPixel_seq s m x.toNat y.toNat c).trans hseq) hfault
      rw [RespondsOk, respond_responses, setPixel_responses]
    | clear m => exact clearStep_responds (s := { s with seq := .clearing, cx := 0, cy := 0 }) rfl (wd_pos m) (ht_pos m)
    | vsync => exact vsyncStep_responds (s := atSeq s .poll) nofun
    | swapv => exact swapvStep_responds (s := atSeq s .pollSwap) nofun

/-- An instruction leaves what waits at the port; the first step of one that is in flight is a step of it (log 6). -/
theorem exec_keeps_port {i : Instr} (he : exec i s = .next t) : t.port = s.port := by
  rcases exec_cases he with ⟨tr, rfl, -⟩ | heff
  · rfl
  · cases heff with
    | read | write | staged | query | construct | enable | get | swap | setpal | getpal | switch => rfl
    | set m x y c =>
      obtain ⟨-, -, -, -, -, hport, -⟩ := setPixel_keeps (s := s) (m := m) (x := x.toNat) (y := y.toNat) (c := c)
      exact hport
    | clear m hm => exact advance_keeps_port (s := { s with seq := .clearing, cx := 0, cy := 0 }) (advance_clearing rfl hm)
    | vsync => exact advance_keeps_port (s := atSeq s .poll) (advance_poll rfl)
    | swapv => exact advance_keeps_port (s := atSeq s .pollSwap) (advance_pollSwap rfl)

/-- An accepted command, in the order of R212: halted, illegal, or an instruction. -/
theorem accept_responds {c : Command} (hseq : s.seq = .idle) (ha : accept c s = .next t) :
    Responds 1 s t ∧ t.port = s.port := by
  cases hh : s.halt with
  | true =>
    cases (accept_of_halted hh c).symm.trans ha
    exact ⟨.of_halted hseq hh, rfl⟩
  | false =>
    cases hc : decode c with
    | error e =>
      cases (accept_of_error hh hc).symm.trans ha
      exact ⟨.of_trap s _ _, rfl⟩
    | ok i =>
      have he := (accept_of_decode hh hc).symm.trans ha
      exact ⟨exec_responds hseq he, exec_keeps_port he⟩

/-! ### Steps and runs -/

/-- Every command that is taken off the port from `s` to `t`, and one in flight in `s` before them, is answered or in flight. -/
def Serves (s t : State) : Prop := ∃ taken, s.port = taken ++ t.port ∧ Responds (taken.length + inFlight s) s t

theorem Serves.refl (s : State) : Serves s s := by
  refine ⟨[], rfl, ?_⟩
  rw [List.length_nil, Nat.zero_add]
  exact .of_silent rfl ⟨rfl, rfl, rfl, rfl⟩

theorem Serves.trans (h : Serves s t) (h' : Serves t u) : Serves s u := by
  obtain ⟨taken, hport, rs, hrs, hcount, hok⟩ := h
  obtain ⟨taken', hport', rs', hrs', hcount', hok'⟩ := h'
  refine ⟨taken ++ taken', by rw [hport, hport', List.append_assoc], rs ++ rs', by rw [hrs', hrs, List.append_assoc], ?_,
    fun hrun => ?_⟩
  · simp only [List.length_append]
    omega
  · obtain ⟨hmid, hall'⟩ := hok' hrun
    obtain ⟨hstart, hall⟩ := hok hmid
    exact ⟨hstart, List.forall_mem_append.2 ⟨hall, hall'⟩⟩

/-- The host presents commands and does nothing else: no reset, no idle step. -/
def OnlyCommands (s : State) : Prop := ∀ x ∈ s.port, ∃ c, x = HostInput.command c

theorem Serves.onlyCommands (h : Serves s t) (hcmd : OnlyCommands s) : OnlyCommands t := by
  obtain ⟨taken, hport, -⟩ := h
  exact fun x hx => hcmd x (hport ▸ List.mem_append_right taken hx)

/-- A step of the command in flight takes nothing off the port. -/
theorem advance_serves (h : MachineInv s) (ha : advance s = .next t) : Serves s t := by
  refine ⟨[], (advance_keeps_port ha).symm, ?_⟩
  rw [List.length_nil, Nat.zero_add]
  exact advance_responds h ha

/-- While the host only presents commands, a step accepts the first of them or is one of the command in flight (R90). -/
theorem step_serves (h : MachineInv s) (hcmd : OnlyCommands s) (hs : step s = .next t) :
    Serves s t := by
  cases hp : s.port with
  | nil => exact advance_serves h ((step_of_no_input h.configured hp).symm.trans hs)
  | cons x rest =>
    obtain ⟨c, rfl⟩ := hcmd x (by simp [hp])
    by_cases hseq : s.seq = .idle
    · obtain ⟨hresponds, hport⟩ :=
        accept_responds (s := { s with port := rest }) hseq ((step_of_command h.configured hseq hp).symm.trans hs)
      refine ⟨[.command c], by rw [hp, hport]; rfl, ?_⟩
      rw [inFlight_idle hseq]
      exact hresponds
    · exact advance_serves h ((step_of_busy h.configured hseq hp).symm.trans hs)

/-- Along a run of presented commands the invariant holds, and every command taken is served: by induction on the steps. -/
theorem run_serves {k : Nat} (h : MachineInv s) (hcmd : OnlyCommands s)
    (hr : Host.Core.run Sys2Proof.core k s = .next t) : MachineInv t ∧ Serves s t := by
  induction k generalizing s with
  | zero =>
    cases hr
    exact ⟨h, .refl _⟩
  | succ k ih =>
    obtain ⟨u, hu⟩ := step_next h
    have hserves := step_serves h hcmd hu
    obtain ⟨hinv, hrest⟩ := ih (step_inv h hu) (hserves.onlyCommands hcmd) ((run_succ hu k).symm.trans hr)
    exact ⟨hinv, hserves.trans hrest⟩

/-- A run of a program keeps the invariant and serves the program's commands. -/
theorem RunsTo.serves {program : List Command} (h : MachineInv s) (hr : RunsTo program s t) :
    MachineInv t ∧ Serves { s with port := program.map .command } t := by
  obtain ⟨k, hk⟩ := hr
  refine run_serves (port_inv h _) (fun x hx => ?_) hk
  obtain ⟨c, -, rfl⟩ := List.mem_map.1 hx
  exact ⟨c, rfl⟩

/-- The program's responses are those since `s` behind that of the command in flight in `s`. -/
theorem runResponses_eq_drop {rs : List Response} (h : t.responses = s.responses ++ rs) :
    runResponses s t = rs.drop (inFlight s) := by
  rw [runResponses, h, List.drop_length_add_append]

/-- Nothing in flight and nothing at the port: nothing happens (R27). -/
theorem step_of_idle (hwf : s.cfg.wf = true) (hseq : s.seq = .idle) (hp : s.port = []) : step s = .next s :=
  (step_of_no_input hwf hp).trans (advance_idle hseq)

end

/-- Settles O59: a run serves the program's commands, so it has as many responses as commands exactly when the port is empty and
nothing is in flight; and while the VMC is not halted all of them are OK. -/
theorem runAnswersEveryCommandOnce : Obligations.RunAnswersEveryCommandOnce := fun program s t hinv hr => by
  obtain ⟨hinv', taken, hport, rs, hrs, hcount, hok⟩ := hr.serves hinv
  have hprogram : program.length = taken.length + t.port.length := by
    simpa using congrArg List.length hport
  have hcount' : rs.length + inFlight t = taken.length + inFlight s := hcount
  have hresponses : runResponses s t = rs.drop (inFlight s) := runResponses_eq_drop hrs
  have hover : RunOver program s t ↔ t.seq = .idle ∧ t.port = [] := by
    rw [RunOver, hresponses, List.length_drop, ← List.length_eq_zero_iff]
    refine ⟨fun ⟨_, hseq, hlen⟩ => ⟨hseq, ?_⟩, fun ⟨hseq, hempty⟩ => ⟨hr, hseq, ?_⟩⟩
    · rw [inFlight_idle hseq] at hcount'
      omega
    · rw [inFlight_idle hseq] at hcount'
      omega
  refine ⟨⟨rs, hrs, by omega⟩, hover, fun hdone => ?_, fun hdone _ => ?_⟩
  · obtain ⟨hseq, hp⟩ := hover.1 hdone
    exact step_of_idle hinv'.configured hseq hp
  · cases hh : t.halt with
    | true => exact .inr ⟨hr, hh⟩
    | false =>
      obtain ⟨-, hall⟩ := hok hh
      exact .inl ⟨hdone, hh, fun r hmem => hall r (List.mem_of_mem_drop (hresponses ▸ hmem))⟩

end Sys2Proof.Machine
end
